-- ==== Sys2Proof/Word.lean ====
section
/-! DEFINITION. The machine's words and the numbers that name a register or a key.

Every value of the CORE is an unsigned number of a fixed width (00_scope R9); bit 0 is the least
significant (R7), which is `BitVec`'s own numbering. -/

namespace Sys2Proof

/-- A byte: memory bytes, V registers, timers, immediates `nn` (R5, R21, R29, R45). -/
abbrev Byte := BitVec 8

/-- A 16-bit word: the program counter, the index register, stack entries, instruction words (R5). -/
abbrev Word := BitVec 16

/-- A nibble: one of the four fields of an instruction word (R69). -/
abbrev Nibble := BitVec 4

/-- A 12-bit absolute address as instructions encode it, `nnn` (R69, R70). -/
abbrev Addr12 := BitVec 12

/-- The number of a variable register, 0..15 (R21). -/
abbrev RegId := Fin 16

/-- The number of a key, 0x0..0xF (R32). -/
abbrev KeyId := Fin 16

end Sys2Proof
end

