-- ==== Sys2Proof/Machine/Flags.lean ====
section
/-! DEFINITION. The results and flag outcomes of 10_state R36, each computed exactly on the naturals
from the operands read at the start of the instruction and narrowed at the end (41_alu R105, R106). -/

namespace Sys2Proof.Machine

/-- A flag as a register value: 0 or 1 (R22, R36). -/
def flagByte (f : Bool) : Byte := if f then 1 else 0

/-- The sum of 8xy4, reduced mod 256 (R99). -/
def addResult (a b : Byte) : Byte := BitVec.ofNat 8 ((a.toNat + b.toNat) % 256)

/-- The carry of 8xy4: the unsigned sum exceeds 255 (R99). -/
def addCarry (a b : Byte) : Bool := decide (255 < a.toNat + b.toNat)

/-- The difference of 8xy5 and 8xy7, minuend first, reduced mod 256 (R100, R102). -/
def subResult (a b : Byte) : Byte := BitVec.ofNat 8 ((256 + a.toNat - b.toNat) % 256)

/-- No borrow: the minuend is at least the subtrahend (R100, R102, R105). -/
def subNoBorrow (a b : Byte) : Bool := decide (b.toNat ≤ a.toNat)

/-- The operand shifted right by one (R101). -/
def shrResult (a : Byte) : Byte := BitVec.ofNat 8 (a.toNat / 2)

/-- The bit shifted out to the right, bit 0 (R101). -/
def shrFlag (a : Byte) : Bool := a.getLsbD 0

/-- The operand shifted left by one, reduced mod 256 (R103). -/
def shlResult (a : Byte) : Byte := BitVec.ofNat 8 (a.toNat * 2 % 256)

/-- The bit shifted out to the left, bit 7 (R103). -/
def shlFlag (a : Byte) : Bool := a.getLsbD 7

/-- The exact sum of Fx1E (R109). -/
def indexSum (i : Word) (a : Byte) : Nat := i.toNat + a.toNat

/-- The sum of Fx1E masked to 12 bits (R109). -/
def indexResult (i : Word) (a : Byte) : Word := BitVec.ofNat 16 (indexSum i a % 0x1000)

/-- The overflow of Fx1E: the sum exceeds 0xFFF (R109). -/
def indexOverflow (i : Word) (a : Byte) : Bool := decide (0xFFF < indexSum i a)

end Sys2Proof.Machine
end

