-- ==== Sys2Proof/Config.lean ====
section
/-! DEFINITION. What is fixed for the machine, and what is left free.

The fixed sizes of 00_scope R5; the types of the parameters of 00_scope R6 (their chosen values are
in Machine/Policy.lean); and the free values: constants without a body, of which nothing can be
proved. -/

namespace Sys2Proof.Config

/-- `MEM_SIZE` (R5). -/
def memSize : Nat := 4096

/-- `RESERVED_END` (R5): [0, 0x200) is reserved. -/
def reservedEnd : Nat := 0x200

/-- `PROG_BASE` (R5): programs load here and `pc` resets here. -/
def progBase : Nat := 0x200

/-- `ROM_MAX` (R5; C2): the largest accepted program, 3584 bytes. -/
def romMax : Nat := memSize - progBase

/-- `FONT_BASE` (R5). -/
def fontBase : Nat := 0x050

/-- `FONT_GLYPHS` (R5). -/
def fontGlyphs : Nat := 16

/-- `GLYPH_BYTES` (R5). -/
def glyphBytes : Nat := 5

/-- `DISPLAY_W` (R5). -/
def displayW : Nat := 64

/-- `DISPLAY_H` (R5). -/
def displayH : Nat := 32

/-- `INSTR_BYTES` (R5, R68). -/
def instrBytes : Nat := 2

/-- `SHIFT_SOURCE` (R6, D7): the register 8xy6 and 8xyE shift. -/
inductive ShiftSource where
  | vx
  | vy
  deriving DecidableEq, Repr

/-- `RESERVED_WRITE_POLICY` (R6, D5): what a write below 0x200 does. -/
inductive ReservedWritePolicy where
  | fault
  | allow
  deriving DecidableEq, Repr

/-- `FX1E_VF_NO_OVERFLOW` (R6, D6): what Fx1E does to VF when the sum does not exceed 0xFFF. -/
inductive NoOverflowFlag where
  | clear
  | keep
  deriving DecidableEq, Repr

/-- The random byte of the n-th draw, where the outside world has supplied none (R142, D29; log 2).
A FREE VALUE: it has no body that a proof can use, and the model assumes nothing of it. -/
opaque randomByte : Nat → Byte

/-- The choice Fx0A makes among several pressed keys at the n-th draw (R121, D12; log 3). A FREE
VALUE; the meaning reduces it to the number of pressed keys, the one limit the spec sets. -/
opaque keyChoice : Nat → Nat

end Sys2Proof.Config
end

