-- ==== Sys2Proof/Syntax.lean ====
section
/-! DEFINITION. The instructions: one constructor for each of the 34 rows of 30_encoding R79 and of
spec/opcode_table.json, in the table's order. Operands are the fields of R69; a field's width is its
type, but for the row count of DRW, a count, whose bound WellFormed.lean checks. -/

namespace Sys2Proof

inductive Instr where
  /-- 00E0 CLS (R114). -/
  | cls
  /-- 00EE RET (R85). -/
  | ret
  /-- 1nnn JP nnn (R86). -/
  | jp (nnn : Addr12)
  /-- 2nnn CALL nnn (R87). -/
  | call (nnn : Addr12)
  /-- 3xnn SE Vx, nn (R88). -/
  | seImm (x : RegId) (nn : Byte)
  /-- 4xnn SNE Vx, nn (R89). -/
  | sneImm (x : RegId) (nn : Byte)
  /-- 5xy0 SE Vx, Vy (R90). -/
  | seReg (x y : RegId)
  /-- 6xnn LD Vx, nn (R93). -/
  | ldImm (x : RegId) (nn : Byte)
  /-- 7xnn ADD Vx, nn (R94). -/
  | addImm (x : RegId) (nn : Byte)
  /-- 8xy0 LD Vx, Vy (R95). -/
  | ldReg (x y : RegId)
  /-- 8xy1 OR Vx, Vy (R96). -/
  | orReg (x y : RegId)
  /-- 8xy2 AND Vx, Vy (R97). -/
  | andReg (x y : RegId)
  /-- 8xy3 XOR Vx, Vy (R98). -/
  | xorReg (x y : RegId)
  /-- 8xy4 ADD Vx, Vy (R99). -/
  | addReg (x y : RegId)
  /-- 8xy5 SUB Vx, Vy (R100). -/
  | subReg (x y : RegId)
  /-- 8xy6 SHR Vx, with Vy encoded (R101). -/
  | shr (x y : RegId)
  /-- 8xy7 SUBN Vx, Vy (R102). -/
  | subnReg (x y : RegId)
  /-- 8xyE SHL Vx, with Vy encoded (R103). -/
  | shl (x y : RegId)
  /-- 9xy0 SNE Vx, Vy (R91). -/
  | sneReg (x y : RegId)
  /-- Annn LD I, nnn (R108). -/
  | ldI (nnn : Addr12)
  /-- Bnnn JP V0, nnn (R92). -/
  | jpV0 (nnn : Addr12)
  /-- Cxnn RND Vx, nn (R104). -/
  | rnd (x : RegId) (nn : Byte)
  /-- Dxyn DRW Vx, Vy, n (R115): `rows` is the field n, the row count. -/
  | drw (x y : RegId) (rows : Nat)
  /-- Ex9E SKP Vx (R118). -/
  | skp (x : RegId)
  /-- ExA1 SKNP Vx (R119). -/
  | sknp (x : RegId)
  /-- Fx07 LD Vx, DT (R120). -/
  | ldVxDt (x : RegId)
  /-- Fx0A LD Vx, K (R121). -/
  | ldVxK (x : RegId)
  /-- Fx15 LD DT, Vx (R122). -/
  | ldDtVx (x : RegId)
  /-- Fx18 LD ST, Vx (R123). -/
  | ldStVx (x : RegId)
  /-- Fx1E ADD I, Vx (R109). -/
  | addI (x : RegId)
  /-- Fx29 LD F, Vx (R110). -/
  | ldF (x : RegId)
  /-- Fx33 LD B, Vx (R111). -/
  | ldB (x : RegId)
  /-- Fx55 LD [I], Vx (R112). -/
  | storeRegs (x : RegId)
  /-- Fx65 LD Vx, [I] (R113). -/
  | loadRegs (x : RegId)
  deriving DecidableEq, Repr

end Sys2Proof
end

