-- ==== Sys2Proof/WellFormed.lean ====
section
/-! DEFINITION. Which instructions can be encoded. The register, immediate and address operands are
bounded by their types; the one operand that is a plain number is the row count of DRW, a 4-bit
field (R69: `n` is w[3:0]; R70: "a 4-bit unsigned row count in Dxyn"). -/

namespace Sys2Proof

/-- The row count fits its field: 0..15 (R115 "row count, 0..15"). -/
def rowCountFits (rows : Nat) : Bool := decide (rows < 16)

/-- An instruction whose operands all fit the fields of R69. -/
def Instr.wellFormed : Instr → Bool
  | .drw _ _ rows => rowCountFits rows
  | .cls | .ret | .jp _ | .call _ | .seImm _ _ | .sneImm _ _ | .seReg _ _ | .ldImm _ _
  | .addImm _ _ | .ldReg _ _ | .orReg _ _ | .andReg _ _ | .xorReg _ _ | .addReg _ _ | .subReg _ _
  | .shr _ _ | .subnReg _ _ | .shl _ _ | .sneReg _ _ | .ldI _ | .jpV0 _ | .rnd _ _ | .skp _
  | .sknp _ | .ldVxDt _ | .ldVxK _ | .ldDtVx _ | .ldStVx _ | .addI _ | .ldF _ | .ldB _
  | .storeRegs _ | .loadRegs _ => true

end Sys2Proof
end

