-- ==== Sys2Proof/Decode.lean ====
section
/-! DEFINITION. From bits to instructions and back: the fields (30_encoding R69), the decoder (R72 to
R78), total on every word and on any bytes (R81), the encoder, and the opcode map of R79 as data. -/

namespace Sys2Proof

/-! ### Fields of an instruction word (R69) -/

/-- `op` = w[15:12], the opcode family. -/
def fieldOp (w : Word) : Nibble := w.extractLsb' 12 4

/-- `x` = w[11:8], a register number. -/
def fieldX (w : Word) : RegId := (w.extractLsb' 8 4).toFin

/-- `y` = w[7:4], a register number. -/
def fieldY (w : Word) : RegId := (w.extractLsb' 4 4).toFin

/-- `n` = w[3:0], a count or sub-opcode. -/
def fieldN (w : Word) : Nibble := w.extractLsb' 0 4

/-- `nn` = w[7:0], an immediate byte or sub-opcode. -/
def fieldNN (w : Word) : Byte := w.extractLsb' 0 8

/-- `nnn` = w[11:0], an address. -/
def fieldNNN (w : Word) : Addr12 := w.extractLsb' 0 12

/-- The word of two consecutive bytes: the byte at the lower address is the high byte (R55, R66). -/
def wordOfBytes (b1 b2 : Byte) : Word := b1 ++ b2

/-- The byte of a word that lies at the lower address (R55). -/
def highByte (w : Word) : Byte := w.extractLsb' 8 8

/-- The byte of a word that lies at the higher address (R55). -/
def lowByte (w : Word) : Byte := w.extractLsb' 0 8

/-! ### Decoding -/

/-- What a word decodes to (R81): one of the 34 instructions, or UnknownOpcode of that word. -/
inductive Decoded where
  | instr (i : Instr)
  | unknown (w : Word)
  deriving DecidableEq, Repr

/-- Family 0x0 (R73): the two fixed words, and nothing else. -/
def decodeFamily0 (w : Word) : Decoded :=
  if w = 0x00E0#16 then .instr .cls
  else if w = 0x00EE#16 then .instr .ret
  else .unknown w

/-- Family 0x5 (R74): only with `n` = 0. -/
def decodeFamily5 (w : Word) : Decoded :=
  match (fieldN w).toNat with
  | 0x0 => .instr (.seReg (fieldX w) (fieldY w))
  | _ => .unknown w

/-- Family 0x8 (R75): selects on `n`. -/
def decodeFamily8 (w : Word) : Decoded :=
  match (fieldN w).toNat with
  | 0x0 => .instr (.ldReg (fieldX w) (fieldY w))
  | 0x1 => .instr (.orReg (fieldX w) (fieldY w))
  | 0x2 => .instr (.andReg (fieldX w) (fieldY w))
  | 0x3 => .instr (.xorReg (fieldX w) (fieldY w))
  | 0x4 => .instr (.addReg (fieldX w) (fieldY w))
  | 0x5 => .instr (.subReg (fieldX w) (fieldY w))
  | 0x6 => .instr (.shr (fieldX w) (fieldY w))
  | 0x7 => .instr (.subnReg (fieldX w) (fieldY w))
  | 0xE => .instr (.shl (fieldX w) (fieldY w))
  | _ => .unknown w

/-- Family 0x9 (R74): only with `n` = 0. -/
def decodeFamily9 (w : Word) : Decoded :=
  match (fieldN w).toNat with
  | 0x0 => .instr (.sneReg (fieldX w) (fieldY w))
  | _ => .unknown w

/-- Family 0xE (R76): selects on `nn`. -/
def decodeFamilyE (w : Word) : Decoded :=
  match (fieldNN w).toNat with
  | 0x9E => .instr (.skp (fieldX w))
  | 0xA1 => .instr (.sknp (fieldX w))
  | _ => .unknown w

/-- Family 0xF (R77): selects on `nn`. -/
def decodeFamilyF (w : Word) : Decoded :=
  match (fieldNN w).toNat with
  | 0x07 => .instr (.ldVxDt (fieldX w))
  | 0x0A => .instr (.ldVxK (fieldX w))
  | 0x15 => .instr (.ldDtVx (fieldX w))
  | 0x18 => .instr (.ldStVx (fieldX w))
  | 0x1E => .instr (.addI (fieldX w))
  | 0x29 => .instr (.ldF (fieldX w))
  | 0x33 => .instr (.ldB (fieldX w))
  | 0x55 => .instr (.storeRegs (fieldX w))
  | 0x65 => .instr (.loadRegs (fieldX w))
  | _ => .unknown w

/-- Decoding selects on `op` first, then on the sub-opcode field of that family (R72); the families
0x1, 0x2, 0x3, 0x4, 0x6, 0x7, 0xA, 0xB, 0xC and 0xD decode for every value of their other bits
(R78). -/
def decode (w : Word) : Decoded :=
  match (fieldOp w).toNat with
  | 0x0 => decodeFamily0 w
  | 0x1 => .instr (.jp (fieldNNN w))
  | 0x2 => .instr (.call (fieldNNN w))
  | 0x3 => .instr (.seImm (fieldX w) (fieldNN w))
  | 0x4 => .instr (.sneImm (fieldX w) (fieldNN w))
  | 0x5 => decodeFamily5 w
  | 0x6 => .instr (.ldImm (fieldX w) (fieldNN w))
  | 0x7 => .instr (.addImm (fieldX w) (fieldNN w))
  | 0x8 => decodeFamily8 w
  | 0x9 => decodeFamily9 w
  | 0xA => .instr (.ldI (fieldNNN w))
  | 0xB => .instr (.jpV0 (fieldNNN w))
  | 0xC => .instr (.rnd (fieldX w) (fieldNN w))
  | 0xD => .instr (.drw (fieldX w) (fieldY w) (fieldN w).toNat)
  | 0xE => decodeFamilyE w
  | _ => decodeFamilyF w

/-- Why bytes give no instruction: fewer than the two bytes of every instruction (R68), or a word
that is an UnknownOpcode (R80). -/
inductive Reject where
  | truncated
  | unknownOpcode (w : Word)
  deriving DecidableEq, Repr

/-- The first instruction of a sequence of bytes, lowest address first, with the bytes after it:
total on any bytes, rejecting by name. -/
def decodeBytes : List Byte → Except Reject (Instr × List Byte)
  | b1 :: b2 :: rest =>
    match decode (wordOfBytes b1 b2) with
    | .instr i => .ok (i, rest)
    | .unknown w => .error (.unknownOpcode w)
  | _ => .error .truncated

/-! ### Encoding (R69, R79) -/

/-- A word of form `nnn` (R71): op ++ nnn. -/
def formNNN (op : Nibble) (nnn : Addr12) : Word := op ++ nnn

/-- A word of form `xnn` or `xNN` (R71): op ++ x ++ nn. -/
def formXNN (op : Nibble) (x : RegId) (nn : Byte) : Word := op ++ BitVec.ofFin (w := 4) x ++ nn

/-- A word of form `xy0`, `xyN` or `xyn` (R71): op ++ x ++ y ++ n. -/
def formXYN (op : Nibble) (x y : RegId) (n : Nibble) : Word :=
  op ++ BitVec.ofFin (w := 4) x ++ BitVec.ofFin (w := 4) y ++ n

/-- The word of an instruction, from the rows of R79. -/
def encode : Instr → Word
  | .cls => 0x00E0#16
  | .ret => 0x00EE#16
  | .jp nnn => formNNN 0x1#4 nnn
  | .call nnn => formNNN 0x2#4 nnn
  | .seImm x nn => formXNN 0x3#4 x nn
  | .sneImm x nn => formXNN 0x4#4 x nn
  | .seReg x y => formXYN 0x5#4 x y 0x0#4
  | .ldImm x nn => formXNN 0x6#4 x nn
  | .addImm x nn => formXNN 0x7#4 x nn
  | .ldReg x y => formXYN 0x8#4 x y 0x0#4
  | .orReg x y => formXYN 0x8#4 x y 0x1#4
  | .andReg x y => formXYN 0x8#4 x y 0x2#4
  | .xorReg x y => formXYN 0x8#4 x y 0x3#4
  | .addReg x y => formXYN 0x8#4 x y 0x4#4
  | .subReg x y => formXYN 0x8#4 x y 0x5#4
  | .shr x y => formXYN 0x8#4 x y 0x6#4
  | .subnReg x y => formXYN 0x8#4 x y 0x7#4
  | .shl x y => formXYN 0x8#4 x y 0xE#4
  | .sneReg x y => formXYN 0x9#4 x y 0x0#4
  | .ldI nnn => formNNN 0xA#4 nnn
  | .jpV0 nnn => formNNN 0xB#4 nnn
  | .rnd x nn => formXNN 0xC#4 x nn
  | .drw x y rows => formXYN 0xD#4 x y (BitVec.ofNat 4 rows)
  | .skp x => formXNN 0xE#4 x 0x9E#8
  | .sknp x => formXNN 0xE#4 x 0xA1#8
  | .ldVxDt x => formXNN 0xF#4 x 0x07#8
  | .ldVxK x => formXNN 0xF#4 x 0x0A#8
  | .ldDtVx x => formXNN 0xF#4 x 0x15#8
  | .ldStVx x => formXNN 0xF#4 x 0x18#8
  | .addI x => formXNN 0xF#4 x 0x1E#8
  | .ldF x => formXNN 0xF#4 x 0x29#8
  | .ldB x => formXNN 0xF#4 x 0x33#8
  | .storeRegs x => formXNN 0xF#4 x 0x55#8
  | .loadRegs x => formXNN 0xF#4 x 0x65#8

/-- The bytes of an instruction as memory holds them, lowest address first (R55). -/
def encodeBytes (i : Instr) : List Byte := [highByte (encode i), lowByte (encode i)]

/-! ### The opcode map (R79) -/

/-- One row of R79, written as a `match`/`mask` pair: "a word w is the instruction when
`w & mask = match`". -/
abbrev MapRow := Word × Word

/-- The row (match, mask) of R79 that an instruction belongs to. -/
def Instr.row : Instr → MapRow
  | .cls => (0x00E0#16, 0xFFFF#16)
  | .ret => (0x00EE#16, 0xFFFF#16)
  | .jp _ => (0x1000#16, 0xF000#16)
  | .call _ => (0x2000#16, 0xF000#16)
  | .seImm _ _ => (0x3000#16, 0xF000#16)
  | .sneImm _ _ => (0x4000#16, 0xF000#16)
  | .seReg _ _ => (0x5000#16, 0xF00F#16)
  | .ldImm _ _ => (0x6000#16, 0xF000#16)
  | .addImm _ _ => (0x7000#16, 0xF000#16)
  | .ldReg _ _ => (0x8000#16, 0xF00F#16)
  | .orReg _ _ => (0x8001#16, 0xF00F#16)
  | .andReg _ _ => (0x8002#16, 0xF00F#16)
  | .xorReg _ _ => (0x8003#16, 0xF00F#16)
  | .addReg _ _ => (0x8004#16, 0xF00F#16)
  | .subReg _ _ => (0x8005#16, 0xF00F#16)
  | .shr _ _ => (0x8006#16, 0xF00F#16)
  | .subnReg _ _ => (0x8007#16, 0xF00F#16)
  | .shl _ _ => (0x800E#16, 0xF00F#16)
  | .sneReg _ _ => (0x9000#16, 0xF00F#16)
  | .ldI _ => (0xA000#16, 0xF000#16)
  | .jpV0 _ => (0xB000#16, 0xF000#16)
  | .rnd _ _ => (0xC000#16, 0xF000#16)
  | .drw _ _ _ => (0xD000#16, 0xF000#16)
  | .skp _ => (0xE09E#16, 0xF0FF#16)
  | .sknp _ => (0xE0A1#16, 0xF0FF#16)
  | .ldVxDt _ => (0xF007#16, 0xF0FF#16)
  | .ldVxK _ => (0xF00A#16, 0xF0FF#16)
  | .ldDtVx _ => (0xF015#16, 0xF0FF#16)
  | .ldStVx _ => (0xF018#16, 0xF0FF#16)
  | .addI _ => (0xF01E#16, 0xF0FF#16)
  | .ldF _ => (0xF029#16, 0xF0FF#16)
  | .ldB _ => (0xF033#16, 0xF0FF#16)
  | .storeRegs _ => (0xF055#16, 0xF0FF#16)
  | .loadRegs _ => (0xF065#16, 0xF0FF#16)

/-- The rows of R79, in its order. -/
def opcodeMap : List MapRow :=
  [(0x00E0#16, 0xFFFF#16), (0x00EE#16, 0xFFFF#16), (0x1000#16, 0xF000#16), (0x2000#16, 0xF000#16),
   (0x3000#16, 0xF000#16), (0x4000#16, 0xF000#16), (0x5000#16, 0xF00F#16), (0x6000#16, 0xF000#16),
   (0x7000#16, 0xF000#16)] ++
  [(0x8000#16, 0xF00F#16), (0x8001#16, 0xF00F#16), (0x8002#16, 0xF00F#16), (0x8003#16, 0xF00F#16),
   (0x8004#16, 0xF00F#16), (0x8005#16, 0xF00F#16), (0x8006#16, 0xF00F#16), (0x8007#16, 0xF00F#16),
   (0x800E#16, 0xF00F#16), (0x9000#16, 0xF00F#16)] ++
  [(0xA000#16, 0xF000#16), (0xB000#16, 0xF000#16), (0xC000#16, 0xF000#16), (0xD000#16, 0xF000#16),
   (0xE09E#16, 0xF0FF#16), (0xE0A1#16, 0xF0FF#16)] ++
  [(0xF007#16, 0xF0FF#16), (0xF00A#16, 0xF0FF#16), (0xF015#16, 0xF0FF#16), (0xF018#16, 0xF0FF#16),
   (0xF01E#16, 0xF0FF#16), (0xF029#16, 0xF0FF#16), (0xF033#16, 0xF0FF#16), (0xF055#16, 0xF0FF#16),
   (0xF065#16, 0xF0FF#16)]

/-- A word is the instruction of a row when `w & mask = match` (R79). -/
def rowMatches (r : MapRow) (w : Word) : Bool := decide (w &&& r.2 = r.1)

/-! ### Words as the opcode table numbers them -/

/-- The instruction the decoder reads from an instruction whose bits are `w`, bit 0 the least
significant bit of its one 16-bit word (log 22): the word is laid out as memory holds it, high byte
first (R55), and given to the decoder of bytes. -/
def decodeTableWord (nbits w : Nat) : Option Instr :=
  let word : Word := BitVec.ofNat 16 (w % 2 ^ nbits)
  match decodeBytes [highByte word, lowByte word] with
  | .ok (i, _) => some i
  | .error _ => none

end Sys2Proof
end

