-- ==== Sys2Proof/Machine/State.lean ====
section
/-! DEFINITION. The state of the CORE (10_state) as plain data, and its value after reset. -/

namespace Sys2Proof.Machine

/-! ### Error conditions (60_exceptions R124 to R134) -/

/-- The fatal conditions of a machine step (R124), each with the extra value it records. -/
inductive FatalKind where
  /-- 00EE with an empty stack (R85, R130). -/
  | stackUnderflow
  /-- 2nnn with a full stack (R87, R130). -/
  | stackOverflow
  /-- An access to an address ≥ 4096 (R131); the address. -/
  | memoryOutOfRange (address : Nat)
  /-- A write below 0x200 (R132); the address. -/
  | reservedWrite (address : Nat)
  /-- Ex9E or ExA1 with Vx > 0xF (R133); Vx. -/
  | keyIndexOutOfRange (value : Byte)
  deriving DecidableEq, Repr

/-- The numeric codes of R124 (R125: the spec's own). -/
def FatalKind.code : FatalKind → Nat
  | .stackUnderflow => 2
  | .stackOverflow => 3
  | .memoryOutOfRange _ => 4
  | .reservedWrite _ => 5
  | .keyIndexOutOfRange _ => 6

/-- A fault record `(code, word, a, info)` (R126): the condition with its extra value, the
instruction word (absent for a fetch fault) and the address the instruction was fetched from. -/
structure FaultRecord where
  kind : FatalKind
  word : Option Word
  address : Word
  deriving DecidableEq, Repr

/-- `status` (R33). -/
inductive Status where
  | running
  | halted (f : FaultRecord)
  deriving DecidableEq, Repr

/-- A record of the event history (R143): a report of an UnknownOpcode with its word and its address
(R128), or a play-tone signal (R140). -/
inductive Emission where
  | report (word : Word) (address : Word)
  | beep
  deriving DecidableEq, Repr

/-- A move of the machine (R159): an instruction step, a timer tick, a key event; and the one
observation, the publication of the display (R139). -/
inductive Move where
  | instr
  | tick
  | keyDown (k : KeyId)
  | keyUp (k : KeyId)
  | publish
  deriving DecidableEq, Repr

/-- A key event of the input collaborator (60_exceptions R141). -/
inductive KeyEvent where
  | down (k : KeyId)
  | up (k : KeyId)
  deriving DecidableEq, Repr

/-! ### The state record (10_state R20) -/

/-- The display buffer: 32 rows, row 0 at the top, of 64 pixels, column 0 at the left (R31). -/
abbrev Display := Vector (Vector Bool 64) 32

/-- Memory as (address, byte) pairs, addresses strictly rising and no pair equal to what an unlisted
address reads as (`Memory.wf`; 20_memory R45; log 14). -/
abbrev Memory := List Host.Cell

/-- The state (R20). The last four fields are the model's own: an output, two inputs, and the counter
of the free values. -/
structure State where
  /-- V0..VF (R21); VF is also the flag (R22). -/
  v : Vector Byte 16
  /-- The program counter (R24). -/
  pc : Word
  /-- The index register `I` (R28). -/
  index : Word
  /-- The call stack `S`, oldest entry first (R27). -/
  stack : List Word
  /-- The delay timer `DT` (R29). -/
  delay : Byte
  /-- The sound timer `ST` (R30). -/
  sound : Byte
  /-- The display buffer `D` (R31). -/
  display : Display
  /-- The keypad `K` (R32). -/
  keys : Vector Bool 16
  /-- Memory `M` (R45). -/
  mem : Memory
  /-- Running or halted (R33). -/
  status : Status
  /-- The event history, oldest first (R143; an output: log 12). -/
  history : List Emission
  /-- The moves the outside world has decided on, soonest first; when there is none the machine takes
  an instruction step (R159; an input: log 1). -/
  schedule : List Move
  /-- Bytes the random source has supplied and no Cxnn has taken, soonest first (R142; an input:
  log 2). -/
  randomIn : List Byte
  /-- How many values have been drawn: the argument of the free values (log 2, log 3). -/
  draws : Nat
  deriving DecidableEq, Repr

/-- The result of `Load` (70_reset R155): accepted, or rejected with the length (R124, R134), the
prior state untouched. -/
inductive LoadResult where
  | ok (s : State)
  | romTooLarge (length : Nat)
  deriving DecidableEq, Repr

/-- Reasons a step stops with a fault. There is none: every fatal condition of the spec is a state the
machine enters (R129), and a halted machine stays as it is (R33; log 10), so no meaning and no step
raises a fault, safe or unsafe. -/
inductive Fault where
  deriving DecidableEq, Repr

/-- Reasons a step is refused. -/
inductive Refusal where
  /-- Raised only by `exec`'s arm for an instruction that has no meaning yet; safe, since nothing can
  be proved of a next state. No arm raises it: all 34 instructions have their meaning. -/
  | notModelled (mnemonic : String)
  deriving DecidableEq, Repr

/-- The outcome of an instruction. -/
abbrev Result := Host.Outcome State Fault Refusal

/-- The machine after reset, before any `Load` (R39; 70_reset R151, R152). Memory lists nothing: an
unlisted address reads as its reset contents, the font table at 0x050 and zero elsewhere. -/
def State.reset : State where
  v := Vector.replicate 16 0
  pc := 0x200
  index := 0
  stack := []
  delay := 0
  sound := 0
  display := Vector.replicate 32 (Vector.replicate 64 false)
  keys := Vector.replicate 16 false
  mem := []
  status := .running
  history := []
  schedule := []
  randomIn := []
  draws := 0

end Sys2Proof.Machine
end

