-- ==== Sys2Proof/Machine/Policy.lean ====
section
/-! DEFINITION. The values taken for the parameters of 00_scope R6: the spec's defaults, "the value a
claim is stated for". The operations take each as an argument, so every allowed value is modelled;
the meanings pass these. -/

namespace Sys2Proof.Machine

/-- `STACK_DEPTH` (R6, D1; log 4). -/
def Policy.stackDepth : Nat := 16

/-- `RESERVED_WRITE_POLICY` (R6, D5; log 5). -/
def Policy.reservedWrite : Config.ReservedWritePolicy := .fault

/-- `SHIFT_SOURCE` (R6, D7; log 6). -/
def Policy.shiftSource : Config.ShiftSource := .vx

/-- `LOADSTORE_INCREMENTS_I` (R6, D8; log 7). -/
def Policy.loadStoreIncrementsI : Bool := false

/-- `FX1E_VF_NO_OVERFLOW` (R6, D6; log 8). -/
def Policy.noOverflowFlag : Config.NoOverflowFlag := .clear

/-- `FONT_TABLE` (R6, D34; log 9): the 80 bytes of 20_memory R50, a glyph a line. -/
def fontTable : List Byte :=
  [0xF0, 0x90, 0x90, 0x90, 0xF0] ++ [0x20, 0x60, 0x20, 0x20, 0x70] ++
  [0xF0, 0x10, 0xF0, 0x80, 0xF0] ++ [0xF0, 0x10, 0xF0, 0x10, 0xF0] ++
  [0x90, 0x90, 0xF0, 0x10, 0x10] ++ [0xF0, 0x80, 0xF0, 0x10, 0xF0] ++
  [0xF0, 0x80, 0xF0, 0x90, 0xF0] ++ [0xF0, 0x10, 0x20, 0x40, 0x40] ++
  [0xF0, 0x90, 0xF0, 0x90, 0xF0] ++ [0xF0, 0x90, 0xF0, 0x10, 0xF0] ++
  [0xF0, 0x90, 0xF0, 0x90, 0x90] ++ [0xE0, 0x90, 0xE0, 0x90, 0xE0] ++
  [0xF0, 0x80, 0x80, 0x80, 0xF0] ++ [0xE0, 0x90, 0x90, 0x90, 0xE0] ++
  [0xF0, 0x80, 0xF0, 0x80, 0xF0] ++ [0xF0, 0x80, 0xF0, 0x80, 0x80]

/-- The reset contents of an address (20_memory R46; 70_reset R151): the font table at
[0x050, 0x0A0), zero elsewhere. This is what an unlisted address reads as. -/
def resetByte (a : Nat) : Byte :=
  if Config.fontBase ≤ a then fontTable.getD (a - Config.fontBase) 0 else 0

end Sys2Proof.Machine
end

