-- ==== Sys2Proof/Machine/Ops.lean ====
section
/-! DEFINITION. The named operations: updates of the state, memory (20_memory R53, R54), the call
stack (10_state R27), fetch (30_encoding R66), reports and the entry into a fatal fault (60_exceptions
R127 to R129). There is no return from a fatal fault: leaving the halted state is a new launch (R138),
`launch` of Machine/Agents.lean. -/

namespace Sys2Proof.Machine

/-! ### Updates of one field -/

/-- `pc <- t`; a `Word` holds the value mod 65536 (R10, R26). -/
def State.setPc (s : State) (t : Word) : State := { s with pc := t }

/-- `I <- v` (R10). -/
def State.setIndex (s : State) (t : Word) : State := { s with index := t }

/-- Replace the call stack. -/
def State.setStack (s : State) (t : List Word) : State := { s with stack := t }

/-- `DT <- v` (R10). -/
def State.setDelay (s : State) (b : Byte) : State := { s with delay := b }

/-- `ST <- v` (R10). -/
def State.setSound (s : State) (b : Byte) : State := { s with sound := b }

/-- Replace the display buffer. -/
def State.setDisplay (s : State) (d : Display) : State := { s with display := d }

/-- `K[k] <- b` (R141). -/
def State.setKey (s : State) (k : KeyId) (b : Bool) : State := { s with keys := s.keys.set k b }

/-- Replace memory. -/
def State.setMem (s : State) (m : Memory) : State := { s with mem := m }

/-- Replace all the V registers. -/
def State.setRegs (s : State) (v : Vector Byte 16) : State := { s with v := v }

/-- Append a record to the event history (R143). -/
def State.emit (s : State) (e : Emission) : State := { s with history := s.history ++ [e] }

/-- The schedule still to come. -/
def State.setSchedule (s : State) (l : List Move) : State := { s with schedule := l }

/-- One more value has been drawn; the bytes the random source has still supplied are `l`. -/
def State.countDraw (s : State) (l : List Byte) : State :=
  { s with randomIn := l, draws := s.draws + 1 }

/-! ### Memory -/

/-- `M[a]`: what the memory holds at an address; unlisted addresses read as their reset contents. -/
def Memory.read : Memory → Nat → Byte
  | [], a => resetByte a
  | (k, b) :: rest, a => if k = a then b else Memory.read rest a

/-- The pair an address needs for its byte: none where the byte is what an unlisted address reads as. -/
def Memory.cell (a : Nat) (b : Byte) : Memory := if b = resetByte a then [] else [(a, b)]

/-- `M[a] <- v`, keeping the canonical form. -/
def Memory.write : Memory → Nat → Byte → Memory
  | [], a, b => Memory.cell a b
  | (k, c) :: rest, a, b =>
    if a < k then Memory.cell a b ++ (k, c) :: rest
    else if k = a then Memory.cell a b ++ rest
    else (k, c) :: Memory.write rest a b

/-- Addresses strictly rise from `lo` on, stay inside the address space, and no pair is what an
unlisted address reads as. -/
def Memory.wfFrom (lo : Nat) : Memory → Bool
  | [] => true
  | (k, b) :: rest =>
    decide (lo ≤ k) && decide (k < Config.memSize) && decide (b ≠ resetByte k) &&
      Memory.wfFrom (k + 1) rest

/-- The canonical form of memory: equal memories are equal lists. -/
def Memory.wf (m : Memory) : Bool := Memory.wfFrom 0 m

/-- `MemRead(a, 1)` (R53). -/
def memRead (m : Memory) (a : Nat) : Except FatalKind Byte :=
  if Config.memSize ≤ a then .error (.memoryOutOfRange a) else .ok (m.read a)

/-- `MemWrite(a, 1, v)` (R54), the memory after it. -/
def memWrite (p : Config.ReservedWritePolicy) (m : Memory) (a : Nat) (b : Byte) :
    Except FatalKind Memory :=
  if Config.memSize ≤ a then .error (.memoryOutOfRange a)
  else if a < Config.reservedEnd ∧ p = .fault then .error (.reservedWrite a)
  else .ok (m.write a b)

/-- `MemRead` at a, a+1, ..., n of them, ascending. A condition at any of them is the condition of the
whole, since a rule that raises has read without effect (R11, R57). -/
def readBlock (m : Memory) (a : Nat) : Nat → Except FatalKind (List Byte)
  | 0 => .ok []
  | n + 1 =>
    match memRead m a with
    | .error k => .error k
    | .ok b =>
      match readBlock m (a + 1) n with
      | .error k => .error k
      | .ok bs => .ok (b :: bs)

/-- `MemWrite` of consecutive bytes from a on, ascending. A condition at any address is the answer in
place of the memory, so nothing is written then (R11, R54: "checks every address first, in ascending
order, and writes nothing if any check fails"). -/
def writeBlock (p : Config.ReservedWritePolicy) (m : Memory) (a : Nat) :
    List Byte → Except FatalKind Memory
  | [] => .ok m
  | b :: bs =>
    match memWrite p m a b with
    | .error k => .error k
    | .ok m' => writeBlock p m' (a + 1) bs

/-! ### Call stack -/

/-- `push(v)` (R27): the stack after it. -/
def push (depth : Nat) (t : Word) (st : List Word) : Except FatalKind (List Word) :=
  if depth ≤ st.length then .error .stackOverflow else .ok (st ++ [t])

/-- `pop()` (R27): the popped value and the stack after it. -/
def pop (st : List Word) : Except FatalKind (Word × List Word) :=
  match st.getLast? with
  | none => .error .stackUnderflow
  | some t => .ok (t, st.dropLast)

/-! ### Fetch -/

/-- The 16-bit word at [a, a+1], high byte first (R66); the address recorded for a fetch past the end
is max(a, 0x1000). -/
def fetch (m : Memory) (a : Nat) : Except FatalKind Word :=
  if Config.memSize ≤ a + 1 then .error (.memoryOutOfRange (max a Config.memSize))
  else .ok (wordOfBytes (m.read a) (m.read (a + 1)))

/-! ### Fatal faults and reports -/

/-- Entry into a fatal fault (R129): only `status` changes. -/
def State.halt (s : State) (k : FatalKind) (word : Option Word) (a : Word) : State :=
  { s with status := .halted { kind := k, word := word, address := a } }

/-- The address `a` the instruction in execution was fetched from: `pc` holds a + 2 (R24, R67). -/
def State.fetchAddress (s : State) : Word := s.pc - 2

/-- `raise E(info)` inside the rule of instruction `i` (R127, R129): `s` is the state before any write
of the rule, `pc` = a + 2. The record's word is the instruction's own encoding (log 11). -/
def raise (i : Instr) (k : FatalKind) (s : State) : Result :=
  .next (s.halt k (some (encode i)) s.fetchAddress)

/-- Go on with the value of an operation, or raise its condition in the state `s`. -/
def orRaise {α : Type} (i : Instr) (s : State) (r : Except FatalKind α) (f : α → Result) : Result :=
  match r with
  | .error k => raise i k s
  | .ok a => f a

/-- `report UnknownOpcode(word, a)` (R128), with `pc` = a + 2: the record, and nothing else. -/
def reportUnknown (w : Word) (s : State) : State := s.emit (.report w s.fetchAddress)

end Sys2Proof.Machine
end

