-- ==== Sys2Proof/Machine/Operands.lean ====
section
/-! DEFINITION. Operand forms: reading and writing V registers, the flag register, the shifted
operand, the block of registers, the bytes `I` points at, the next instruction's skip, the key a
register names, the random byte (10_state R23; 30_encoding R70). -/

namespace Sys2Proof.Machine

/-- The number of VF, the flag register (R22). -/
def vF : RegId := 15

/-- `V[i]` (R10). -/
def State.reg (s : State) (i : RegId) : Byte := s.v[i]

/-- `V[i] <- b` (R10). -/
def State.setReg (s : State) (i : RegId) (b : Byte) : State := { s with v := s.v.set i b }

/-- `V[F] <- f`, the flag write, which comes last (R12, R106). -/
def State.setFlag (s : State) (f : Bool) : State := s.setReg vF (flagByte f)

/-- The operand that 8xy6 and 8xyE shift (R101, R103, D7). -/
def shiftOperand (src : Config.ShiftSource) (x y : RegId) (s : State) : Byte :=
  match src with
  | .vx => s.reg x
  | .vy => s.reg y

/-- The registers V0..Vx, in order (R112). -/
def State.regsUpTo (s : State) (x : RegId) : List Byte := s.v.toList.take (x.val + 1)

/-- `for i in 0 .. : V[i] <- bytes[i]` (R113): the registers past the last byte keep their value. -/
def State.loadRegsFrom (s : State) (bytes : List Byte) : State :=
  s.setRegs (Vector.ofFn fun i => bytes.getD i.val s.v[i])

/-- The address `I + k`, computed exactly (R109, R111 to R115; log 18). -/
def State.indexAddr (s : State) (k : Nat) : Nat := s.index.toNat + k

/-- A skip: `pc <- pc + 2` on the already advanced `pc`, if the condition holds (R84). -/
def skipIf (c : Bool) (s : State) : State := if c then s.setPc (s.pc + 2) else s

/-- The key a register names; a value above 0xF raises (R118, R119, D11). -/
def keyOperand (b : Byte) : Except FatalKind KeyId :=
  if h : b.toNat < 16 then .ok ⟨b.toNat, h⟩ else .error (.keyIndexOutOfRange b)

/-- `K[k]` (R10). -/
def State.key (s : State) (k : KeyId) : Bool := s.keys[k]

/-- The 16 keys. -/
def allKeys : List KeyId := [0, 1, 2, 3, 4, 5, 6, 7, 8, 9, 10, 11, 12, 13, 14, 15]

/-- `P <- { k in 0..15 | K[k] }` (R121). -/
def State.pressedKeys (s : State) : List KeyId := allKeys.filter s.key

/-- One of the keys `k :: ks`, the choice being free (R121, D12). -/
def chooseKey (choice : Nat) (k : KeyId) : List KeyId → KeyId
  | [] => k
  | k' :: ks => (k :: k' :: ks).getD (choice % (ks.length + 2)) k

/-- `draw_rand()` (R142): the byte the random source has supplied, a free value where it has supplied
none (log 2). -/
def State.randomByte (s : State) : Byte := s.randomIn.headD (Config.randomByte s.draws)

end Sys2Proof.Machine
end

