-- ==== Sys2Proof/Machine/Agents.lean ====
section
/-! DEFINITION. What the other agents do (60_exceptions R135, R139, R141; 70_reset R155 to R159): the
timer tick, key events, the published frame, `Load` and the launch, and the reference schedule. -/

namespace Sys2Proof.Machine

/-- The delay half of the tick (R135): decremented when nonzero, never below zero. -/
def State.tickDelay (s : State) : State := if s.delay = 0 then s else s.setDelay (s.delay - 1)

/-- The sound half of the tick (R135; C3): a nonzero ST emits one Beep and is cleared. -/
def State.tickSound (s : State) : State := if s.sound = 0 then s else (s.emit .beep).setSound 0

/-- A timer tick (R135). -/
def tick (s : State) : State := s.tickDelay.tickSound

/-- `key_down(k)` (R141). -/
def keyDown (k : KeyId) (s : State) : State := s.setKey k true

/-- `key_up(k)` (R141). -/
def keyUp (k : KeyId) (s : State) : State := s.setKey k false

/-- The frame the renderer sees, the whole of `D` between two steps (R139). -/
def State.frame (s : State) : Display := s.display

/-- Bytes stored from an address on, whatever they overwrite. The last byte is stored first; the
addresses differ, so the order does not matter. -/
def storeBytes (m : Memory) (a : Nat) : List Byte → Memory
  | [] => m
  | b :: bs => (storeBytes m (a + 1) bs).write a b

/-- `Load(bytes)` (R155; C2). -/
def load (bytes : List Byte) (s : State) : LoadResult :=
  if Config.romMax < bytes.length then .romTooLarge bytes.length
  else .ok (s.setMem (storeBytes s.mem Config.progBase bytes))

/-- A launch: reset, then one `Load` (R156). -/
def launch (bytes : List Byte) : LoadResult := load bytes State.reset

/-- A key event as a move of the machine (R159). -/
def KeyEvent.move : KeyEvent → Move
  | .down k => .keyDown k
  | .up k => .keyUp k

/-- The first iterations of `SCHEDULE` = `reference` (R159), an element of the list each: the key events
between the iteration before (or the launch) and this one, any number of them in any order, then one
instruction step, one tick and one publication. Log 24. -/
def referenceSchedule : List (List KeyEvent) → List Move
  | [] => []
  | events :: rest =>
    events.map KeyEvent.move ++ .instr :: .tick :: .publish :: referenceSchedule rest

end Sys2Proof.Machine
end

