-- ==== Sys2Proof/Machine/Alu.lean ====
section
/-! DEFINITION. Register loads, arithmetic and logic (41_alu). The flag is computed from the operands
read at the start, and written to VF after the result (R12, R106). `pc` stays a + 2. -/

namespace Sys2Proof.Machine

/-- LD Vx, nn (R93). -/
def execLdImm (x : RegId) (nn : Byte) (s : State) : Result := .next (s.setReg x nn)

/-- ADD Vx, nn (R94): no flag. -/
def execAddImm (x : RegId) (nn : Byte) (s : State) : Result :=
  .next (s.setReg x (addResult (s.reg x) nn))

/-- LD Vx, Vy (R95). -/
def execLdReg (x y : RegId) (s : State) : Result := .next (s.setReg x (s.reg y))

/-- OR Vx, Vy (R96): no flag. -/
def execOrReg (x y : RegId) (s : State) : Result := .next (s.setReg x (s.reg x ||| s.reg y))

/-- AND Vx, Vy (R97): no flag. -/
def execAndReg (x y : RegId) (s : State) : Result := .next (s.setReg x (s.reg x &&& s.reg y))

/-- XOR Vx, Vy (R98): no flag. -/
def execXorReg (x y : RegId) (s : State) : Result := .next (s.setReg x (s.reg x ^^^ s.reg y))

/-- ADD Vx, Vy (R99): VF is the carry. -/
def execAddReg (x y : RegId) (s : State) : Result :=
  .next ((s.setReg x (addResult (s.reg x) (s.reg y))).setFlag (addCarry (s.reg x) (s.reg y)))

/-- SUB Vx, Vy (R100): VF is 1 when no borrow occurred. -/
def execSubReg (x y : RegId) (s : State) : Result :=
  .next ((s.setReg x (subResult (s.reg x) (s.reg y))).setFlag (subNoBorrow (s.reg x) (s.reg y)))

/-- SHR (R101) of the operand that `SHIFT_SOURCE` names: VF is the bit shifted out. -/
def shrWith (src : Config.ShiftSource) (x y : RegId) (s : State) : Result :=
  .next ((s.setReg x (shrResult (shiftOperand src x y s))).setFlag (shrFlag (shiftOperand src x y s)))

/-- SHR Vx, with Vy encoded (R101). -/
def execShr (x y : RegId) (s : State) : Result := shrWith Policy.shiftSource x y s

/-- SUBN Vx, Vy (R102): Vy is the minuend. -/
def execSubnReg (x y : RegId) (s : State) : Result :=
  .next ((s.setReg x (subResult (s.reg y) (s.reg x))).setFlag (subNoBorrow (s.reg y) (s.reg x)))

/-- SHL (R103) of the operand that `SHIFT_SOURCE` names: VF is the bit shifted out. -/
def shlWith (src : Config.ShiftSource) (x y : RegId) (s : State) : Result :=
  .next ((s.setReg x (shlResult (shiftOperand src x y s))).setFlag (shlFlag (shiftOperand src x y s)))

/-- SHL Vx, with Vy encoded (R103). -/
def execShl (x y : RegId) (s : State) : Result := shlWith Policy.shiftSource x y s

/-- RND Vx, nn (R104): `V[x] <- draw_rand() & nn`. -/
def execRnd (x : RegId) (nn : Byte) (s : State) : Result :=
  .next ((s.setReg x (s.randomByte &&& nn)).countDraw s.randomIn.tail)

end Sys2Proof.Machine
end

