-- ==== Sys2Proof/Machine/ControlFlow.lean ====
section
/-! DEFINITION. Control flow (40_control_flow): RET, JP, CALL, the register skips, JP V0. Every
meaning runs with `pc` = a + 2 (30_encoding R67). -/

namespace Sys2Proof.Machine

/-- RET (R85): `pc <- pop()`. -/
def execRet (s : State) : Result :=
  orRaise .ret s (pop s.stack) fun (t, st) => .next ((s.setStack st).setPc t)

/-- JP nnn (R86): `pc <- zext_16(nnn)`. -/
def execJp (nnn : Addr12) (s : State) : Result := .next (s.setPc (nnn.setWidth 16))

/-- CALL nnn (R87) under a stack depth: `push(pc)`, then `pc <- zext_16(nnn)`. -/
def callWith (depth : Nat) (nnn : Addr12) (s : State) : Result :=
  orRaise (.call nnn) s (push depth s.pc s.stack) fun st =>
    .next ((s.setStack st).setPc (nnn.setWidth 16))

/-- CALL nnn (R87). -/
def execCall (nnn : Addr12) (s : State) : Result := callWith Policy.stackDepth nnn s

/-- SE Vx, nn (R88). -/
def execSeImm (x : RegId) (nn : Byte) (s : State) : Result := .next (skipIf (s.reg x == nn) s)

/-- SNE Vx, nn (R89). -/
def execSneImm (x : RegId) (nn : Byte) (s : State) : Result := .next (skipIf (s.reg x != nn) s)

/-- SE Vx, Vy (R90). -/
def execSeReg (x y : RegId) (s : State) : Result := .next (skipIf (s.reg x == s.reg y) s)

/-- SNE Vx, Vy (R91). -/
def execSneReg (x y : RegId) (s : State) : Result := .next (skipIf (s.reg x != s.reg y) s)

/-- JP V0, nnn (R92): `pc <- zext_16(nnn) + zext_16(V[0])`, a 16-bit sum, not masked to 12 bits. -/
def execJpV0 (nnn : Addr12) (s : State) : Result :=
  .next (s.setPc (nnn.setWidth 16 + (s.reg 0).setWidth 16))

end Sys2Proof.Machine
end

