-- ==== Sys2Proof/Machine/Drawing.lean ====
section
/-! DEFINITION. The display buffer (43_display): CLS and DRW. `pc` stays a + 2. -/

namespace Sys2Proof.Machine

/-- `D[r][c]` (R31). -/
def Display.pixel (d : Display) (r : Fin 32) (c : Fin 64) : Bool := d[r][c]

/-- `D[r][c] <- not D[r][c]` (R115). -/
def Display.flip (d : Display) (r : Fin 32) (c : Fin 64) : Display :=
  d.set r (d[r].set c (!d[r][c]))

/-- A display with every pixel off (R114). -/
def Display.blank : Display := Vector.replicate 32 (Vector.replicate 64 false)

/-- CLS (R114): VF is not written. -/
def execCls (s : State) : Result := .next (s.setDisplay Display.blank)

/-- The bit of a sprite byte for its column c: bit 7 is the leftmost (R7, R115). -/
def spriteBit (b : Byte) (c : Nat) : Bool := b.getLsbD (7 - c)

/-- One column of one sprite row on the display row `r` (R115): clipped past column 63; a 1 bit flips
the pixel, and turns the collision flag on when the pixel was on. -/
def drawColumn (r : Fin 32) (x0 : Nat) (b : Byte) (acc : Display × Bool) (c : Nat) :
    Display × Bool :=
  if h : x0 + c < 64 then
    if spriteBit b c then (acc.1.flip r ⟨x0 + c, h⟩, acc.2 || acc.1.pixel r ⟨x0 + c, h⟩) else acc
  else acc

/-- One sprite row at display row y (R115): clipped past row 31; columns 0 to 7 in order. -/
def drawRow (x0 y : Nat) (b : Byte) (acc : Display × Bool) : Display × Bool :=
  if h : y < 32 then [0, 1, 2, 3, 4, 5, 6, 7].foldl (drawColumn ⟨y, h⟩ x0 b) acc else acc

/-- The sprite rows from display row y down, in order (R115). -/
def drawRows (x0 : Nat) : Nat → List Byte → Display × Bool → Display × Bool
  | _, [], acc => acc
  | y, b :: bs, acc => drawRows x0 (y + 1) bs (drawRow x0 y b acc)

/-- The origin column, which wraps (R115). -/
def originColumn (b : Byte) : Nat := b.toNat % 64

/-- The origin row, which wraps (R115). -/
def originRow (b : Byte) : Nat := b.toNat % 32

/-- DRW Vx, Vy, n (R115): the origin and all n sprite bytes are read first (D22, D23); the collision
flag starts at 0 and is written to VF. -/
def execDrw (x y : RegId) (rows : Nat) (s : State) : Result :=
  orRaise (.drw x y rows) s (readBlock s.mem (s.indexAddr 0) rows) fun sprite =>
    let drawn := drawRows (originColumn (s.reg x)) (originRow (s.reg y)) sprite (s.display, false)
    .next ((s.setDisplay drawn.1).setFlag drawn.2)

end Sys2Proof.Machine
end

