-- ==== Sys2Proof/Machine/IndexMemory.lean ====
section
/-! DEFINITION. The index register and the memory blocks (42_index_memory). `pc` stays a + 2. -/

namespace Sys2Proof.Machine

/-- LD I, nnn (R108). -/
def execLdI (nnn : Addr12) (s : State) : Result := .next (s.setIndex (nnn.setWidth 16))

/-- The flag write of Fx1E (R109): 1 on overflow; else as `FX1E_VF_NO_OVERFLOW` says. -/
def State.setIndexFlag (s : State) (p : Config.NoOverflowFlag) (overflow : Bool) : State :=
  match overflow, p with
  | true, _ => s.setFlag true
  | false, .clear => s.setFlag false
  | false, .keep => s

/-- ADD I, Vx (R109) under a policy for VF. -/
def addIWith (p : Config.NoOverflowFlag) (x : RegId) (s : State) : Result :=
  .next ((s.setIndex (indexResult s.index (s.reg x))).setIndexFlag p
    (indexOverflow s.index (s.reg x)))

/-- ADD I, Vx (R109). -/
def execAddI (x : RegId) (s : State) : Result := addIWith Policy.noOverflowFlag x s

/-- The address of the glyph of a hex digit, the low nibble of a register (R110; 20_memory R48). -/
def glyphAddress (b : Byte) : Word :=
  BitVec.ofNat 16 (Config.fontBase + Config.glyphBytes * (b.toNat % 16))

/-- LD F, Vx (R110). -/
def execLdF (x : RegId) (s : State) : Result := .next (s.setIndex (glyphAddress (s.reg x)))

/-- The three decimal digits, hundreds first (R111). -/
def bcdDigits (b : Byte) : List Byte :=
  [BitVec.ofNat 8 (b.toNat / 100), BitVec.ofNat 8 (b.toNat / 10 % 10),
   BitVec.ofNat 8 (b.toNat % 10)]

/-- LD B, Vx (R111) under a reserved-write policy. -/
def ldBWith (p : Config.ReservedWritePolicy) (x : RegId) (s : State) : Result :=
  orRaise (.ldB x) s (writeBlock p s.mem (s.indexAddr 0) (bcdDigits (s.reg x))) fun m =>
    .next (s.setMem m)

/-- LD B, Vx (R111). -/
def execLdB (x : RegId) (s : State) : Result := ldBWith Policy.reservedWrite x s

/-- `if LOADSTORE_INCREMENTS_I then I <- I + x + 1` (R112, R113, D8). -/
def State.advanceIndex (s : State) (inc : Bool) (x : RegId) : State :=
  if inc then s.setIndex (s.index + BitVec.ofNat 16 (x.val + 1)) else s

/-- LD [I], Vx (R112) under a reserved-write policy and an increment policy. -/
def storeRegsWith (p : Config.ReservedWritePolicy) (inc : Bool) (x : RegId) (s : State) : Result :=
  orRaise (.storeRegs x) s (writeBlock p s.mem (s.indexAddr 0) (s.regsUpTo x)) fun m =>
    .next ((s.setMem m).advanceIndex inc x)

/-- LD [I], Vx (R112). -/
def execStoreRegs (x : RegId) (s : State) : Result :=
  storeRegsWith Policy.reservedWrite Policy.loadStoreIncrementsI x s

/-- LD Vx, [I] (R113) under an increment policy. -/
def loadRegsWith (inc : Bool) (x : RegId) (s : State) : Result :=
  orRaise (.loadRegs x) s (readBlock s.mem (s.indexAddr 0) (x.val + 1)) fun bs =>
    .next ((s.loadRegsFrom bs).advanceIndex inc x)

/-- LD Vx, [I] (R113). -/
def execLoadRegs (x : RegId) (s : State) : Result := loadRegsWith Policy.loadStoreIncrementsI x s

end Sys2Proof.Machine
end

