-- ==== Sys2Proof/Machine/KeypadTimers.lean ====
section
/-! DEFINITION. Keypad and timer instructions (44_timers_keypad). `pc` is a + 2 on entry. -/

namespace Sys2Proof.Machine

/-- SKP Vx (R118). -/
def execSkp (x : RegId) (s : State) : Result :=
  orRaise (.skp x) s (keyOperand (s.reg x)) fun k => .next (skipIf (s.key k) s)

/-- SKNP Vx (R119). -/
def execSknp (x : RegId) (s : State) : Result :=
  orRaise (.sknp x) s (keyOperand (s.reg x)) fun k => .next (skipIf (!s.key k) s)

/-- LD Vx, DT (R120). -/
def execLdVxDt (x : RegId) (s : State) : Result := .next (s.setReg x s.delay)

/-- LD Vx, K (R121): with no key down, `pc` goes back to a and the instruction re-executes; else the
index of a pressed key, a free choice when there are several (log 3). -/
def execLdVxK (x : RegId) (s : State) : Result :=
  match s.pressedKeys with
  | [] => .next (s.setPc (s.pc - 2))
  | k :: ks =>
    .next ((s.setReg x (BitVec.ofNat 8 (chooseKey (Config.keyChoice s.draws) k ks).val)).countDraw
      s.randomIn)

/-- LD DT, Vx (R122). -/
def execLdDtVx (x : RegId) (s : State) : Result := .next (s.setDelay (s.reg x))

/-- LD ST, Vx (R123). -/
def execLdStVx (x : RegId) (s : State) : Result := .next (s.setSound (s.reg x))

end Sys2Proof.Machine
end

