-- ==== Sys2Proof/Machine/Cycle.lean ====
section
/-! DEFINITION. The fetch-advance-decode-execute cycle (30_encoding R65 to R67) and the moves of the
machine (70_reset R159). -/

namespace Sys2Proof.Machine

/-- The part of an engine step after the fetch of `w` (R65): `pc` advances by 2 before decode (R67);
an UnknownOpcode is reported and is a no-op (R80, R128). -/
def runWord (w : Word) (s : State) : Result :=
  match decode w with
  | .instr i => exec i (s.setPc (s.pc + 2))
  | .unknown u => .next (reportUnknown u (s.setPc (s.pc + 2)))

/-- One engine step of a running machine (R65). A fetch that raises leaves `pc` and halts (R66, R129);
its record has no word (R124). -/
def instrStep (s : State) : Result :=
  match fetch s.mem s.pc.toNat with
  | .error k => .next (s.halt k none s.pc)
  | .ok w => runWord w s

/-- One move of a running machine (R159). A publication changes nothing (R139, R168). -/
def perform (m : Move) (s : State) : Result :=
  match m with
  | .instr => instrStep s
  | .tick => .next (tick s)
  | .keyDown k => .next (keyDown k s)
  | .keyUp k => .next (keyUp k s)
  | .publish => .next s

/-- The move a running machine makes next: the schedule's first, or an instruction step (log 1). -/
def nextMove (s : State) : Move := s.schedule.headD .instr

/-- The state with that move taken off the schedule. -/
def State.takeMove (s : State) : State := s.setSchedule s.schedule.tail

/-- A word of `nbits` bits placed where the next instruction step fetches, and that step made the next
move (log 13): the machine running, `pc` where two bytes exist. -/
def placeWord (s : State) (nbits w : Nat) : State :=
  let word : Word := BitVec.ofNat 16 (w % 2 ^ nbits)
  let at' : Word := if s.pc.toNat + 1 < Config.memSize then s.pc else BitVec.ofNat 16 Config.progBase
  { s with
    pc := at'
    status := .running
    schedule := .instr :: s.schedule
    mem := (s.mem.write at'.toNat (highByte word)).write (at'.toNat + 1) (lowByte word) }

end Sys2Proof.Machine
end

