-- ==== Sys2Proof/Machine/Step.lean ====
section
/-! DEFINITION. One step of the machine: the next move of a running machine (70_reset R159); a halted
machine stays as it is (10_state R33; 95_test_vectors V12; log 10). -/

namespace Sys2Proof.Machine

def step (s : State) : Host.Outcome State Fault Refusal :=
  match s.status with
  | .halted _ => .next s
  | .running => perform (nextMove s) s.takeMove

/-- `s` with an instruction stored where the very next step fetches and runs it. -/
def State.withFetchWord (s : State) (nbits w : Nat) : State := placeWord s nbits w

end Sys2Proof.Machine
end

