-- ==== Sys2Proof/Safety.lean ====
section
/-! DEFINITION. The terms claims are stated in: what a step leaves unchanged, the invariant of
reachable states, parked and halted states, and runs along a schedule. -/

namespace Sys2Proof.Machine

/-! ### Frames -/

/-- The parts of the state record (10_state R20), with the model's own fields. -/
inductive Part where
  | v
  | pc
  | index
  | stack
  | delay
  | sound
  | display
  | keys
  | memory
  | status
  | history
  | schedule
  | random
  deriving DecidableEq, Repr

/-- A part holds in `t` what it holds in `s`; memory is compared byte by byte, through its read. -/
def Part.Same (s t : State) : Part → Prop
  | .v => ∀ i, t.reg i = s.reg i
  | .pc => t.pc = s.pc
  | .index => t.index = s.index
  | .stack => t.stack = s.stack
  | .delay => t.delay = s.delay
  | .sound => t.sound = s.sound
  | .display => t.display = s.display
  | .keys => t.keys = s.keys
  | .memory => ∀ a, t.mem.read a = s.mem.read a
  | .status => t.status = s.status
  | .history => t.history = s.history
  | .schedule => t.schedule = s.schedule
  | .random => t.randomIn = s.randomIn ∧ t.draws = s.draws

/-- Every part outside `changed` is the same in `t` as in `s`. -/
def Frame (changed : List Part) (s t : State) : Prop := ∀ p, p ∉ changed → p.Same s t

/-- Every register outside `written` is the same in `t` as in `s`. -/
def RegsExcept (written : List RegId) (s t : State) : Prop :=
  ∀ i, i ∉ written → t.reg i = s.reg i

/-- Every byte outside the n bytes from `a` on reads the same in `t` as in `s`. -/
def BytesExcept (a n : Nat) (s t : State) : Prop :=
  ∀ b, ¬ (a ≤ b ∧ b < a + n) → t.mem.read b = s.mem.read b

/-- `t` is the state `s` halted by the condition `k` of the instruction `i`, fetched from
`pc` − 2: nothing but `status` differs (60_exceptions R126, R129). -/
def HaltedBy (i : Instr) (k : FatalKind) (s t : State) : Prop :=
  t.status = .halted { kind := k, word := some (encode i), address := s.pc - 2 } ∧
    Frame [.status] s t

/-! ### Tables of 10_state: registers read, registers written, flags written, the program counter afterward -/

/-- The registers an instruction reads, `SHIFT_SOURCE` being `Vx` (10_state R23, column "reads"). -/
def regsRead : Instr → List RegId
  | .seImm x _ | .sneImm x _ | .addImm x _ | .shr x _ | .shl x _ | .skp x | .sknp x | .ldDtVx x
  | .ldStVx x | .addI x | .ldF x | .ldB x => [x]
  | .seReg x y | .sneReg x y | .orReg x y | .andReg x y | .xorReg x y | .addReg x y | .subReg x y
  | .subnReg x y | .drw x y _ => [x, y]
  | .ldReg _ y => [y]
  | .jpV0 _ => [0]
  | .storeRegs x => (List.finRange 16).filter fun i => i ≤ x
  | .cls | .ret | .jp _ | .call _ | .ldImm _ _ | .ldI _ | .rnd _ _ | .ldVxDt _ | .ldVxK _
  | .loadRegs _ => []

/-- The registers an instruction may write (10_state R23, column "writes"). -/
def regsWritten : Instr → List RegId
  | .ldImm x _ | .addImm x _ | .ldReg x _ | .orReg x _ | .andReg x _ | .xorReg x _ | .rnd x _
  | .ldVxDt x | .ldVxK x => [x]
  | .addReg x _ | .subReg x _ | .subnReg x _ | .shr x _ | .shl x _ => [x, vF]
  | .drw _ _ _ | .addI _ => [vF]
  | .loadRegs x => (List.finRange 16).filter fun i => i ≤ x
  | .cls | .ret | .jp _ | .call _ | .seImm _ _ | .sneImm _ _ | .seReg _ _ | .sneReg _ _ | .ldI _
  | .jpV0 _ | .skp _ | .sknp _ | .ldDtVx _ | .ldStVx _ | .ldF _ | .ldB _ | .storeRegs _ => []

/-- The instructions that write VF as a flag (10_state R22). -/
def writesFlag : Instr → Bool
  | .addReg _ _ | .subReg _ _ | .shr _ _ | .subnReg _ _ | .shl _ _ | .addI _ | .drw _ _ _ => true
  | .cls | .ret | .jp _ | .call _ | .seImm _ _ | .sneImm _ _ | .seReg _ _ | .sneReg _ _
  | .ldImm _ _ | .addImm _ _ | .ldReg _ _ | .orReg _ _ | .andReg _ _ | .xorReg _ _ | .ldI _
  | .jpV0 _ | .rnd _ _ | .skp _ | .sknp _ | .ldVxDt _ | .ldVxK _ | .ldDtVx _ | .ldStVx _ | .ldF _
  | .ldB _ | .storeRegs _ | .loadRegs _ => false

/-- The key a byte names is down; no byte above 0xF names a key (44_timers_keypad R118). -/
def KeyDownAt (s : State) (b : Byte) : Prop := ∃ k : KeyId, k.val = b.toNat ∧ s.key k = true

/-- The key a byte names is up. -/
def KeyUpAt (s : State) (b : Byte) : Prop := ∃ k : KeyId, k.val = b.toNat ∧ s.key k = false

/-- `t` is the program counter after an instruction executed in `s`, `s.pc` = a + 2 (10_state R25). -/
def PcAfter (i : Instr) (s : State) (t : Word) : Prop :=
  let next := s.pc
  let skipWhen (c : Prop) : Prop := (c ∧ t = s.pc + 2) ∨ (¬ c ∧ t = next)
  match i with
  | .seImm x nn => skipWhen (s.reg x = nn)
  | .sneImm x nn => skipWhen (s.reg x ≠ nn)
  | .seReg x y => skipWhen (s.reg x = s.reg y)
  | .sneReg x y => skipWhen (s.reg x ≠ s.reg y)
  | .skp x => skipWhen (KeyDownAt s (s.reg x))
  | .sknp x => skipWhen (KeyUpAt s (s.reg x))
  | .jp nnn => t.toNat = nnn.toNat
  | .call nnn => (s.stack.length < 16 ∧ t.toNat = nnn.toNat) ∨ (16 ≤ s.stack.length ∧ t = next)
  | .ret => (∃ rest, s.stack = rest ++ [t]) ∨ (s.stack = [] ∧ t = next)
  | .jpV0 nnn => t.toNat = nnn.toNat + (s.reg 0).toNat
  | .ldVxK _ => ((∀ k, s.key k = false) ∧ t = s.pc - 2) ∨ ((∃ k, s.key k = true) ∧ t = next)
  | .cls | .ldImm _ _ | .addImm _ _ | .ldReg _ _ | .orReg _ _ | .andReg _ _ | .xorReg _ _
  | .addReg _ _ | .subReg _ _ | .shr _ _ | .subnReg _ _ | .shl _ _ | .ldI _ | .rnd _ _
  | .drw _ _ _ | .ldVxDt _ | .ldDtVx _ | .ldStVx _ | .addI _ | .ldF _ | .ldB _ | .storeRegs _
  | .loadRegs _ => t = next

/-- A 1 bit of the n sprite bytes from address a on, drawn with its origin at column x0 and row y0,
falls on the pixel (r, c) (43_display R115): row k of the sprite is M[a + k], bit 7 leftmost. -/
def SpriteCovers (m : Memory) (a n x0 y0 : Nat) (r : Fin 32) (c : Fin 64) : Prop :=
  ∃ k j, k < n ∧ j < 8 ∧ y0 + k = r.val ∧ x0 + j = c.val ∧
    (m.read (a + k)).getLsbD (7 - j) = true

/-! ### Conditions and the invariant -/

/-- The machine runs and its next move is an instruction step (R65, R159). -/
def State.AboutToStep (s : State) : Prop := s.status = .running ∧ nextMove s = .instr

/-- What holds in every reachable state under the default parameters: memory in canonical form (log
14), `I` ≤ 0xFFF (10_state R28), at most 16 stack entries (R27), each at most 0x1000 (40_control_flow
R85), and `pc` ≤ 0x10FE (10_state R26). -/
structure State.Inv (s : State) : Prop where
  memory : s.mem.wf = true
  index : s.index.toNat ≤ 0xFFF
  depth : s.stack.length ≤ 16
  entries : ∀ t ∈ s.stack, t.toNat ≤ 0x1000
  pc : s.pc.toNat ≤ 0x10FE

/-- Parked (70_reset R161): `pc` = a and the word at a is 1nnn with nnn = a. -/
def State.Parked (s : State) : Prop :=
  s.status = .running ∧ ∃ nnn : Addr12, nnn.setWidth 16 = s.pc ∧
    fetch s.mem s.pc.toNat = .ok (encode (.jp nnn))

/-! ### Runs along a schedule (70_reset R159 to R161) -/

/-- The state after an outcome; a step of this machine always answers a next state. -/
def resultState (s : State) : Result → State
  | .next t => t
  | .fault _ => s
  | .refused _ => s

/-- One move, which a halted machine does not take (10_state R33). -/
def act (s : State) (m : Move) : State :=
  match s.status with
  | .halted _ => s
  | .running => resultState s (perform m s)

/-- The moves of a list, in order. -/
def runMoves (s : State) (l : List Move) : State := l.foldl act s

/-- The first n moves of an infinite schedule. -/
def firstMoves (sched : Nat → Move) (n : Nat) : List Move := (List.range n).map sched

/-- Weak fairness of the tick (R160): ticks keep coming. -/
def FairTicks (sched : Nat → Move) : Prop := ∀ n, ∃ m, n ≤ m ∧ sched m = .tick

/-- An infinite schedule of `SCHEDULE` = `reference` (R159): some finite list of key events comes before
each iteration, and every number of iterations is a beginning of the schedule. -/
def ReferenceSchedule (sched : Nat → Move) : Prop :=
  ∃ events : Nat → List KeyEvent, ∀ n,
    firstMoves sched (referenceSchedule ((List.range n).map events)).length =
      referenceSchedule ((List.range n).map events)

/-- A safe run: no fatal fault at any point (R161 "with no fault recorded"). -/
def SafeRun (sched : Nat → Move) (s : State) : Prop :=
  ∀ n, (runMoves s (firstMoves sched n)).status = .running

end Sys2Proof.Machine
end

