-- ==== Sys2Proof/Certificates/Slice0/Obligations.lean ====
section
/-! DEFINITION. The statements for the provers, in the order of the spec's rules. Every statement about
`exec` is about a state whose `pc` is a + 2, the address after the instruction (30_encoding R67). -/

open Sys2Proof Sys2Proof.Machine

/-! ### Reset, fetch and decode -/

/-- 10_state R39, 70_reset R151, R152: the value of every piece of the spec's state after reset. The
empty stack, the keys up and the status Running at reset are the spec's decisions (D19, D20), the
font bytes too (D34; log 9). -/
def Obligations.ResetLeavesTheStatedValues : Prop :=
  (∀ i, State.reset.reg i = 0) ∧ State.reset.pc = 0x200 ∧ State.reset.index = 0 ∧
    State.reset.stack = [] ∧ State.reset.delay = 0 ∧ State.reset.sound = 0 ∧
    (∀ r c, State.reset.display.pixel r c = false) ∧ (∀ k, State.reset.key k = false) ∧
    State.reset.status = .running ∧
    (∀ a, a < 4096 → ¬ (0x050 ≤ a ∧ a < 0x0A0) → State.reset.mem.read a = 0) ∧
    ∀ j, j < 80 → State.reset.mem.read (0x050 + j) = fontTable.getD j 0

/-- The reset state meets the invariant of `StepKeepsTheInvariant`. -/
def Obligations.ResetMeetsTheInvariant : Prop := State.reset.Inv

/-- 30_encoding R67 and R65: the step of a running machine whose next move is an instruction step
executes the decoded instruction with `pc` advanced by 2. What the model adds is that the move is taken
off the schedule (log 1). -/
def Obligations.StepExecutesTheDecodedInstruction : Prop :=
  ∀ (s : State) (i : Instr), s.AboutToStep → s.pc.toNat + 1 < 4096 →
    decode (wordOfBytes (s.mem.read s.pc.toNat) (s.mem.read (s.pc.toNat + 1))) = .instr i →
    step s = exec i (s.takeMove.setPc (s.pc + 2)) ∧ s.takeMove.schedule = s.schedule.tail ∧
      Frame [.schedule] s s.takeMove

/-- 30_encoding R66: the word is big-endian; a fetch at 0xFFF or above leaves `pc`, halts the
machine and records max(a, 0x1000) and no word. The address recorded is the spec's decision (D4). -/
def Obligations.FetchReadsTwoBytesOrHalts : Prop :=
  (∀ (m : Memory) (a : Nat), a + 1 < 4096 →
      ∃ w, fetch m a = .ok w ∧ w.toNat = (m.read a).toNat * 256 + (m.read (a + 1)).toNat) ∧
    ∀ s : State, 4096 ≤ s.pc.toNat + 1 →
      ∃ t, instrStep s = .next t ∧
        t.status = .halted { kind := .memoryOutOfRange (max s.pc.toNat 0x1000), word := none,
                             address := s.pc } ∧
        Frame [.status] s t

/-- 60_exceptions R128: an UnknownOpcode appends its report, changes no state but the `pc` that the fetch
has advanced, and the machine goes on. -/
def Obligations.UnknownOpcodeIsReportedAndSkipped : Prop :=
  ∀ (s : State) (w : Word), s.status = .running → fetch s.mem s.pc.toNat = .ok w →
    decode w = .unknown w →
    ∃ t, instrStep s = .next t ∧ t.pc = s.pc + 2 ∧ t.history = s.history ++ [.report w s.pc] ∧
      t.status = .running ∧ Frame [.pc, .history] s t

/-- Words written out from the patterns of 30_encoding R79, one a family. -/
def Obligations.WrittenOutWordsDecode : Prop :=
  decode 0b0000000011100000#16 = .instr .cls ∧
  decode 0b0010001000010000#16 = .instr (.call 0x210#12) ∧
  decode 0b1000111100010100#16 = .instr (.addReg 15 1) ∧
  decode 0b1010000100100011#16 = .instr (.ldI 0x123#12) ∧
  decode 0b1101000100101111#16 = .instr (.drw 1 2 15) ∧
  decode 0b1110010110011110#16 = .instr (.skp 5) ∧
  decode 0b1111001001010101#16 = .instr (.storeRegs 2) ∧
  decode 0b0000000100100011#16 = .unknown 0x0123#16

/-- Decoding the word of a well-formed instruction gives it back: no bit of an operand is dropped. -/
def Obligations.DecodeOfEncodeIsTheInstruction : Prop :=
  ∀ i : Instr, i.wellFormed = true → decode (encode i) = .instr i

/-- Each word that decodes is the word of the instruction it decodes to, which is well-formed. -/
def Obligations.EncodeOfDecodeIsTheWord : Prop :=
  ∀ (w : Word) (i : Instr), decode w = .instr i → encode i = w ∧ i.wellFormed = true

/-- 30_encoding R79 and R72: a word is the instruction of a row when `w & mask = match`; no word
matches two rows, and a word that matches none is an UnknownOpcode. -/
def Obligations.DecodeFollowsTheOpcodeMap : Prop :=
  opcodeMap.length = 34 ∧
  (∀ (w : Word) (r q : MapRow), r ∈ opcodeMap → q ∈ opcodeMap → w &&& r.2 = r.1 → w &&& q.2 = q.1 →
    r = q) ∧
  (∀ (w : Word) (r : MapRow), r ∈ opcodeMap →
    (w &&& r.2 = r.1 ↔ ∃ i, decode w = .instr i ∧ i.row = r)) ∧
  ∀ w : Word, (∀ r ∈ opcodeMap, w &&& r.2 ≠ r.1) ↔ decode w = .unknown w

/-- The words of the table of 30_encoding R80, family by family (its counts are not stated). -/
def Obligations.UnknownWordsAreThoseOfTheTable : Prop :=
  ∀ w : Word, decode w = .unknown w ↔
    (fieldOp w = 0x0#4 ∧ w ≠ 0x00E0#16 ∧ w ≠ 0x00EE#16) ∨
    (fieldOp w = 0x5#4 ∧ fieldN w ≠ 0#4) ∨
    (fieldOp w = 0x8#4 ∧ fieldN w ∈ [0x8#4, 0x9#4, 0xA#4, 0xB#4, 0xC#4, 0xD#4, 0xF#4]) ∨
    (fieldOp w = 0x9#4 ∧ fieldN w ≠ 0#4) ∨
    (fieldOp w = 0xE#4 ∧ fieldNN w ∉ [0x9E#8, 0xA1#8]) ∨
    (fieldOp w = 0xF#4 ∧
      fieldNN w ∉ [0x07#8, 0x0A#8, 0x15#8, 0x18#8, 0x1E#8, 0x29#8, 0x33#8, 0x55#8, 0x65#8])

/-! ### Control flow -/

/-- 40_control_flow R85. That StackUnderflow is fatal is the spec's decision (D3). -/
def Obligations.RetPopsTheReturnAddress : Prop :=
  decode 0x00EE#16 = .instr .ret ∧
  (∀ (s : State) (rest : List Word) (a : Word), s.stack = rest ++ [a] →
    ∃ t, exec .ret s = .next t ∧ t.pc = a ∧ t.stack = rest ∧ Frame [.pc, .stack] s t) ∧
  ∀ s : State, s.stack = [] → ∃ t, exec .ret s = .next t ∧ HaltedBy .ret .stackUnderflow s t

/-- 40_control_flow R86. -/
def Obligations.JpGoesToItsAddress : Prop :=
  (∀ w : Word, fieldOp w = 0x1#4 → decode w = .instr (.jp (fieldNNN w))) ∧
  ∀ (nnn : Addr12) (s : State),
    ∃ t, exec (.jp nnn) s = .next t ∧ t.pc.toNat = nnn.toNat ∧ Frame [.pc] s t

/-- 40_control_flow R87, under the default `STACK_DEPTH` of 16 (log 4); the last two clauses say the
same of any depth. The depth, and that StackOverflow is fatal, are the spec's decisions (D1, D2). -/
def Obligations.CallPushesTheNextAddressAndJumps : Prop :=
  (∀ w : Word, fieldOp w = 0x2#4 → decode w = .instr (.call (fieldNNN w))) ∧
  (∀ (nnn : Addr12) (s : State), s.stack.length < 16 →
    ∃ t, exec (.call nnn) s = .next t ∧ t.pc.toNat = nnn.toNat ∧ t.stack = s.stack ++ [s.pc] ∧
      Frame [.pc, .stack] s t) ∧
  (∀ (nnn : Addr12) (s : State), 16 ≤ s.stack.length →
    ∃ t, exec (.call nnn) s = .next t ∧ HaltedBy (.call nnn) .stackOverflow s t) ∧
  (∀ (depth : Nat) (nnn : Addr12) (s : State), s.stack.length < depth →
    ∃ t, callWith depth nnn s = .next t ∧ t.pc.toNat = nnn.toNat ∧
      t.stack = s.stack ++ [s.pc] ∧ Frame [.pc, .stack] s t) ∧
  ∀ (depth : Nat) (nnn : Addr12) (s : State), depth ≤ s.stack.length →
    ∃ t, callWith depth nnn s = .next t ∧ HaltedBy (.call nnn) .stackOverflow s t

/-- 40_control_flow R88 and R89. -/
def Obligations.ImmediateSkips : Prop :=
  (∀ w : Word, fieldOp w = 0x3#4 → decode w = .instr (.seImm (fieldX w) (fieldNN w))) ∧
  (∀ w : Word, fieldOp w = 0x4#4 → decode w = .instr (.sneImm (fieldX w) (fieldNN w))) ∧
  (∀ (x : RegId) (nn : Byte) (s : State), ∃ t, exec (.seImm x nn) s = .next t ∧
    ((s.reg x).toNat = nn.toNat → t.pc = s.pc + 2) ∧
    ((s.reg x).toNat ≠ nn.toNat → t.pc = s.pc) ∧ Frame [.pc] s t) ∧
  ∀ (x : RegId) (nn : Byte) (s : State), ∃ t, exec (.sneImm x nn) s = .next t ∧
    ((s.reg x).toNat ≠ nn.toNat → t.pc = s.pc + 2) ∧
    ((s.reg x).toNat = nn.toNat → t.pc = s.pc) ∧ Frame [.pc] s t

/-- 40_control_flow R90 and R91. -/
def Obligations.RegisterSkips : Prop :=
  (∀ w : Word, fieldOp w = 0x5#4 → fieldN w = 0#4 →
    decode w = .instr (.seReg (fieldX w) (fieldY w))) ∧
  (∀ w : Word, fieldOp w = 0x5#4 → fieldN w ≠ 0#4 → decode w = .unknown w) ∧
  (∀ w : Word, fieldOp w = 0x9#4 → fieldN w = 0#4 →
    decode w = .instr (.sneReg (fieldX w) (fieldY w))) ∧
  (∀ w : Word, fieldOp w = 0x9#4 → fieldN w ≠ 0#4 → decode w = .unknown w) ∧
  (∀ (x y : RegId) (s : State), ∃ t, exec (.seReg x y) s = .next t ∧
    ((s.reg x).toNat = (s.reg y).toNat → t.pc = s.pc + 2) ∧
    ((s.reg x).toNat ≠ (s.reg y).toNat → t.pc = s.pc) ∧ Frame [.pc] s t) ∧
  ∀ (x y : RegId) (s : State), ∃ t, exec (.sneReg x y) s = .next t ∧
    ((s.reg x).toNat ≠ (s.reg y).toNat → t.pc = s.pc + 2) ∧
    ((s.reg x).toNat = (s.reg y).toNat → t.pc = s.pc) ∧ Frame [.pc] s t

/-- 40_control_flow R92: the sum is not masked to 12 bits. That the sum is not masked is the spec's
decision (D15). -/
def Obligations.JpV0AddsV0ToItsAddress : Prop :=
  (∀ w : Word, fieldOp w = 0xB#4 → decode w = .instr (.jpV0 (fieldNNN w))) ∧
  ∀ (nnn : Addr12) (s : State), ∃ t, exec (.jpV0 nnn) s = .next t ∧
    t.pc.toNat = nnn.toNat + (s.reg 0).toNat ∧ Frame [.pc] s t

/-! ### Register loads, arithmetic and logic -/

/-- 41_alu R93 and R95. -/
def Obligations.LoadsCopyIntoVx : Prop :=
  (∀ w : Word, fieldOp w = 0x6#4 → decode w = .instr (.ldImm (fieldX w) (fieldNN w))) ∧
  (∀ w : Word, fieldOp w = 0x8#4 → fieldN w = 0x0#4 →
    decode w = .instr (.ldReg (fieldX w) (fieldY w))) ∧
  (∀ (x : RegId) (nn : Byte) (s : State), ∃ t, exec (.ldImm x nn) s = .next t ∧ t.reg x = nn ∧
    RegsExcept [x] s t ∧ Frame [.v] s t) ∧
  ∀ (x y : RegId) (s : State), ∃ t, exec (.ldReg x y) s = .next t ∧ t.reg x = s.reg y ∧
    RegsExcept [x] s t ∧ Frame [.v] s t

/-- 41_alu R94: no flag. That no flag is written is the spec's decision (D10). -/
def Obligations.AddImmediateWrapsWithoutFlag : Prop :=
  (∀ w : Word, fieldOp w = 0x7#4 → decode w = .instr (.addImm (fieldX w) (fieldNN w))) ∧
  ∀ (x : RegId) (nn : Byte) (s : State), ∃ t, exec (.addImm x nn) s = .next t ∧
    (t.reg x).toNat = ((s.reg x).toNat + nn.toNat) % 256 ∧ RegsExcept [x] s t ∧ Frame [.v] s t

/-- 41_alu R96, R97 and R98, bit by bit: no flag. That no flag is written is the spec's decision
(D10). -/
def Obligations.LogicActsBitwiseWithoutFlag : Prop :=
  (∀ w : Word, fieldOp w = 0x8#4 →
    (fieldN w = 0x1#4 → decode w = .instr (.orReg (fieldX w) (fieldY w))) ∧
    (fieldN w = 0x2#4 → decode w = .instr (.andReg (fieldX w) (fieldY w))) ∧
    (fieldN w = 0x3#4 → decode w = .instr (.xorReg (fieldX w) (fieldY w)))) ∧
  (∀ (x y : RegId) (s : State), ∃ t, exec (.orReg x y) s = .next t ∧
    (∀ j, j < 8 → (t.reg x).getLsbD j = ((s.reg x).getLsbD j || (s.reg y).getLsbD j)) ∧
    RegsExcept [x] s t ∧ Frame [.v] s t) ∧
  (∀ (x y : RegId) (s : State), ∃ t, exec (.andReg x y) s = .next t ∧
    (∀ j, j < 8 → (t.reg x).getLsbD j = ((s.reg x).getLsbD j && (s.reg y).getLsbD j)) ∧
    RegsExcept [x] s t ∧ Frame [.v] s t) ∧
  ∀ (x y : RegId) (s : State), ∃ t, exec (.xorReg x y) s = .next t ∧
    (∀ j, j < 8 → (t.reg x).getLsbD j = ((s.reg x).getLsbD j != (s.reg y).getLsbD j)) ∧
    RegsExcept [x] s t ∧ Frame [.v] s t

/-- 41_alu R99 (and R106 for x = 0xF). That the flag is written last is the spec's decision (D9). -/
def Obligations.AddSetsTheCarry : Prop :=
  (∀ w : Word, fieldOp w = 0x8#4 → fieldN w = 0x4#4 →
    decode w = .instr (.addReg (fieldX w) (fieldY w))) ∧
  ∀ (x y : RegId) (s : State), ∃ t, exec (.addReg x y) s = .next t ∧
    (x ≠ 15 → (t.reg x).toNat = ((s.reg x).toNat + (s.reg y).toNat) % 256) ∧
    (255 < (s.reg x).toNat + (s.reg y).toNat → (t.reg 15).toNat = 1) ∧
    ((s.reg x).toNat + (s.reg y).toNat ≤ 255 → (t.reg 15).toNat = 0) ∧
    RegsExcept [x, 15] s t ∧ Frame [.v] s t

/-- 41_alu R100 and R102 (and R106 for x = 0xF): VF is 1 when no borrow occurs. That the flag is
written last is the spec's decision (D9). -/
def Obligations.SubtractionsSetNoBorrow : Prop :=
  (∀ w : Word, fieldOp w = 0x8#4 →
    (fieldN w = 0x5#4 → decode w = .instr (.subReg (fieldX w) (fieldY w))) ∧
    (fieldN w = 0x7#4 → decode w = .instr (.subnReg (fieldX w) (fieldY w)))) ∧
  (∀ (x y : RegId) (s : State), ∃ t, exec (.subReg x y) s = .next t ∧
    (x ≠ 15 → ((t.reg x).toNat : Int) = ((s.reg x).toNat - (s.reg y).toNat : Int) % 256) ∧
    ((s.reg y).toNat ≤ (s.reg x).toNat → (t.reg 15).toNat = 1) ∧
    ((s.reg x).toNat < (s.reg y).toNat → (t.reg 15).toNat = 0) ∧
    RegsExcept [x, 15] s t ∧ Frame [.v] s t) ∧
  ∀ (x y : RegId) (s : State), ∃ t, exec (.subnReg x y) s = .next t ∧
    (x ≠ 15 → ((t.reg x).toNat : Int) = ((s.reg y).toNat - (s.reg x).toNat : Int) % 256) ∧
    ((s.reg x).toNat ≤ (s.reg y).toNat → (t.reg 15).toNat = 1) ∧
    ((s.reg y).toNat < (s.reg x).toNat → (t.reg 15).toNat = 0) ∧
    RegsExcept [x, 15] s t ∧ Frame [.v] s t

/-- 41_alu R101 and R103 (and R106 for x = 0xF): Vx is shifted under the default `SHIFT_SOURCE` (log
6); the last two clauses say the same of Vy under the other value. The shifted register, and that
the flag is written last, are the spec's decisions (D7, D9). -/
def Obligations.ShiftsMoveOneBitIntoVf : Prop :=
  (∀ w : Word, fieldOp w = 0x8#4 →
    (fieldN w = 0x6#4 → decode w = .instr (.shr (fieldX w) (fieldY w))) ∧
    (fieldN w = 0xE#4 → decode w = .instr (.shl (fieldX w) (fieldY w)))) ∧
  (∀ (x y : RegId) (s : State), ∃ t, exec (.shr x y) s = .next t ∧
    (x ≠ 15 → (t.reg x).toNat = (s.reg x).toNat / 2) ∧
    (t.reg 15).toNat = (s.reg x).toNat % 2 ∧ RegsExcept [x, 15] s t ∧ Frame [.v] s t) ∧
  (∀ (x y : RegId) (s : State), ∃ t, exec (.shl x y) s = .next t ∧
    (x ≠ 15 → (t.reg x).toNat = (s.reg x).toNat * 2 % 256) ∧
    (t.reg 15).toNat = (s.reg x).toNat / 128 ∧ RegsExcept [x, 15] s t ∧ Frame [.v] s t) ∧
  (∀ (x y : RegId) (s : State), ∃ t, shrWith .vy x y s = .next t ∧
    (x ≠ 15 → (t.reg x).toNat = (s.reg y).toNat / 2) ∧
    (t.reg 15).toNat = (s.reg y).toNat % 2 ∧ RegsExcept [x, 15] s t ∧ Frame [.v] s t) ∧
  ∀ (x y : RegId) (s : State), ∃ t, shlWith .vy x y s = .next t ∧
    (x ≠ 15 → (t.reg x).toNat = (s.reg y).toNat * 2 % 256) ∧
    (t.reg 15).toNat = (s.reg y).toNat / 128 ∧ RegsExcept [x, 15] s t ∧ Frame [.v] s t

/-- 41_alu R107 (a rule the spec marks as derived): the forms with x = y. -/
def Obligations.SameRegisterForms : Prop :=
  ∀ (x : RegId) (s : State),
    (∃ t, exec (.ldReg x x) s = .next t ∧ ∀ i, t.reg i = s.reg i) ∧
    (∃ t, exec (.orReg x x) s = .next t ∧ ∀ i, t.reg i = s.reg i) ∧
    (∃ t, exec (.andReg x x) s = .next t ∧ ∀ i, t.reg i = s.reg i) ∧
    (∃ t, exec (.xorReg x x) s = .next t ∧ t.reg x = 0) ∧
    (∃ t, exec (.addReg x x) s = .next t ∧
      (x ≠ 15 → (t.reg x).toNat = 2 * (s.reg x).toNat % 256) ∧
      t.reg 15 = if (s.reg x).getLsbD 7 then 1 else 0) ∧
    (∃ t, exec (.subReg x x) s = .next t ∧ (x ≠ 15 → t.reg x = 0) ∧ t.reg 15 = 1) ∧
    (∃ t, exec (.subnReg x x) s = .next t ∧ (x ≠ 15 → t.reg x = 0) ∧ t.reg 15 = 1) ∧
    (∃ t, exec (.shr x x) s = .next t ∧ (x ≠ 15 → (t.reg x).toNat = (s.reg x).toNat / 2) ∧
      t.reg 15 = if (s.reg x).getLsbD 0 then 1 else 0) ∧
    ∃ t, exec (.shl x x) s = .next t ∧ (x ≠ 15 → (t.reg x).toNat = 2 * (s.reg x).toNat % 256) ∧
      t.reg 15 = if (s.reg x).getLsbD 7 then 1 else 0

/-- 41_alu R104: for whatever byte `r` the random source supplies, the next of those it has supplied
where there is one; where there is none, a free value (log 2). -/
def Obligations.RndMasksTheRandomByte : Prop :=
  (∀ w : Word, fieldOp w = 0xC#4 → decode w = .instr (.rnd (fieldX w) (fieldNN w))) ∧
  ∀ (x : RegId) (nn : Byte) (s : State), ∃ (t : State) (r : Byte), exec (.rnd x nn) s = .next t ∧
    (∀ b rest, s.randomIn = b :: rest → r = b ∧ t.randomIn = rest) ∧
    (s.randomIn = [] → t.randomIn = []) ∧
    (∀ j, j < 8 → (t.reg x).getLsbD j = (r.getLsbD j && nn.getLsbD j)) ∧
    (nn = 0xFF → t.reg x = r) ∧ RegsExcept [x] s t ∧ Frame [.v, .random] s t

/-! ### Index register and memory blocks -/

/-- 42_index_memory R108. -/
def Obligations.LdILoadsItsAddress : Prop :=
  (∀ w : Word, fieldOp w = 0xA#4 → decode w = .instr (.ldI (fieldNNN w))) ∧
  ∀ (nnn : Addr12) (s : State), ∃ t, exec (.ldI nnn) s = .next t ∧ t.index.toNat = nnn.toNat ∧
    Frame [.index] s t

/-- 42_index_memory R109: under the default `FX1E_VF_NO_OVERFLOW` (log 8) VF is cleared when there
is no overflow; under the other value, the last clause, it is kept. VF without overflow is the
spec's decision (D6). -/
def Obligations.AddIMasksAndFlagsOverflow : Prop :=
  (∀ w : Word, fieldOp w = 0xF#4 → fieldNN w = 0x1E#8 → decode w = .instr (.addI (fieldX w))) ∧
  (∀ (x : RegId) (s : State), ∃ t, exec (.addI x) s = .next t ∧
    t.index.toNat = (s.index.toNat + (s.reg x).toNat) % 4096 ∧
    (0xFFF < s.index.toNat + (s.reg x).toNat → (t.reg 15).toNat = 1) ∧
    (s.index.toNat + (s.reg x).toNat ≤ 0xFFF → (t.reg 15).toNat = 0) ∧
    RegsExcept [15] s t ∧ Frame [.v, .index] s t) ∧
  ∀ (x : RegId) (s : State), ∃ t, addIWith .keep x s = .next t ∧
    t.index.toNat = (s.index.toNat + (s.reg x).toNat) % 4096 ∧
    (0xFFF < s.index.toNat + (s.reg x).toNat → (t.reg 15).toNat = 1) ∧
    (s.index.toNat + (s.reg x).toNat ≤ 0xFFF → t.reg 15 = s.reg 15) ∧
    RegsExcept [15] s t ∧ Frame [.v, .index] s t

/-- 42_index_memory R110. -/
def Obligations.LdFPointsAtTheGlyph : Prop :=
  (∀ w : Word, fieldOp w = 0xF#4 → fieldNN w = 0x29#8 → decode w = .instr (.ldF (fieldX w))) ∧
  ∀ (x : RegId) (s : State), ∃ t, exec (.ldF x) s = .next t ∧
    t.index.toNat = 0x050 + 5 * ((s.reg x).toNat % 16) ∧ Frame [.index] s t

/-- 42_index_memory R111, under the default `RESERVED_WRITE_POLICY` (log 5); the last clause is
about the other value, under which the bytes below 0x200 are written too. The fault below 0x200 is
the spec's decision (D5). The premise `wf` is the model's canonical form of memory (log 14). -/
def Obligations.LdBStoresThreeDigits : Prop :=
  (∀ w : Word, fieldOp w = 0xF#4 → fieldNN w = 0x33#8 → decode w = .instr (.ldB (fieldX w))) ∧
  (∀ (x : RegId) (s : State), s.mem.wf = true → 0x200 ≤ s.index.toNat → s.index.toNat + 2 < 4096 →
    ∃ t, exec (.ldB x) s = .next t ∧
      (t.mem.read (s.indexAddr 0)).toNat = (s.reg x).toNat / 100 ∧
      (t.mem.read (s.indexAddr 1)).toNat = (s.reg x).toNat / 10 % 10 ∧
      (t.mem.read (s.indexAddr 2)).toNat = (s.reg x).toNat % 10 ∧
      BytesExcept (s.indexAddr 0) 3 s t ∧ Frame [.memory] s t) ∧
  (∀ (x : RegId) (s : State), s.index.toNat < 0x200 →
    ∃ t, exec (.ldB x) s = .next t ∧ HaltedBy (.ldB x) (.reservedWrite s.index.toNat) s t) ∧
  (∀ (x : RegId) (s : State), 4096 ≤ s.index.toNat + 2 →
    ∃ t, exec (.ldB x) s = .next t ∧
      HaltedBy (.ldB x) (.memoryOutOfRange (max s.index.toNat 4096)) s t) ∧
  ∀ (x : RegId) (s : State), s.mem.wf = true → s.index.toNat + 2 < 4096 →
    ∃ t, ldBWith .allow x s = .next t ∧
      (t.mem.read (s.indexAddr 0)).toNat = (s.reg x).toNat / 100 ∧
      (t.mem.read (s.indexAddr 1)).toNat = (s.reg x).toNat / 10 % 10 ∧
      (t.mem.read (s.indexAddr 2)).toNat = (s.reg x).toNat % 10 ∧
      BytesExcept (s.indexAddr 0) 3 s t ∧ Frame [.memory] s t

/-- 42_index_memory R112, under the default `RESERVED_WRITE_POLICY` (log 5) and
`LOADSTORE_INCREMENTS_I` (log 7): `I` is unchanged. The last clause is about every value of the two.
The fault below 0x200 and the unchanged I are the spec's decisions (D5, D8). The premise `wf` is the
model's canonical form of memory (log 14). -/
def Obligations.StoreRegsStoresV0ToVx : Prop :=
  (∀ w : Word, fieldOp w = 0xF#4 → fieldNN w = 0x55#8 →
    decode w = .instr (.storeRegs (fieldX w))) ∧
  (∀ (x : RegId) (s : State), s.mem.wf = true → 0x200 ≤ s.index.toNat →
    s.index.toNat + x.val < 4096 →
    ∃ t, exec (.storeRegs x) s = .next t ∧
      (∀ j : RegId, j ≤ x → t.mem.read (s.indexAddr j.val) = s.reg j) ∧
      BytesExcept (s.indexAddr 0) (x.val + 1) s t ∧ Frame [.memory] s t) ∧
  (∀ (x : RegId) (s : State), s.index.toNat < 0x200 →
    ∃ t, exec (.storeRegs x) s = .next t ∧
      HaltedBy (.storeRegs x) (.reservedWrite s.index.toNat) s t) ∧
  (∀ (x : RegId) (s : State), 0x200 ≤ s.index.toNat → 4096 ≤ s.index.toNat + x.val →
    ∃ t, exec (.storeRegs x) s = .next t ∧
      HaltedBy (.storeRegs x) (.memoryOutOfRange (max s.index.toNat 4096)) s t) ∧
  ∀ (p : Config.ReservedWritePolicy) (inc : Bool) (x : RegId) (s : State), s.mem.wf = true →
    (p = .allow ∨ 0x200 ≤ s.index.toNat) → s.index.toNat + x.val < 4096 →
    ∃ t, storeRegsWith p inc x s = .next t ∧
      (∀ j : RegId, j ≤ x → t.mem.read (s.indexAddr j.val) = s.reg j) ∧
      BytesExcept (s.indexAddr 0) (x.val + 1) s t ∧
      t.index.toNat = (if inc then s.index.toNat + x.val + 1 else s.index.toNat) ∧
      Frame [.memory, .index] s t

/-- 42_index_memory R113, under the default `LOADSTORE_INCREMENTS_I` (log 7): `I` is unchanged. The
last clause is about either value. The unchanged I is the spec's decision (D8). -/
def Obligations.LoadRegsLoadsV0ToVx : Prop :=
  (∀ w : Word, fieldOp w = 0xF#4 → fieldNN w = 0x65#8 →
    decode w = .instr (.loadRegs (fieldX w))) ∧
  (∀ (x : RegId) (s : State), s.index.toNat + x.val < 4096 →
    ∃ t, exec (.loadRegs x) s = .next t ∧
      (∀ j : RegId, j ≤ x → t.reg j = s.mem.read (s.indexAddr j.val)) ∧
      (∀ j : RegId, x < j → t.reg j = s.reg j) ∧ Frame [.v] s t) ∧
  (∀ (x : RegId) (s : State), 4096 ≤ s.index.toNat + x.val →
    ∃ t, exec (.loadRegs x) s = .next t ∧
      HaltedBy (.loadRegs x) (.memoryOutOfRange (max s.index.toNat 4096)) s t) ∧
  ∀ (inc : Bool) (x : RegId) (s : State), s.index.toNat + x.val < 4096 →
    ∃ t, loadRegsWith inc x s = .next t ∧
      (∀ j : RegId, j ≤ x → t.reg j = s.mem.read (s.indexAddr j.val)) ∧
      (∀ j : RegId, x < j → t.reg j = s.reg j) ∧
      t.index.toNat = (if inc then s.index.toNat + x.val + 1 else s.index.toNat) ∧
      Frame [.v, .index] s t

/-- 20_memory R61: the bytes Fx55 stores are what a fetch there gives. The premise `wf` is the
model's canonical form of memory (log 14). -/
def Obligations.StoredBytesAreFetched : Prop :=
  ∀ (x j k : RegId) (s : State), s.mem.wf = true → 0x200 ≤ s.index.toNat →
    s.index.toNat + x.val < 4096 → k ≤ x → k.val = j.val + 1 →
    ∃ t, exec (.storeRegs x) s = .next t ∧
      fetch t.mem (s.indexAddr j.val) = .ok (wordOfBytes (s.reg j) (s.reg k))

/-! ### Display -/

/-- 43_display R114. -/
def Obligations.ClsTurnsEveryPixelOff : Prop :=
  decode 0x00E0#16 = .instr .cls ∧
  ∀ s : State, ∃ t, exec .cls s = .next t ∧ (∀ r c, t.display.pixel r c = false) ∧
    Frame [.display] s t

/-- 43_display R115: the origin wraps, the sprite is clipped at the edges, each pixel under a 1 bit is
flipped, and VF tells whether one of them was on; every sprite byte is range-checked. -/
def Obligations.DrwFlipsTheSpritePixels : Prop :=
  (∀ w : Word, fieldOp w = 0xD#4 →
    decode w = .instr (.drw (fieldX w) (fieldY w) (fieldN w).toNat)) ∧
  (∀ (x y : RegId) (n : Nat) (s : State), n = 0 ∨ s.index.toNat + n ≤ 4096 →
    let covers := SpriteCovers s.mem s.index.toNat n ((s.reg x).toNat % 64) ((s.reg y).toNat % 32)
    ∃ t, exec (.drw x y n) s = .next t ∧
      (∀ r c, covers r c → t.display.pixel r c = !s.display.pixel r c) ∧
      (∀ r c, ¬ covers r c → t.display.pixel r c = s.display.pixel r c) ∧
      ((∃ r c, covers r c ∧ s.display.pixel r c = true) → (t.reg 15).toNat = 1) ∧
      ((¬ ∃ r c, covers r c ∧ s.display.pixel r c = true) → (t.reg 15).toNat = 0) ∧
      RegsExcept [15] s t ∧ Frame [.v, .display] s t) ∧
  ∀ (x y : RegId) (n : Nat) (s : State), n ≠ 0 → 4096 < s.index.toNat + n →
    ∃ t, exec (.drw x y n) s = .next t ∧
      HaltedBy (.drw x y n) (.memoryOutOfRange (max s.index.toNat 4096)) s t

/-- 43_display R115, a corner case: "Drawing the same sprite twice at the same place restores the
display" (x and y are not VF, which the first draw writes). The second draw sets VF to 1 exactly when
some pixel under a 1 bit was off before the first; the spec's words for that VF hold of the displays in
which one was (log 20). -/
def Obligations.DrawingTwiceRestoresTheDisplay : Prop :=
  ∀ (x y : RegId) (n : Nat) (s : State), x ≠ 15 → y ≠ 15 → n = 0 ∨ s.index.toNat + n ≤ 4096 →
    ∃ t u, exec (.drw x y n) s = .next t ∧ exec (.drw x y n) t = .next u ∧
      u.display = s.display ∧
      ((u.reg 15).toNat = 1 ↔ ∃ r c,
        SpriteCovers s.mem s.index.toNat n ((s.reg x).toNat % 64) ((s.reg y).toNat % 32) r c ∧
          s.display.pixel r c = false)

/-! ### Keypad and timers -/

/-- 44_timers_keypad R118 and R119. The fault above 0xF is the spec's decision (D11). -/
def Obligations.KeySkips : Prop :=
  (∀ w : Word, fieldOp w = 0xE#4 →
    (fieldNN w = 0x9E#8 → decode w = .instr (.skp (fieldX w))) ∧
    (fieldNN w = 0xA1#8 → decode w = .instr (.sknp (fieldX w)))) ∧
  (∀ (x : RegId) (k : KeyId) (s : State), (s.reg x).toNat = k.val →
    (∃ t, exec (.skp x) s = .next t ∧ (s.key k = true → t.pc = s.pc + 2) ∧
      (s.key k = false → t.pc = s.pc) ∧ Frame [.pc] s t) ∧
    ∃ t, exec (.sknp x) s = .next t ∧ (s.key k = false → t.pc = s.pc + 2) ∧
      (s.key k = true → t.pc = s.pc) ∧ Frame [.pc] s t) ∧
  ∀ (x : RegId) (s : State), 15 < (s.reg x).toNat →
    (∃ t, exec (.skp x) s = .next t ∧ HaltedBy (.skp x) (.keyIndexOutOfRange (s.reg x)) s t) ∧
    ∃ t, exec (.sknp x) s = .next t ∧ HaltedBy (.sknp x) (.keyIndexOutOfRange (s.reg x)) s t

/-- 44_timers_keypad R120. -/
def Obligations.LdVxDtReadsTheDelayTimer : Prop :=
  (∀ w : Word, fieldOp w = 0xF#4 → fieldNN w = 0x07#8 → decode w = .instr (.ldVxDt (fieldX w))) ∧
  ∀ (x : RegId) (s : State), ∃ t, exec (.ldVxDt x) s = .next t ∧ t.reg x = s.delay ∧
    RegsExcept [x] s t ∧ Frame [.v] s t

/-- 44_timers_keypad R121: with no key down only `pc` changes, back to a; else some pressed key, any
of them (log 3), is stored. That any pressed key may be chosen, at once, is the spec's decision
(D12). -/
def Obligations.KeyWaitRewindsOrStoresAPressedKey : Prop :=
  (∀ w : Word, fieldOp w = 0xF#4 → fieldNN w = 0x0A#8 → decode w = .instr (.ldVxK (fieldX w))) ∧
  (∀ (x : RegId) (s : State), (∀ k, s.key k = false) →
    ∃ t, exec (.ldVxK x) s = .next t ∧ t.pc = s.pc - 2 ∧ Frame [.pc] s t) ∧
  (∀ (x : RegId) (s : State), (∃ k, s.key k = true) →
    ∃ t k, exec (.ldVxK x) s = .next t ∧ s.key k = true ∧ (t.reg x).toNat = k.val ∧
      RegsExcept [x] s t ∧ Frame [.v, .random] s t) ∧
  ∀ (x : RegId) (k : KeyId) (s : State), s.key k = true → (∀ j, s.key j = true → j = k) →
    ∃ t, exec (.ldVxK x) s = .next t ∧ (t.reg x).toNat = k.val

/-- 44_timers_keypad R122 and R123. -/
def Obligations.TimerWritesCopyVx : Prop :=
  (∀ w : Word, fieldOp w = 0xF#4 →
    (fieldNN w = 0x15#8 → decode w = .instr (.ldDtVx (fieldX w))) ∧
    (fieldNN w = 0x18#8 → decode w = .instr (.ldStVx (fieldX w)))) ∧
  (∀ (x : RegId) (s : State), ∃ t, exec (.ldDtVx x) s = .next t ∧ t.delay = s.reg x ∧
    Frame [.delay] s t) ∧
  ∀ (x : RegId) (s : State), ∃ t, exec (.ldStVx x) s = .next t ∧ t.sound = s.reg x ∧
    Frame [.sound] s t

/-! ### The other agents -/

/-- 60_exceptions R135: a tick, taken only by a running machine. -/
def Obligations.TickCountsDownAndBeepsOnce : Prop :=
  (∀ s : State, s.status = .running →
    (act s .tick).delay.toNat = s.delay.toNat - 1 ∧ (act s .tick).sound = 0 ∧
      (s.sound ≠ 0 → (act s .tick).history = s.history ++ [.beep]) ∧
      (s.sound = 0 → (act s .tick).history = s.history) ∧
      Frame [.delay, .sound, .history] s (act s .tick)) ∧
  ∀ (s : State) (f : FaultRecord), s.status = .halted f → act s .tick = s

/-- 70_reset R165 (a rule the spec marks as derived): DT read after being written with k ticks between. -/
def Obligations.DelayReadSeesTheTicksBetween : Prop :=
  ∀ (x y : RegId) (k : Nat) (s : State), s.status = .running →
    ∃ t u, exec (.ldDtVx x) s = .next t ∧
      exec (.ldVxDt y) (runMoves t (List.replicate k .tick)) = .next u ∧
      (u.reg y).toNat = (s.reg x).toNat - k

/-- 60_exceptions R141: key events, taken only by a running machine; a repeated one changes nothing.
The form of the events is the spec's decision (D24). -/
def Obligations.KeyEventsSetOneKey : Prop :=
  (∀ (s : State) (k : KeyId), s.status = .running →
    ((act s (.keyDown k)).key k = true ∧ (∀ j, j ≠ k → (act s (.keyDown k)).key j = s.key j) ∧
      Frame [.keys] s (act s (.keyDown k)) ∧ (s.key k = true → act s (.keyDown k) = s)) ∧
    (act s (.keyUp k)).key k = false ∧ (∀ j, j ≠ k → (act s (.keyUp k)).key j = s.key j) ∧
      Frame [.keys] s (act s (.keyUp k)) ∧ (s.key k = false → act s (.keyUp k) = s)) ∧
  ∀ (s : State) (k : KeyId) (f : FaultRecord), s.status = .halted f →
    act s (.keyDown k) = s ∧ act s (.keyUp k) = s

/-- A step makes the next move of a running machine (log 1). 60_exceptions R137, R139, R148: ticks and key
events change no `pc`, memory, V register, `I` or stack, and a publication changes nothing; only a key
event changes the keypad (10_state R32). -/
def Obligations.OtherAgentsTouchOnlyTheirOwn : Prop :=
  (∀ s : State, s.status = .running →
    (nextMove s = .tick → step s = .next (tick s.takeMove)) ∧
    (∀ k, nextMove s = .keyDown k → step s = .next (keyDown k s.takeMove)) ∧
    (∀ k, nextMove s = .keyUp k → step s = .next (keyUp k s.takeMove)) ∧
    (nextMove s = .publish → step s = .next s.takeMove)) ∧
  (∀ s t : State, s.status = .running → nextMove s ≠ .instr → step s = .next t →
    Frame [.delay, .sound, .keys, .history, .schedule] s t) ∧
  ∀ (s t : State), step s = .next t → t.keys ≠ s.keys →
    ∃ k, nextMove s = .keyDown k ∨ nextMove s = .keyUp k

/-- 70_reset R155: a rejected `Load` answers no new state, so the prior one stands. The premise `wf`
is the model's canonical form of memory (log 14). -/
def Obligations.LoadCopiesTheProgramOrRejectsIt : Prop :=
  (∀ (bytes : List Byte) (s : State), 3584 < bytes.length →
    load bytes s = .romTooLarge bytes.length) ∧
  (∀ (bytes : List Byte) (s : State), bytes.length ≤ 3584 → s.mem.wf = true →
    ∃ t, load bytes s = .ok t ∧
      (∀ (i : Nat) (h : i < bytes.length), t.mem.read (0x200 + i) = bytes[i]) ∧
      BytesExcept 0x200 bytes.length s t ∧ Frame [.memory] s t) ∧
  ∀ (bytes : List Byte) (a : Nat) (t : State), load bytes State.reset = .ok t →
    0x200 + bytes.length ≤ a → a < 4096 → t.mem.read a = 0

/-- 70_reset R156: a launch is reset and one accepted `Load`; the launch state is fixed by the bytes, and
meets the invariant of `StepKeepsTheInvariant`. -/
def Obligations.LaunchIsResetThenLoad : Prop :=
  (∀ bytes : List Byte, 3584 < bytes.length → launch bytes = .romTooLarge bytes.length) ∧
  ∀ bytes : List Byte, bytes.length ≤ 3584 →
    ∃ t, launch bytes = .ok t ∧ t.Inv ∧ t.status = .running ∧ t.pc = 0x200 ∧
      (∀ (i : Nat) (h : i < bytes.length), t.mem.read (0x200 + i) = bytes[i]) ∧
      (∀ a, 0x200 + bytes.length ≤ a → a < 4096 → t.mem.read a = 0) ∧
      (∀ a, a < 0x200 → t.mem.read a = resetByte a) ∧ Frame [.memory] State.reset t

/-! ### Memory -/

/-- 20_memory R53 and R54: the checked accesses, for either value of `RESERVED_WRITE_POLICY`. The
fatal faults are the spec's decisions (D4, D5). The canonical form `wf`, in the premise and kept by
a write, is the model's (log 14). -/
def Obligations.AccessesAreChecked : Prop :=
  (∀ (m : Memory) (a : Nat),
    (4096 ≤ a → memRead m a = .error (.memoryOutOfRange a)) ∧
    (a < 4096 → memRead m a = .ok (m.read a))) ∧
  ∀ (p : Config.ReservedWritePolicy) (m : Memory) (a : Nat) (v : Byte), m.wf = true →
    (4096 ≤ a → memWrite p m a v = .error (.memoryOutOfRange a)) ∧
    (a < 0x200 → p = .fault → memWrite p m a v = .error (.reservedWrite a)) ∧
    (a < 4096 → (0x200 ≤ a ∨ p = .allow) →
      ∃ m', memWrite p m a v = .ok m' ∧ m'.wf = true ∧ m'.read a = v ∧
        ∀ b, b ≠ a → m'.read b = m.read b)

/-- Memories in canonical form that read the same everywhere are equal (log 14). -/
def Obligations.CanonicalMemoriesAreEqualWhenTheyReadTheSame : Prop :=
  ∀ m m' : Memory, m.wf = true → m'.wf = true → (∀ a, m.read a = m'.read a) → m = m'

/-- 20_memory R51, R47: under the default policy no step changes a byte below 0x200, the font among
them, however many steps are made. The default policy is log 5. -/
def Obligations.ReservedRangeIsNeverModified : Prop :=
  ∀ (k : Nat) (s t : State), core.run k s = .next t → ∀ a, a < 0x200 → t.mem.read a = s.mem.read a

/-! ### Rules of the whole machine -/

/-- Every instruction, in every state, answers a next state: no instruction of 30_encoding R79 is
refused and none ends in a fault; nor does any step. That a fatal condition is a next state and no
fault, and that the step of a halted machine answers its own state, is the model's form (log 10). -/
def Obligations.EveryInstructionAnswersANextState : Prop :=
  (∀ (i : Instr) (s : State), ∃ t, exec i s = .next t) ∧ ∀ s : State, ∃ t, step s = .next t

/-- 10_state R25 (a table the spec marks as derived): the program counter after every instruction, after
an UnknownOpcode and after a fetch that raises. -/
def Obligations.ProgramCounterAfterEveryInstruction : Prop :=
  (∀ (i : Instr) (s t : State), exec i s = .next t → PcAfter i s t.pc) ∧
  (∀ (s : State) (w : Word), fetch s.mem s.pc.toNat = .ok w → decode w = .unknown w →
    ∃ t, instrStep s = .next t ∧ t.pc = s.pc + 2) ∧
  ∀ s : State, 0xFFF ≤ s.pc.toNat → ∃ t, instrStep s = .next t ∧ t.pc = s.pc

/-- 10_state R23 (its column "writes") and R22: each instruction writes only the registers of its row; a
flag writer that does not halt the machine leaves 0 or 1 in VF. -/
def Obligations.RegistersWrittenByEveryInstruction : Prop :=
  (∀ (i : Instr) (s t : State), exec i s = .next t → RegsExcept (regsWritten i) s t) ∧
  ∀ (i : Instr) (s t : State), writesFlag i = true → exec i s = .next t → t.status = .running →
    (t.reg 15).toNat ≤ 1

/-- 10_state R23 (its column "reads"): from two states that differ only in V registers an instruction does
not read, it does the same; a register comes out the same, or is written in neither. 8xy6 and 8xyE do
not read Vy by D7 (log 6). Both states hold the same queue of random bytes and the same draw counter, so
the model gives both runs the same draw of Cxnn and the same choice of Fx0A (logs 2 and 3): what the
statement says is that those registers have no part in them, not that two draws of a machine agree. -/
def Obligations.InstructionsReadOnlyTheirRegisters : Prop :=
  ∀ (i : Instr) (s t : State) (regs : Vector Byte 16),
    (∀ r ∈ regsRead i, (s.setRegs regs).reg r = s.reg r) → exec i s = .next t →
    ∃ t', exec i (s.setRegs regs) = .next t' ∧ Frame [.v] t t' ∧
      ∀ r, t'.reg r = t.reg r ∨ (t.reg r = s.reg r ∧ t'.reg r = (s.setRegs regs).reg r)

/-- 10_state R23, R37 (their columns "writes" and "written by"), 43_display R117, 20_memory R57: which
instructions change which component; none changes the keypad (10_state R32). The program counter is
compared with a + 2, where fetch left it. The status changes by a fatal fault alone, of an instruction
that 60_exceptions R124 names; MemoryOutOfRange, ReservedWrite and KeyIndexOutOfRange are the spec's
decisions (D4, D5, D11). The history, the schedule, the supplied bytes and the draw counter are the
model's own fields (logs 1, 2, 3, 12). -/
def Obligations.EachComponentHasItsWriters : Prop :=
  ∀ (i : Instr) (s t : State), exec i s = .next t →
    (t.v ≠ s.v → regsWritten i ≠ []) ∧
    (t.pc ≠ s.pc → i = .ret ∨ (∃ nnn, i = .jp nnn) ∨ (∃ nnn, i = .call nnn) ∨
      (∃ nnn, i = .jpV0 nnn) ∨ (∃ x nn, i = .seImm x nn) ∨ (∃ x nn, i = .sneImm x nn) ∨
      (∃ x y, i = .seReg x y) ∨ (∃ x y, i = .sneReg x y) ∨ (∃ x, i = .skp x) ∨
      (∃ x, i = .sknp x) ∨ ∃ x, i = .ldVxK x) ∧
    (t.status ≠ s.status → i = .ret ∨ (∃ nnn, i = .call nnn) ∨ (∃ x y n, i = .drw x y n) ∨
      (∃ x, i = .skp x) ∨ (∃ x, i = .sknp x) ∨ (∃ x, i = .ldB x) ∨ (∃ x, i = .storeRegs x) ∨
      ∃ x, i = .loadRegs x) ∧
    (t.display ≠ s.display → i = .cls ∨ ∃ x y n, i = .drw x y n) ∧
    (t.index ≠ s.index → (∃ nnn, i = .ldI nnn) ∨ (∃ x, i = .addI x) ∨ ∃ x, i = .ldF x) ∧
    (t.stack ≠ s.stack → i = .ret ∨ ∃ nnn, i = .call nnn) ∧
    (t.delay ≠ s.delay → ∃ x, i = .ldDtVx x) ∧
    (t.sound ≠ s.sound → ∃ x, i = .ldStVx x) ∧
    (t.mem ≠ s.mem → (∃ x, i = .ldB x) ∨ ∃ x, i = .storeRegs x) ∧
    (t.randomIn ≠ s.randomIn → ∃ x nn, i = .rnd x nn) ∧
    (t.draws ≠ s.draws → (∃ x nn, i = .rnd x nn) ∨ ∃ x, i = .ldVxK x) ∧
    t.keys = s.keys ∧ t.history = s.history ∧ t.schedule = s.schedule

/-- 60_exceptions R129 (and the record of R126): an instruction step that halts a running machine
records the address it was fetched from and its word, none for a fetch fault; `pc` is a + 2, a for a
fetch fault; every other component is as before; a halted machine makes no move of any kind. What a
fatal fault does to the machine is the spec's decision (D19, D32). -/
def Obligations.FatalFaultsArePrecise : Prop :=
  (∀ (s t : State) (f : FaultRecord), s.status = .running → instrStep s = .next t →
    t.status = .halted f →
    f.address = s.pc ∧
      ((f.word = none ∧ t.pc = s.pc ∧ 4096 ≤ s.pc.toNat + 1) ∨
        ∃ w, f.word = some w ∧ fetch s.mem s.pc.toNat = .ok w ∧ t.pc = s.pc + 2) ∧
      Frame [.status, .pc] s t) ∧
  ∀ (s : State) (f : FaultRecord) (m : Move), s.status = .halted f → act s m = s

/-- 10_state R33, 60_exceptions R129: a halted machine makes no step, tick or key event, ever. -/
def Obligations.HaltedMachineNeverMovesAgain : Prop :=
  ∀ (s : State) (f : FaultRecord), s.status = .halted f →
    (∀ k, core.run k s = .next s) ∧ ∀ l : List Move, runMoves s l = s

/-- 60_exceptions R143: the event history only grows, by at most one record a step. -/
def Obligations.EventHistoryOnlyGrows : Prop :=
  ∀ s t : State, step s = .next t →
    t.history = s.history ∨ ∃ e, t.history = s.history ++ [e]

/-- 10_state R26, R27, R28: memory in canonical form, `I` ≤ 0xFFF, at most 16 stack entries of at most
0x1000, `pc` ≤ 0x10FE; kept by every step from every state that meets it. -/
def Obligations.StepKeepsTheInvariant : Prop :=
  ∀ s t : State, s.Inv → step s = .next t → t.Inv

/-- 70_reset R159, `SCHEDULE` = free: the moves of any list, in any order, are a run of the machine
whose schedule is that list; nothing but the schedule itself tells the two apart. -/
def Obligations.EveryFreeScheduleIsARun : Prop :=
  ∀ (s : State) (l : List Move),
    ∃ t, core.run l.length (s.setSchedule l) = .next t ∧
      t.setSchedule [] = (runMoves (s.setSchedule []) l).setSchedule []

/-- 70_reset R159, `SCHEDULE` = `reference` (logs 1, 24): an iteration is the key events before it, which
touch only the keypad, then one instruction step, one tick and one publication; when the instruction
halts the machine the tick and the publication are not made. Every reference schedule keeps its ticks
coming. -/
def Obligations.ReferenceIterationIsStepTickPublish : Prop :=
  (∀ (s : State) (events : List KeyEvent) (rest : List (List KeyEvent)), s.status = .running →
    s.schedule = referenceSchedule (events :: rest) →
    let keyed := runMoves (s.setSchedule []) (events.map KeyEvent.move)
    Frame [.keys] (s.setSchedule []) keyed ∧
    ∃ u, instrStep keyed = .next u ∧
      (u.status = .running →
        core.run (events.length + 3) s = .next ((tick u).setSchedule (referenceSchedule rest))) ∧
      (u.status ≠ .running →
        core.run (events.length + 3) s =
          .next (u.setSchedule (.tick :: .publish :: referenceSchedule rest)))) ∧
  ∀ sched : Nat → Move, ReferenceSchedule sched → FairTicks sched

/-- 70_reset R161: from a parked state every instruction step leaves the state unchanged (but for the
move it takes off the schedule), and other moves leave it parked, changing only the timers, the keypad
and the event history. -/
def Obligations.ParkedMachineStaysParked : Prop :=
  (∀ s : State, s.Parked → nextMove s = .instr → step s = .next s.takeMove) ∧
  ∀ (s : State) (l : List Move), s.Parked → (runMoves s l).Parked ∧
    Frame [.delay, .sound, .keys, .history] s (runMoves s l)

/-- 70_reset R160: with ticks that keep coming, a parked machine's timers run down for good. -/
def Obligations.FairTicksRunTheTimersDown : Prop :=
  ∀ (s : State) (sched : Nat → Move), s.Parked → FairTicks sched →
    ∃ n, ∀ m, n ≤ m → (runMoves s (firstMoves sched m)).delay = 0 ∧
      (runMoves s (firstMoves sched m)).sound = 0
end

