-- ==== Sys2Proof/Laws/Decode.lean ====
section
/-! SUPPORT. The fields of a word and the words of the encoder's three forms, as numbers (30_encoding
R69, R71): each follows the other by linear arithmetic. -/

namespace Sys2Proof

/-! ### Fields as numbers -/

theorem fieldOp_toNat (w : Word) : (fieldOp w).toNat = w.toNat / 4096 := by
  have := w.isLt
  simp only [fieldOp, BitVec.extractLsb'_toNat, Nat.shiftRight_eq_div_pow]
  omega

theorem fieldX_val (w : Word) : (fieldX w).val = w.toNat / 256 % 16 := by
  show (BitVec.extractLsb' 8 4 w).toNat = _
  simp only [BitVec.extractLsb'_toNat, Nat.shiftRight_eq_div_pow]

theorem fieldY_val (w : Word) : (fieldY w).val = w.toNat / 16 % 16 := by
  show (BitVec.extractLsb' 4 4 w).toNat = _
  simp only [BitVec.extractLsb'_toNat, Nat.shiftRight_eq_div_pow]

theorem fieldN_toNat (w : Word) : (fieldN w).toNat = w.toNat % 16 := by
  simp [fieldN, BitVec.extractLsb'_toNat]

theorem fieldNN_toNat (w : Word) : (fieldNN w).toNat = w.toNat % 256 := by
  simp [fieldNN, BitVec.extractLsb'_toNat]

theorem fieldNNN_toNat (w : Word) : (fieldNNN w).toNat = w.toNat % 4096 := by
  simp [fieldNNN, BitVec.extractLsb'_toNat]

/-! ### Appended bits as numbers -/

theorem toNat_append_add {m n : Nat} (a : BitVec m) (b : BitVec n) :
    (a ++ b).toNat = a.toNat * 2 ^ n + b.toNat := by
  rw [BitVec.toNat_append, ← Nat.shiftLeft_add_eq_or_of_lt b.isLt, Nat.shiftLeft_eq]

theorem wordOfBytes_toNat (b1 b2 : Byte) :
    (wordOfBytes b1 b2).toNat = b1.toNat * 256 + b2.toNat :=
  toNat_append_add b1 b2

theorem formNNN_toNat (op : Nibble) (nnn : Addr12) :
    (formNNN op nnn).toNat = op.toNat * 4096 + nnn.toNat :=
  toNat_append_add op nnn

theorem formXNN_toNat (op : Nibble) (x : RegId) (nn : Byte) :
    (formXNN op x nn).toNat = op.toNat * 4096 + x.val * 256 + nn.toNat := by
  refine Eq.trans (toNat_append_add (op ++ BitVec.ofFin (w := 4) x) nn) ?_
  rw [toNat_append_add op]
  show (op.toNat * 2 ^ 4 + x.val) * 2 ^ 8 + nn.toNat = _
  omega

theorem formXYN_toNat (op : Nibble) (x y : RegId) (n : Nibble) :
    (formXYN op x y n).toNat = op.toNat * 4096 + x.val * 256 + y.val * 16 + n.toNat := by
  refine Eq.trans
    (toNat_append_add (op ++ BitVec.ofFin (w := 4) x ++ BitVec.ofFin (w := 4) y) n) ?_
  rw [toNat_append_add (op ++ BitVec.ofFin (w := 4) x), toNat_append_add op]
  show ((op.toNat * 2 ^ 4 + x.val) * 2 ^ 4 + y.val) * 2 ^ 4 + n.toNat = _
  omega

/-! ### Fields of the three forms -/

@[simp] theorem fieldOp_formNNN (op : Nibble) (nnn : Addr12) : fieldOp (formNNN op nnn) = op := by
  apply BitVec.eq_of_toNat_eq
  have := nnn.isLt
  rw [fieldOp_toNat, formNNN_toNat]; omega

@[simp] theorem fieldNNN_formNNN (op : Nibble) (nnn : Addr12) : fieldNNN (formNNN op nnn) = nnn := by
  apply BitVec.eq_of_toNat_eq
  have := nnn.isLt
  rw [fieldNNN_toNat, formNNN_toNat]; omega

@[simp] theorem fieldOp_formXNN (op : Nibble) (x : RegId) (nn : Byte) :
    fieldOp (formXNN op x nn) = op := by
  apply BitVec.eq_of_toNat_eq
  have := nn.isLt
  rw [fieldOp_toNat, formXNN_toNat]; omega

@[simp] theorem fieldX_formXNN (op : Nibble) (x : RegId) (nn : Byte) :
    fieldX (formXNN op x nn) = x := by
  apply Fin.ext
  have := nn.isLt
  rw [fieldX_val, formXNN_toNat]; omega

@[simp] theorem fieldNN_formXNN (op : Nibble) (x : RegId) (nn : Byte) :
    fieldNN (formXNN op x nn) = nn := by
  apply BitVec.eq_of_toNat_eq
  have := nn.isLt
  rw [fieldNN_toNat, formXNN_toNat]; omega

@[simp] theorem fieldOp_formXYN (op : Nibble) (x y : RegId) (n : Nibble) :
    fieldOp (formXYN op x y n) = op := by
  apply BitVec.eq_of_toNat_eq
  have := n.isLt
  rw [fieldOp_toNat, formXYN_toNat]; omega

@[simp] theorem fieldX_formXYN (op : Nibble) (x y : RegId) (n : Nibble) :
    fieldX (formXYN op x y n) = x := by
  apply Fin.ext
  have := n.isLt
  rw [fieldX_val, formXYN_toNat]; omega

@[simp] theorem fieldY_formXYN (op : Nibble) (x y : RegId) (n : Nibble) :
    fieldY (formXYN op x y n) = y := by
  apply Fin.ext
  have := n.isLt
  rw [fieldY_val, formXYN_toNat]; omega

@[simp] theorem fieldN_formXYN (op : Nibble) (x y : RegId) (n : Nibble) :
    fieldN (formXYN op x y n) = n := by
  apply BitVec.eq_of_toNat_eq
  have := n.isLt
  rw [fieldN_toNat, formXYN_toNat]; omega

/-! ### Words rebuilt from their fields -/

theorem formNNN_fields (w : Word) : formNNN (fieldOp w) (fieldNNN w) = w := by
  apply BitVec.eq_of_toNat_eq
  rw [formNNN_toNat, fieldOp_toNat, fieldNNN_toNat]; omega

theorem formXNN_fields (w : Word) : formXNN (fieldOp w) (fieldX w) (fieldNN w) = w := by
  apply BitVec.eq_of_toNat_eq
  rw [formXNN_toNat, fieldOp_toNat, fieldX_val, fieldNN_toNat]; omega

theorem formXYN_fields (w : Word) : formXYN (fieldOp w) (fieldX w) (fieldY w) (fieldN w) = w := by
  apply BitVec.eq_of_toNat_eq
  rw [formXYN_toNat, fieldOp_toNat, fieldX_val, fieldY_val, fieldN_toNat]; omega

/-! ### The decoder (30_encoding R72, R81) -/

/-- The word of an UnknownOpcode is the decoded word itself. -/
theorem decode_unknown {w u : Word} (h : decode w = .unknown u) : u = w := by
  unfold decode decodeFamily0 decodeFamily5 decodeFamily8 decodeFamily9 decodeFamilyE
    decodeFamilyF at h
  repeat' split at h
  all_goals first | exact (Decoded.unknown.inj h).symm | exact absurd h (by simp)

/-! ### The masks of R79 keep a word's fixed fields -/

theorem nat_and_mask (n k j : Nat) : n &&& ((2 ^ k - 1) * 2 ^ j) = n / 2 ^ j % 2 ^ k * 2 ^ j := by
  rw [← Nat.shiftLeft_eq, ← Nat.shiftLeft_eq, ← Nat.and_two_pow_sub_one_eq_mod,
    ← Nat.shiftRight_eq_div_pow, Nat.shiftLeft_and_distrib]
  apply Nat.eq_of_testBit_eq
  intro i
  simp only [Nat.testBit_and, Nat.testBit_shiftLeft, Nat.testBit_shiftRight]
  by_cases h : j ≤ i <;> simp [h]

theorem nat_and_two_masks (n k j l : Nat) (h : l ≤ j) :
    n &&& ((2 ^ k - 1) * 2 ^ j + (2 ^ l - 1)) = n / 2 ^ j % 2 ^ k * 2 ^ j + n % 2 ^ l := by
  have hpow : 2 ^ l ≤ 2 ^ j := Nat.pow_le_pow_right (by decide) h
  have hl : 2 ^ l - 1 < 2 ^ j :=
    Nat.lt_of_lt_of_le (Nat.sub_lt (Nat.two_pow_pos l) (by decide)) hpow
  have hm : n % 2 ^ l < 2 ^ j := Nat.lt_of_lt_of_le (Nat.mod_lt _ (Nat.two_pow_pos l)) hpow
  rw [← Nat.shiftLeft_eq, Nat.shiftLeft_add_eq_or_of_lt hl, Nat.and_or_distrib_left,
    Nat.shiftLeft_eq, nat_and_mask, Nat.and_two_pow_sub_one_eq_mod, ← Nat.shiftLeft_eq,
    Nat.shiftLeft_add_eq_or_of_lt hm]

theorem and_maskOp (w : Word) : (w &&& 0xF000#16).toNat = w.toNat / 4096 * 4096 := by
  have h := nat_and_mask w.toNat 4 12
  have := w.isLt
  refine Eq.trans (BitVec.toNat_and w _) (Eq.trans h ?_)
  omega

theorem and_maskOpN (w : Word) :
    (w &&& 0xF00F#16).toNat = w.toNat / 4096 * 4096 + w.toNat % 16 := by
  have h := nat_and_two_masks w.toNat 4 12 4 (by decide)
  have := w.isLt
  refine Eq.trans (BitVec.toNat_and w _) (Eq.trans h ?_)
  omega

theorem and_maskOpNN (w : Word) :
    (w &&& 0xF0FF#16).toNat = w.toNat / 4096 * 4096 + w.toNat % 256 := by
  have h := nat_and_two_masks w.toNat 4 12 8 (by decide)
  have := w.isLt
  refine Eq.trans (BitVec.toNat_and w _) (Eq.trans h ?_)
  omega

/-! ### Bytes of a word -/

theorem wordOfBytes_bytes (w : Word) : wordOfBytes (highByte w) (lowByte w) = w := by
  apply BitVec.eq_of_toNat_eq
  have := w.isLt
  have h1 : (highByte w).toNat = w.toNat / 256 := by
    simp only [highByte, BitVec.extractLsb'_toNat, Nat.shiftRight_eq_div_pow]; omega
  have h2 : (lowByte w).toNat = w.toNat % 256 := by
    simp [lowByte, BitVec.extractLsb'_toNat]
  rw [wordOfBytes_toNat, h1, h2]; omega

end Sys2Proof
end

