-- ==== Sys2Proof/Laws/State.lean ====
section
/-! SUPPORT. One lemma per field per named update of the state, true by `rfl`, and the reads of a
register through the updates. -/

namespace Sys2Proof.Machine

/-! ### setPc -/

@[simp] theorem State.setPc_v (s : State) (t : Word) :
    (s.setPc t).v = s.v := rfl
@[simp] theorem State.setPc_pc (s : State) (t : Word) :
    (s.setPc t).pc = t := rfl
@[simp] theorem State.setPc_index (s : State) (t : Word) :
    (s.setPc t).index = s.index := rfl
@[simp] theorem State.setPc_stack (s : State) (t : Word) :
    (s.setPc t).stack = s.stack := rfl
@[simp] theorem State.setPc_delay (s : State) (t : Word) :
    (s.setPc t).delay = s.delay := rfl
@[simp] theorem State.setPc_sound (s : State) (t : Word) :
    (s.setPc t).sound = s.sound := rfl
@[simp] theorem State.setPc_display (s : State) (t : Word) :
    (s.setPc t).display = s.display := rfl
@[simp] theorem State.setPc_keys (s : State) (t : Word) :
    (s.setPc t).keys = s.keys := rfl
@[simp] theorem State.setPc_mem (s : State) (t : Word) :
    (s.setPc t).mem = s.mem := rfl
@[simp] theorem State.setPc_status (s : State) (t : Word) :
    (s.setPc t).status = s.status := rfl
@[simp] theorem State.setPc_history (s : State) (t : Word) :
    (s.setPc t).history = s.history := rfl
@[simp] theorem State.setPc_schedule (s : State) (t : Word) :
    (s.setPc t).schedule = s.schedule := rfl
@[simp] theorem State.setPc_randomIn (s : State) (t : Word) :
    (s.setPc t).randomIn = s.randomIn := rfl
@[simp] theorem State.setPc_draws (s : State) (t : Word) :
    (s.setPc t).draws = s.draws := rfl
@[simp] theorem State.setPc_reg (s : State) (t : Word) (j : RegId) :
    (s.setPc t).reg j = s.reg j := rfl

/-! ### setIndex -/

@[simp] theorem State.setIndex_v (s : State) (t : Word) :
    (s.setIndex t).v = s.v := rfl
@[simp] theorem State.setIndex_pc (s : State) (t : Word) :
    (s.setIndex t).pc = s.pc := rfl
@[simp] theorem State.setIndex_index (s : State) (t : Word) :
    (s.setIndex t).index = t := rfl
@[simp] theorem State.setIndex_stack (s : State) (t : Word) :
    (s.setIndex t).stack = s.stack := rfl
@[simp] theorem State.setIndex_delay (s : State) (t : Word) :
    (s.setIndex t).delay = s.delay := rfl
@[simp] theorem State.setIndex_sound (s : State) (t : Word) :
    (s.setIndex t).sound = s.sound := rfl
@[simp] theorem State.setIndex_display (s : State) (t : Word) :
    (s.setIndex t).display = s.display := rfl
@[simp] theorem State.setIndex_keys (s : State) (t : Word) :
    (s.setIndex t).keys = s.keys := rfl
@[simp] theorem State.setIndex_mem (s : State) (t : Word) :
    (s.setIndex t).mem = s.mem := rfl
@[simp] theorem State.setIndex_status (s : State) (t : Word) :
    (s.setIndex t).status = s.status := rfl
@[simp] theorem State.setIndex_history (s : State) (t : Word) :
    (s.setIndex t).history = s.history := rfl
@[simp] theorem State.setIndex_schedule (s : State) (t : Word) :
    (s.setIndex t).schedule = s.schedule := rfl
@[simp] theorem State.setIndex_randomIn (s : State) (t : Word) :
    (s.setIndex t).randomIn = s.randomIn := rfl
@[simp] theorem State.setIndex_draws (s : State) (t : Word) :
    (s.setIndex t).draws = s.draws := rfl
@[simp] theorem State.setIndex_reg (s : State) (t : Word) (j : RegId) :
    (s.setIndex t).reg j = s.reg j := rfl

/-! ### setStack -/

@[simp] theorem State.setStack_v (s : State) (t : List Word) :
    (s.setStack t).v = s.v := rfl
@[simp] theorem State.setStack_pc (s : State) (t : List Word) :
    (s.setStack t).pc = s.pc := rfl
@[simp] theorem State.setStack_index (s : State) (t : List Word) :
    (s.setStack t).index = s.index := rfl
@[simp] theorem State.setStack_stack (s : State) (t : List Word) :
    (s.setStack t).stack = t := rfl
@[simp] theorem State.setStack_delay (s : State) (t : List Word) :
    (s.setStack t).delay = s.delay := rfl
@[simp] theorem State.setStack_sound (s : State) (t : List Word) :
    (s.setStack t).sound = s.sound := rfl
@[simp] theorem State.setStack_display (s : State) (t : List Word) :
    (s.setStack t).display = s.display := rfl
@[simp] theorem State.setStack_keys (s : State) (t : List Word) :
    (s.setStack t).keys = s.keys := rfl
@[simp] theorem State.setStack_mem (s : State) (t : List Word) :
    (s.setStack t).mem = s.mem := rfl
@[simp] theorem State.setStack_status (s : State) (t : List Word) :
    (s.setStack t).status = s.status := rfl
@[simp] theorem State.setStack_history (s : State) (t : List Word) :
    (s.setStack t).history = s.history := rfl
@[simp] theorem State.setStack_schedule (s : State) (t : List Word) :
    (s.setStack t).schedule = s.schedule := rfl
@[simp] theorem State.setStack_randomIn (s : State) (t : List Word) :
    (s.setStack t).randomIn = s.randomIn := rfl
@[simp] theorem State.setStack_draws (s : State) (t : List Word) :
    (s.setStack t).draws = s.draws := rfl
@[simp] theorem State.setStack_reg (s : State) (t : List Word) (j : RegId) :
    (s.setStack t).reg j = s.reg j := rfl

/-! ### setDelay -/

@[simp] theorem State.setDelay_v (s : State) (b : Byte) :
    (s.setDelay b).v = s.v := rfl
@[simp] theorem State.setDelay_pc (s : State) (b : Byte) :
    (s.setDelay b).pc = s.pc := rfl
@[simp] theorem State.setDelay_index (s : State) (b : Byte) :
    (s.setDelay b).index = s.index := rfl
@[simp] theorem State.setDelay_stack (s : State) (b : Byte) :
    (s.setDelay b).stack = s.stack := rfl
@[simp] theorem State.setDelay_delay (s : State) (b : Byte) :
    (s.setDelay b).delay = b := rfl
@[simp] theorem State.setDelay_sound (s : State) (b : Byte) :
    (s.setDelay b).sound = s.sound := rfl
@[simp] theorem State.setDelay_display (s : State) (b : Byte) :
    (s.setDelay b).display = s.display := rfl
@[simp] theorem State.setDelay_keys (s : State) (b : Byte) :
    (s.setDelay b).keys = s.keys := rfl
@[simp] theorem State.setDelay_mem (s : State) (b : Byte) :
    (s.setDelay b).mem = s.mem := rfl
@[simp] theorem State.setDelay_status (s : State) (b : Byte) :
    (s.setDelay b).status = s.status := rfl
@[simp] theorem State.setDelay_history (s : State) (b : Byte) :
    (s.setDelay b).history = s.history := rfl
@[simp] theorem State.setDelay_schedule (s : State) (b : Byte) :
    (s.setDelay b).schedule = s.schedule := rfl
@[simp] theorem State.setDelay_randomIn (s : State) (b : Byte) :
    (s.setDelay b).randomIn = s.randomIn := rfl
@[simp] theorem State.setDelay_draws (s : State) (b : Byte) :
    (s.setDelay b).draws = s.draws := rfl
@[simp] theorem State.setDelay_reg (s : State) (b : Byte) (j : RegId) :
    (s.setDelay b).reg j = s.reg j := rfl

/-! ### setSound -/

@[simp] theorem State.setSound_v (s : State) (b : Byte) :
    (s.setSound b).v = s.v := rfl
@[simp] theorem State.setSound_pc (s : State) (b : Byte) :
    (s.setSound b).pc = s.pc := rfl
@[simp] theorem State.setSound_index (s : State) (b : Byte) :
    (s.setSound b).index = s.index := rfl
@[simp] theorem State.setSound_stack (s : State) (b : Byte) :
    (s.setSound b).stack = s.stack := rfl
@[simp] theorem State.setSound_delay (s : State) (b : Byte) :
    (s.setSound b).delay = s.delay := rfl
@[simp] theorem State.setSound_sound (s : State) (b : Byte) :
    (s.setSound b).sound = b := rfl
@[simp] theorem State.setSound_display (s : State) (b : Byte) :
    (s.setSound b).display = s.display := rfl
@[simp] theorem State.setSound_keys (s : State) (b : Byte) :
    (s.setSound b).keys = s.keys := rfl
@[simp] theorem State.setSound_mem (s : State) (b : Byte) :
    (s.setSound b).mem = s.mem := rfl
@[simp] theorem State.setSound_status (s : State) (b : Byte) :
    (s.setSound b).status = s.status := rfl
@[simp] theorem State.setSound_history (s : State) (b : Byte) :
    (s.setSound b).history = s.history := rfl
@[simp] theorem State.setSound_schedule (s : State) (b : Byte) :
    (s.setSound b).schedule = s.schedule := rfl
@[simp] theorem State.setSound_randomIn (s : State) (b : Byte) :
    (s.setSound b).randomIn = s.randomIn := rfl
@[simp] theorem State.setSound_draws (s : State) (b : Byte) :
    (s.setSound b).draws = s.draws := rfl
@[simp] theorem State.setSound_reg (s : State) (b : Byte) (j : RegId) :
    (s.setSound b).reg j = s.reg j := rfl

/-! ### setDisplay -/

@[simp] theorem State.setDisplay_v (s : State) (d : Display) :
    (s.setDisplay d).v = s.v := rfl
@[simp] theorem State.setDisplay_pc (s : State) (d : Display) :
    (s.setDisplay d).pc = s.pc := rfl
@[simp] theorem State.setDisplay_index (s : State) (d : Display) :
    (s.setDisplay d).index = s.index := rfl
@[simp] theorem State.setDisplay_stack (s : State) (d : Display) :
    (s.setDisplay d).stack = s.stack := rfl
@[simp] theorem State.setDisplay_delay (s : State) (d : Display) :
    (s.setDisplay d).delay = s.delay := rfl
@[simp] theorem State.setDisplay_sound (s : State) (d : Display) :
    (s.setDisplay d).sound = s.sound := rfl
@[simp] theorem State.setDisplay_display (s : State) (d : Display) :
    (s.setDisplay d).display = d := rfl
@[simp] theorem State.setDisplay_keys (s : State) (d : Display) :
    (s.setDisplay d).keys = s.keys := rfl
@[simp] theorem State.setDisplay_mem (s : State) (d : Display) :
    (s.setDisplay d).mem = s.mem := rfl
@[simp] theorem State.setDisplay_status (s : State) (d : Display) :
    (s.setDisplay d).status = s.status := rfl
@[simp] theorem State.setDisplay_history (s : State) (d : Display) :
    (s.setDisplay d).history = s.history := rfl
@[simp] theorem State.setDisplay_schedule (s : State) (d : Display) :
    (s.setDisplay d).schedule = s.schedule := rfl
@[simp] theorem State.setDisplay_randomIn (s : State) (d : Display) :
    (s.setDisplay d).randomIn = s.randomIn := rfl
@[simp] theorem State.setDisplay_draws (s : State) (d : Display) :
    (s.setDisplay d).draws = s.draws := rfl
@[simp] theorem State.setDisplay_reg (s : State) (d : Display) (j : RegId) :
    (s.setDisplay d).reg j = s.reg j := rfl

/-! ### setKey -/

@[simp] theorem State.setKey_v (s : State) (k : KeyId) (b : Bool) :
    (s.setKey k b).v = s.v := rfl
@[simp] theorem State.setKey_pc (s : State) (k : KeyId) (b : Bool) :
    (s.setKey k b).pc = s.pc := rfl
@[simp] theorem State.setKey_index (s : State) (k : KeyId) (b : Bool) :
    (s.setKey k b).index = s.index := rfl
@[simp] theorem State.setKey_stack (s : State) (k : KeyId) (b : Bool) :
    (s.setKey k b).stack = s.stack := rfl
@[simp] theorem State.setKey_delay (s : State) (k : KeyId) (b : Bool) :
    (s.setKey k b).delay = s.delay := rfl
@[simp] theorem State.setKey_sound (s : State) (k : KeyId) (b : Bool) :
    (s.setKey k b).sound = s.sound := rfl
@[simp] theorem State.setKey_display (s : State) (k : KeyId) (b : Bool) :
    (s.setKey k b).display = s.display := rfl
@[simp] theorem State.setKey_keys (s : State) (k : KeyId) (b : Bool) :
    (s.setKey k b).keys = s.keys.set k b := rfl
@[simp] theorem State.setKey_mem (s : State) (k : KeyId) (b : Bool) :
    (s.setKey k b).mem = s.mem := rfl
@[simp] theorem State.setKey_status (s : State) (k : KeyId) (b : Bool) :
    (s.setKey k b).status = s.status := rfl
@[simp] theorem State.setKey_history (s : State) (k : KeyId) (b : Bool) :
    (s.setKey k b).history = s.history := rfl
@[simp] theorem State.setKey_schedule (s : State) (k : KeyId) (b : Bool) :
    (s.setKey k b).schedule = s.schedule := rfl
@[simp] theorem State.setKey_randomIn (s : State) (k : KeyId) (b : Bool) :
    (s.setKey k b).randomIn = s.randomIn := rfl
@[simp] theorem State.setKey_draws (s : State) (k : KeyId) (b : Bool) :
    (s.setKey k b).draws = s.draws := rfl
@[simp] theorem State.setKey_reg (s : State) (k : KeyId) (b : Bool) (j : RegId) :
    (s.setKey k b).reg j = s.reg j := rfl

/-! ### setMem -/

@[simp] theorem State.setMem_v (s : State) (m : Memory) :
    (s.setMem m).v = s.v := rfl
@[simp] theorem State.setMem_pc (s : State) (m : Memory) :
    (s.setMem m).pc = s.pc := rfl
@[simp] theorem State.setMem_index (s : State) (m : Memory) :
    (s.setMem m).index = s.index := rfl
@[simp] theorem State.setMem_stack (s : State) (m : Memory) :
    (s.setMem m).stack = s.stack := rfl
@[simp] theorem State.setMem_delay (s : State) (m : Memory) :
    (s.setMem m).delay = s.delay := rfl
@[simp] theorem State.setMem_sound (s : State) (m : Memory) :
    (s.setMem m).sound = s.sound := rfl
@[simp] theorem State.setMem_display (s : State) (m : Memory) :
    (s.setMem m).display = s.display := rfl
@[simp] theorem State.setMem_keys (s : State) (m : Memory) :
    (s.setMem m).keys = s.keys := rfl
@[simp] theorem State.setMem_mem (s : State) (m : Memory) :
    (s.setMem m).mem = m := rfl
@[simp] theorem State.setMem_status (s : State) (m : Memory) :
    (s.setMem m).status = s.status := rfl
@[simp] theorem State.setMem_history (s : State) (m : Memory) :
    (s.setMem m).history = s.history := rfl
@[simp] theorem State.setMem_schedule (s : State) (m : Memory) :
    (s.setMem m).schedule = s.schedule := rfl
@[simp] theorem State.setMem_randomIn (s : State) (m : Memory) :
    (s.setMem m).randomIn = s.randomIn := rfl
@[simp] theorem State.setMem_draws (s : State) (m : Memory) :
    (s.setMem m).draws = s.draws := rfl
@[simp] theorem State.setMem_reg (s : State) (m : Memory) (j : RegId) :
    (s.setMem m).reg j = s.reg j := rfl

/-! ### setRegs -/

@[simp] theorem State.setRegs_v (s : State) (v : Vector Byte 16) :
    (s.setRegs v).v = v := rfl
@[simp] theorem State.setRegs_pc (s : State) (v : Vector Byte 16) :
    (s.setRegs v).pc = s.pc := rfl
@[simp] theorem State.setRegs_index (s : State) (v : Vector Byte 16) :
    (s.setRegs v).index = s.index := rfl
@[simp] theorem State.setRegs_stack (s : State) (v : Vector Byte 16) :
    (s.setRegs v).stack = s.stack := rfl
@[simp] theorem State.setRegs_delay (s : State) (v : Vector Byte 16) :
    (s.setRegs v).delay = s.delay := rfl
@[simp] theorem State.setRegs_sound (s : State) (v : Vector Byte 16) :
    (s.setRegs v).sound = s.sound := rfl
@[simp] theorem State.setRegs_display (s : State) (v : Vector Byte 16) :
    (s.setRegs v).display = s.display := rfl
@[simp] theorem State.setRegs_keys (s : State) (v : Vector Byte 16) :
    (s.setRegs v).keys = s.keys := rfl
@[simp] theorem State.setRegs_mem (s : State) (v : Vector Byte 16) :
    (s.setRegs v).mem = s.mem := rfl
@[simp] theorem State.setRegs_status (s : State) (v : Vector Byte 16) :
    (s.setRegs v).status = s.status := rfl
@[simp] theorem State.setRegs_history (s : State) (v : Vector Byte 16) :
    (s.setRegs v).history = s.history := rfl
@[simp] theorem State.setRegs_schedule (s : State) (v : Vector Byte 16) :
    (s.setRegs v).schedule = s.schedule := rfl
@[simp] theorem State.setRegs_randomIn (s : State) (v : Vector Byte 16) :
    (s.setRegs v).randomIn = s.randomIn := rfl
@[simp] theorem State.setRegs_draws (s : State) (v : Vector Byte 16) :
    (s.setRegs v).draws = s.draws := rfl

/-! ### emit -/

@[simp] theorem State.emit_v (s : State) (e : Emission) :
    (s.emit e).v = s.v := rfl
@[simp] theorem State.emit_pc (s : State) (e : Emission) :
    (s.emit e).pc = s.pc := rfl
@[simp] theorem State.emit_index (s : State) (e : Emission) :
    (s.emit e).index = s.index := rfl
@[simp] theorem State.emit_stack (s : State) (e : Emission) :
    (s.emit e).stack = s.stack := rfl
@[simp] theorem State.emit_delay (s : State) (e : Emission) :
    (s.emit e).delay = s.delay := rfl
@[simp] theorem State.emit_sound (s : State) (e : Emission) :
    (s.emit e).sound = s.sound := rfl
@[simp] theorem State.emit_display (s : State) (e : Emission) :
    (s.emit e).display = s.display := rfl
@[simp] theorem State.emit_keys (s : State) (e : Emission) :
    (s.emit e).keys = s.keys := rfl
@[simp] theorem State.emit_mem (s : State) (e : Emission) :
    (s.emit e).mem = s.mem := rfl
@[simp] theorem State.emit_status (s : State) (e : Emission) :
    (s.emit e).status = s.status := rfl
@[simp] theorem State.emit_history (s : State) (e : Emission) :
    (s.emit e).history = s.history ++ [e] := rfl
@[simp] theorem State.emit_schedule (s : State) (e : Emission) :
    (s.emit e).schedule = s.schedule := rfl
@[simp] theorem State.emit_randomIn (s : State) (e : Emission) :
    (s.emit e).randomIn = s.randomIn := rfl
@[simp] theorem State.emit_draws (s : State) (e : Emission) :
    (s.emit e).draws = s.draws := rfl
@[simp] theorem State.emit_reg (s : State) (e : Emission) (j : RegId) :
    (s.emit e).reg j = s.reg j := rfl

/-! ### setSchedule -/

@[simp] theorem State.setSchedule_v (s : State) (l : List Move) :
    (s.setSchedule l).v = s.v := rfl
@[simp] theorem State.setSchedule_pc (s : State) (l : List Move) :
    (s.setSchedule l).pc = s.pc := rfl
@[simp] theorem State.setSchedule_index (s : State) (l : List Move) :
    (s.setSchedule l).index = s.index := rfl
@[simp] theorem State.setSchedule_stack (s : State) (l : List Move) :
    (s.setSchedule l).stack = s.stack := rfl
@[simp] theorem State.setSchedule_delay (s : State) (l : List Move) :
    (s.setSchedule l).delay = s.delay := rfl
@[simp] theorem State.setSchedule_sound (s : State) (l : List Move) :
    (s.setSchedule l).sound = s.sound := rfl
@[simp] theorem State.setSchedule_display (s : State) (l : List Move) :
    (s.setSchedule l).display = s.display := rfl
@[simp] theorem State.setSchedule_keys (s : State) (l : List Move) :
    (s.setSchedule l).keys = s.keys := rfl
@[simp] theorem State.setSchedule_mem (s : State) (l : List Move) :
    (s.setSchedule l).mem = s.mem := rfl
@[simp] theorem State.setSchedule_status (s : State) (l : List Move) :
    (s.setSchedule l).status = s.status := rfl
@[simp] theorem State.setSchedule_history (s : State) (l : List Move) :
    (s.setSchedule l).history = s.history := rfl
@[simp] theorem State.setSchedule_schedule (s : State) (l : List Move) :
    (s.setSchedule l).schedule = l := rfl
@[simp] theorem State.setSchedule_randomIn (s : State) (l : List Move) :
    (s.setSchedule l).randomIn = s.randomIn := rfl
@[simp] theorem State.setSchedule_draws (s : State) (l : List Move) :
    (s.setSchedule l).draws = s.draws := rfl
@[simp] theorem State.setSchedule_reg (s : State) (l : List Move) (j : RegId) :
    (s.setSchedule l).reg j = s.reg j := rfl

/-! ### countDraw -/

@[simp] theorem State.countDraw_v (s : State) (l : List Byte) :
    (s.countDraw l).v = s.v := rfl
@[simp] theorem State.countDraw_pc (s : State) (l : List Byte) :
    (s.countDraw l).pc = s.pc := rfl
@[simp] theorem State.countDraw_index (s : State) (l : List Byte) :
    (s.countDraw l).index = s.index := rfl
@[simp] theorem State.countDraw_stack (s : State) (l : List Byte) :
    (s.countDraw l).stack = s.stack := rfl
@[simp] theorem State.countDraw_delay (s : State) (l : List Byte) :
    (s.countDraw l).delay = s.delay := rfl
@[simp] theorem State.countDraw_sound (s : State) (l : List Byte) :
    (s.countDraw l).sound = s.sound := rfl
@[simp] theorem State.countDraw_display (s : State) (l : List Byte) :
    (s.countDraw l).display = s.display := rfl
@[simp] theorem State.countDraw_keys (s : State) (l : List Byte) :
    (s.countDraw l).keys = s.keys := rfl
@[simp] theorem State.countDraw_mem (s : State) (l : List Byte) :
    (s.countDraw l).mem = s.mem := rfl
@[simp] theorem State.countDraw_status (s : State) (l : List Byte) :
    (s.countDraw l).status = s.status := rfl
@[simp] theorem State.countDraw_history (s : State) (l : List Byte) :
    (s.countDraw l).history = s.history := rfl
@[simp] theorem State.countDraw_schedule (s : State) (l : List Byte) :
    (s.countDraw l).schedule = s.schedule := rfl
@[simp] theorem State.countDraw_randomIn (s : State) (l : List Byte) :
    (s.countDraw l).randomIn = l := rfl
@[simp] theorem State.countDraw_draws (s : State) (l : List Byte) :
    (s.countDraw l).draws = s.draws + 1 := rfl
@[simp] theorem State.countDraw_reg (s : State) (l : List Byte) (j : RegId) :
    (s.countDraw l).reg j = s.reg j := rfl

/-! ### halt -/

@[simp] theorem State.halt_v (s : State) (k : FatalKind) (w : Option Word) (a : Word) :
    (s.halt k w a).v = s.v := rfl
@[simp] theorem State.halt_pc (s : State) (k : FatalKind) (w : Option Word) (a : Word) :
    (s.halt k w a).pc = s.pc := rfl
@[simp] theorem State.halt_index (s : State) (k : FatalKind) (w : Option Word) (a : Word) :
    (s.halt k w a).index = s.index := rfl
@[simp] theorem State.halt_stack (s : State) (k : FatalKind) (w : Option Word) (a : Word) :
    (s.halt k w a).stack = s.stack := rfl
@[simp] theorem State.halt_delay (s : State) (k : FatalKind) (w : Option Word) (a : Word) :
    (s.halt k w a).delay = s.delay := rfl
@[simp] theorem State.halt_sound (s : State) (k : FatalKind) (w : Option Word) (a : Word) :
    (s.halt k w a).sound = s.sound := rfl
@[simp] theorem State.halt_display (s : State) (k : FatalKind) (w : Option Word) (a : Word) :
    (s.halt k w a).display = s.display := rfl
@[simp] theorem State.halt_keys (s : State) (k : FatalKind) (w : Option Word) (a : Word) :
    (s.halt k w a).keys = s.keys := rfl
@[simp] theorem State.halt_mem (s : State) (k : FatalKind) (w : Option Word) (a : Word) :
    (s.halt k w a).mem = s.mem := rfl
@[simp] theorem State.halt_status (s : State) (k : FatalKind) (w : Option Word) (a : Word) :
    (s.halt k w a).status = .halted { kind := k, word := w, address := a } := rfl
@[simp] theorem State.halt_history (s : State) (k : FatalKind) (w : Option Word) (a : Word) :
    (s.halt k w a).history = s.history := rfl
@[simp] theorem State.halt_schedule (s : State) (k : FatalKind) (w : Option Word) (a : Word) :
    (s.halt k w a).schedule = s.schedule := rfl
@[simp] theorem State.halt_randomIn (s : State) (k : FatalKind) (w : Option Word) (a : Word) :
    (s.halt k w a).randomIn = s.randomIn := rfl
@[simp] theorem State.halt_draws (s : State) (k : FatalKind) (w : Option Word) (a : Word) :
    (s.halt k w a).draws = s.draws := rfl
@[simp] theorem State.halt_reg (s : State) (k : FatalKind) (w : Option Word) (a : Word) (j : RegId) :
    (s.halt k w a).reg j = s.reg j := rfl

/-! ### setReg -/

@[simp] theorem State.setReg_v (s : State) (i : RegId) (b : Byte) :
    (s.setReg i b).v = s.v.set i b := rfl
@[simp] theorem State.setReg_pc (s : State) (i : RegId) (b : Byte) :
    (s.setReg i b).pc = s.pc := rfl
@[simp] theorem State.setReg_index (s : State) (i : RegId) (b : Byte) :
    (s.setReg i b).index = s.index := rfl
@[simp] theorem State.setReg_stack (s : State) (i : RegId) (b : Byte) :
    (s.setReg i b).stack = s.stack := rfl
@[simp] theorem State.setReg_delay (s : State) (i : RegId) (b : Byte) :
    (s.setReg i b).delay = s.delay := rfl
@[simp] theorem State.setReg_sound (s : State) (i : RegId) (b : Byte) :
    (s.setReg i b).sound = s.sound := rfl
@[simp] theorem State.setReg_display (s : State) (i : RegId) (b : Byte) :
    (s.setReg i b).display = s.display := rfl
@[simp] theorem State.setReg_keys (s : State) (i : RegId) (b : Byte) :
    (s.setReg i b).keys = s.keys := rfl
@[simp] theorem State.setReg_mem (s : State) (i : RegId) (b : Byte) :
    (s.setReg i b).mem = s.mem := rfl
@[simp] theorem State.setReg_status (s : State) (i : RegId) (b : Byte) :
    (s.setReg i b).status = s.status := rfl
@[simp] theorem State.setReg_history (s : State) (i : RegId) (b : Byte) :
    (s.setReg i b).history = s.history := rfl
@[simp] theorem State.setReg_schedule (s : State) (i : RegId) (b : Byte) :
    (s.setReg i b).schedule = s.schedule := rfl
@[simp] theorem State.setReg_randomIn (s : State) (i : RegId) (b : Byte) :
    (s.setReg i b).randomIn = s.randomIn := rfl
@[simp] theorem State.setReg_draws (s : State) (i : RegId) (b : Byte) :
    (s.setReg i b).draws = s.draws := rfl

/-! ### setFlag -/

@[simp] theorem State.setFlag_v (s : State) (f : Bool) :
    (s.setFlag f).v = s.v.set vF (flagByte f) := rfl
@[simp] theorem State.setFlag_pc (s : State) (f : Bool) :
    (s.setFlag f).pc = s.pc := rfl
@[simp] theorem State.setFlag_index (s : State) (f : Bool) :
    (s.setFlag f).index = s.index := rfl
@[simp] theorem State.setFlag_stack (s : State) (f : Bool) :
    (s.setFlag f).stack = s.stack := rfl
@[simp] theorem State.setFlag_delay (s : State) (f : Bool) :
    (s.setFlag f).delay = s.delay := rfl
@[simp] theorem State.setFlag_sound (s : State) (f : Bool) :
    (s.setFlag f).sound = s.sound := rfl
@[simp] theorem State.setFlag_display (s : State) (f : Bool) :
    (s.setFlag f).display = s.display := rfl
@[simp] theorem State.setFlag_keys (s : State) (f : Bool) :
    (s.setFlag f).keys = s.keys := rfl
@[simp] theorem State.setFlag_mem (s : State) (f : Bool) :
    (s.setFlag f).mem = s.mem := rfl
@[simp] theorem State.setFlag_status (s : State) (f : Bool) :
    (s.setFlag f).status = s.status := rfl
@[simp] theorem State.setFlag_history (s : State) (f : Bool) :
    (s.setFlag f).history = s.history := rfl
@[simp] theorem State.setFlag_schedule (s : State) (f : Bool) :
    (s.setFlag f).schedule = s.schedule := rfl
@[simp] theorem State.setFlag_randomIn (s : State) (f : Bool) :
    (s.setFlag f).randomIn = s.randomIn := rfl
@[simp] theorem State.setFlag_draws (s : State) (f : Bool) :
    (s.setFlag f).draws = s.draws := rfl

/-! ### Registers -/

@[simp] theorem State.setReg_reg_self (s : State) (i : RegId) (b : Byte) :
    (s.setReg i b).reg i = b := by
  simp [State.reg]

theorem State.setReg_reg_ne (s : State) {i j : RegId} (b : Byte) (h : j ≠ i) :
    (s.setReg i b).reg j = s.reg j := by
  have : i.val ≠ j.val := fun e => h (Fin.ext e.symm)
  simp [State.reg, this]

theorem State.setReg_reg (s : State) (i j : RegId) (b : Byte) :
    (s.setReg i b).reg j = if j = i then b else s.reg j := by
  split
  · next h => subst h; exact State.setReg_reg_self s j b
  · next h => exact State.setReg_reg_ne s b h

theorem State.setFlag_reg (s : State) (f : Bool) (j : RegId) :
    (s.setFlag f).reg j = if j = vF then flagByte f else s.reg j :=
  State.setReg_reg s vF j _

@[simp] theorem State.setFlag_reg_vF (s : State) (f : Bool) : (s.setFlag f).reg vF = flagByte f := by
  simp [State.setFlag_reg]

theorem State.loadRegsFrom_reg (s : State) (bs : List Byte) (j : RegId) :
    (s.loadRegsFrom bs).reg j = bs.getD j.val (s.reg j) := by
  simp [State.loadRegsFrom, State.reg]

@[simp] theorem State.setKey_key_self (s : State) (k : KeyId) (b : Bool) :
    (s.setKey k b).key k = b := by
  simp [State.key]

theorem State.setKey_key_ne (s : State) {k j : KeyId} (b : Bool) (h : j ≠ k) :
    (s.setKey k b).key j = s.key j := by
  have : k.val ≠ j.val := fun e => h (Fin.ext e.symm)
  simp [State.key, this]

/-- Two states with the same registers by `reg` have the same register file. -/
theorem State.v_ext {s t : State} (h : ∀ i, t.reg i = s.reg i) : t.v = s.v :=
  Vector.ext fun i hi => h ⟨i, hi⟩

end Sys2Proof.Machine
end

