-- ==== Sys2Proof/Laws/Drawing.lean ====
section
/-! SUPPORT. What drawing a sprite does to each pixel and to the collision flag (43_display R115): the
loops of the model, pixel by pixel. -/

namespace Sys2Proof.Machine

theorem Display.flip_pixel (d : Display) (r r' : Fin 32) (c c' : Fin 64) :
    (d.flip r c).pixel r' c' = (d.pixel r' c' ^^ decide (r' = r ∧ c' = c)) := by
  unfold Display.flip Display.pixel
  by_cases hr : r' = r
  · subst hr
    by_cases hc : c' = c
    · subst hc; simp
    · have : c.val ≠ c'.val := fun e => hc (Fin.ext e.symm)
      simp [this, hc]
  · have : r.val ≠ r'.val := fun e => hr (Fin.ext e.symm)
    simp [this, hr]

@[simp] theorem Display.blank_pixel (r : Fin 32) (c : Fin 64) : Display.blank.pixel r c = false := by
  simp [Display.blank, Display.pixel]

/-- Two displays with the same pixels are the same. -/
theorem Display.ext_pixel {d e : Display} (h : ∀ r c, d.pixel r c = e.pixel r c) : d = e :=
  Vector.ext fun i hi => Vector.ext fun j hj => h ⟨i, hi⟩ ⟨j, hj⟩

/-- A 1 bit of the sprite byte falls on column c' when its columns `cs` are drawn from x0. -/
def ColumnOn (x0 : Nat) (b : Byte) (cs : List Nat) (c' : Nat) : Prop :=
  ∃ c ∈ cs, x0 + c = c' ∧ spriteBit b c = true

/-- What one column does: flip its pixel, if it is inside the grid and its bit is 1. -/
theorem drawColumn_cases (r : Fin 32) (x0 : Nat) (b : Byte) (acc : Display × Bool) (c : Nat) :
    (∃ h : x0 + c < 64, spriteBit b c = true ∧
        drawColumn r x0 b acc c =
          (acc.1.flip r ⟨x0 + c, h⟩, acc.2 || acc.1.pixel r ⟨x0 + c, h⟩)) ∨
      (¬ (x0 + c < 64 ∧ spriteBit b c = true) ∧ drawColumn r x0 b acc c = acc) := by
  unfold drawColumn
  split
  · next h =>
    split
    · next hb => exact .inl ⟨h, hb, rfl⟩
    · next hb => exact .inr ⟨fun e => hb e.2, rfl⟩
  · next h => exact .inr ⟨fun e => h e.1, rfl⟩

theorem drawColumns_pixel (r : Fin 32) (x0 : Nat) (b : Byte) (cs : List Nat) (hcs : cs.Nodup)
    (acc : Display × Bool) (r' : Fin 32) (c' : Fin 64) :
    ((cs.foldl (drawColumn r x0 b) acc).1.pixel r' c' = true ↔
      (acc.1.pixel r' c' = true ↔ ¬ (r' = r ∧ ColumnOn x0 b cs c'))) := by
  induction cs generalizing acc with
  | nil => simp [ColumnOn]
  | cons c cs ih =>
    rw [List.foldl_cons, ih (List.nodup_cons.1 hcs).2]
    have hnot : ∀ c'' ∈ cs, c'' ≠ c := fun c'' h e => (List.nodup_cons.1 hcs).1 (e ▸ h)
    obtain ⟨h, hb, e⟩ | ⟨hn, e⟩ := drawColumn_cases r x0 b acc c
    · rw [e]
      simp only [Display.flip_pixel]
      by_cases hc : r' = r ∧ c' = ⟨x0 + c, h⟩
      · obtain ⟨rfl, rfl⟩ := hc
        have h1 : ¬ ColumnOn x0 b cs (x0 + c) := by
          rintro ⟨c'', hm, he, _⟩; exact hnot c'' hm (by omega)
        have h2 : ColumnOn x0 b (c :: cs) (x0 + c) := ⟨c, by simp, rfl, hb⟩
        simp [h1, h2]
      · have : (r' = r ∧ ColumnOn x0 b (c :: cs) c') ↔ (r' = r ∧ ColumnOn x0 b cs c') := by
          constructor
          · rintro ⟨hr, c'', hm, he, hb'⟩
            rcases List.mem_cons.1 hm with rfl | hm
            · exact absurd ⟨hr, Fin.ext he.symm⟩ hc
            · exact ⟨hr, c'', hm, he, hb'⟩
          · rintro ⟨hr, c'', hm, he, hb'⟩
            exact ⟨hr, c'', List.mem_cons_of_mem _ hm, he, hb'⟩
        simp [hc, this]
    · rw [e]
      have : ColumnOn x0 b (c :: cs) c' ↔ ColumnOn x0 b cs c' := by
        constructor
        · rintro ⟨c'', hm, he, hb'⟩
          rcases List.mem_cons.1 hm with rfl | hm
          · exact absurd ⟨by have := c'.isLt; omega, hb'⟩ hn
          · exact ⟨c'', hm, he, hb'⟩
        · rintro ⟨c'', hm, he, hb'⟩
          exact ⟨c'', List.mem_cons_of_mem _ hm, he, hb'⟩
      simp [this]

theorem drawColumns_flag (r : Fin 32) (x0 : Nat) (b : Byte) (cs : List Nat) (hcs : cs.Nodup)
    (acc : Display × Bool) :
    ((cs.foldl (drawColumn r x0 b) acc).2 = true ↔
      acc.2 = true ∨ ∃ c' : Fin 64, ColumnOn x0 b cs c' ∧ acc.1.pixel r c' = true) := by
  induction cs generalizing acc with
  | nil => simp [ColumnOn]
  | cons c cs ih =>
    rw [List.foldl_cons, ih (List.nodup_cons.1 hcs).2]
    have hnot : ∀ c'' ∈ cs, c'' ≠ c := fun c'' h e => (List.nodup_cons.1 hcs).1 (e ▸ h)
    have hsub : ∀ c', ColumnOn x0 b cs c' → ColumnOn x0 b (c :: cs) c' := by
      rintro c' ⟨c'', hm, he, hb'⟩
      exact ⟨c'', List.mem_cons_of_mem _ hm, he, hb'⟩
    obtain ⟨h, hb, e⟩ | ⟨hn, e⟩ := drawColumn_cases r x0 b acc c
    · rw [e]
      simp only [Bool.or_eq_true, Display.flip_pixel, or_assoc]
      refine or_congr_right ?_
      constructor
      · rintro (hp | ⟨c', hc', hp⟩)
        · exact ⟨⟨x0 + c, h⟩, ⟨c, by simp, rfl, hb⟩, hp⟩
        · have ⟨c'', hm, he, _⟩ := hc'
          have : c' ≠ ⟨x0 + c, h⟩ := by
            rintro rfl; exact hnot c'' hm (by simp at he; omega)
          refine ⟨c', hsub _ hc', ?_⟩
          simpa [this] using hp
      · rintro ⟨c', hc', hp⟩
        by_cases hcc : c' = ⟨x0 + c, h⟩
        · subst hcc; exact .inl hp
        · obtain ⟨c'', hm, he, hb'⟩ := hc'
          rcases List.mem_cons.1 hm with rfl | hm
          · exact absurd (Fin.ext he.symm) hcc
          · exact .inr ⟨c', ⟨c'', hm, he, hb'⟩, by simpa [hcc] using hp⟩
    · rw [e]
      refine or_congr_right ?_
      constructor
      · rintro ⟨c', hc', hp⟩; exact ⟨c', hsub _ hc', hp⟩
      · rintro ⟨c', ⟨c'', hm, he, hb'⟩, hp⟩
        rcases List.mem_cons.1 hm with rfl | hm
        · exact absurd ⟨by have := c'.isLt; omega, hb'⟩ hn
        · exact ⟨c', ⟨c'', hm, he, hb'⟩, hp⟩

/-- A 1 bit of a list of sprite rows, drawn from column x0 and row y, falls on (r, c). -/
def SpriteOn (x0 y : Nat) (bs : List Byte) (r c : Nat) : Prop :=
  ∃ k, ∃ h : k < bs.length, y + k = r ∧ ColumnOn x0 bs[k] [0, 1, 2, 3, 4, 5, 6, 7] c

theorem spriteOn_nil (x0 y r c : Nat) : ¬ SpriteOn x0 y [] r c := by
  rintro ⟨k, h, _⟩; simp at h

theorem spriteOn_cons (x0 y : Nat) (b : Byte) (bs : List Byte) (r c : Nat) :
    SpriteOn x0 y (b :: bs) r c ↔
      (r = y ∧ ColumnOn x0 b [0, 1, 2, 3, 4, 5, 6, 7] c) ∨ SpriteOn x0 (y + 1) bs r c := by
  constructor
  · rintro ⟨k, h, he, hc⟩
    cases k with
    | zero => exact .inl ⟨by omega, hc⟩
    | succ k => exact .inr ⟨k, by simpa using h, by omega, hc⟩
  · rintro (⟨he, hc⟩ | ⟨k, h, he, hc⟩)
    · exact ⟨0, by simp, by omega, hc⟩
    · exact ⟨k + 1, by simpa using h, by omega, hc⟩

theorem spriteOn_row_le {x0 y : Nat} {bs : List Byte} {r c : Nat} (h : SpriteOn x0 y bs r c) :
    y ≤ r := by
  obtain ⟨k, _, he, _⟩ := h; omega

/-- The pixels after drawing: a pixel is flipped exactly where a 1 bit of the sprite falls. -/
theorem drawRows_pixel (x0 y : Nat) (bs : List Byte) (acc : Display × Bool) (r : Fin 32)
    (c : Fin 64) :
    ((drawRows x0 y bs acc).1.pixel r c = true ↔
      (acc.1.pixel r c = true ↔ ¬ SpriteOn x0 y bs r c)) := by
  induction bs generalizing y acc with
  | nil => simp [drawRows, spriteOn_nil]
  | cons b bs ih =>
    simp only [drawRows]
    rw [ih, spriteOn_cons]
    unfold drawRow
    split
    · next hy =>
      rw [drawColumns_pixel _ _ _ _ (by decide)]
      have hr : r = ⟨y, hy⟩ ↔ r.val = y := by rw [Fin.ext_iff]
      rw [hr]
      by_cases h1 : r.val = y
      · have : ¬ SpriteOn x0 (y + 1) bs r c := fun h => by have := spriteOn_row_le h; omega
        simp [h1] at this ⊢
        simp [this]
      · simp [h1]
    · next hy =>
      have h1 : r.val ≠ y := by have := r.isLt; omega
      simp [h1]

/-- The collision flag after drawing: it was on, or a 1 bit of the sprite fell on a pixel that was
on. -/
theorem drawRows_flag (x0 y : Nat) (bs : List Byte) (acc : Display × Bool) :
    ((drawRows x0 y bs acc).2 = true ↔
      acc.2 = true ∨ ∃ (r : Fin 32) (c : Fin 64),
        SpriteOn x0 y bs r c ∧ acc.1.pixel r c = true) := by
  induction bs generalizing y acc with
  | nil => simp [drawRows, spriteOn_nil]
  | cons b bs ih =>
    simp only [drawRows]
    rw [ih]
    unfold drawRow
    split
    · next hy =>
      rw [drawColumns_flag _ _ _ _ (by decide), or_assoc]
      refine or_congr_right ?_
      have hpix : ∀ (r : Fin 32) (c : Fin 64), y < r.val →
          ((List.foldl (drawColumn ⟨y, hy⟩ x0 b) acc [0, 1, 2, 3, 4, 5, 6, 7]).1.pixel r c = true ↔
            acc.1.pixel r c = true) := by
        intro r c h
        rw [drawColumns_pixel _ _ _ _ (by decide)]
        have : ¬ r = ⟨y, hy⟩ := fun e => by simp [e] at h
        simp [this]
      constructor
      · rintro (⟨c, hc, hp⟩ | ⟨r, c, hs, hp⟩)
        · exact ⟨⟨y, hy⟩, c, (spriteOn_cons ..).2 (.inl ⟨rfl, hc⟩), hp⟩
        · exact ⟨r, c, (spriteOn_cons ..).2 (.inr hs), (hpix r c (spriteOn_row_le hs)).1 hp⟩
      · rintro ⟨r, c, hs, hp⟩
        rcases (spriteOn_cons ..).1 hs with ⟨hr, hc⟩ | hs
        · have : r = ⟨y, hy⟩ := Fin.ext hr
          subst this
          exact .inl ⟨c, hc, hp⟩
        · exact .inr ⟨r, c, hs, (hpix r c (spriteOn_row_le hs)).2 hp⟩
    · next hy =>
      refine or_congr_right ?_
      constructor
      · rintro ⟨r, c, hs, hp⟩; exact ⟨r, c, (spriteOn_cons ..).2 (.inr hs), hp⟩
      · rintro ⟨r, c, hs, hp⟩
        rcases (spriteOn_cons ..).1 hs with ⟨hr, _⟩ | hs
        · have := r.isLt; omega
        · exact ⟨r, c, hs, hp⟩

end Sys2Proof.Machine
end

