-- ==== Sys2Proof/Laws/Flags.lean ====
section
/-! SUPPORT. The results and flags of Machine/Flags.lean as numbers. -/

namespace Sys2Proof.Machine

@[simp] theorem flagByte_true : flagByte true = 1 := rfl

@[simp] theorem flagByte_false : flagByte false = 0 := rfl

theorem flagByte_toNat (f : Bool) : (flagByte f).toNat = if f then 1 else 0 := by
  cases f <;> rfl

theorem flagByte_le_one (f : Bool) : (flagByte f).toNat ≤ 1 := by
  cases f <;> decide

theorem addResult_toNat (a b : Byte) : (addResult a b).toNat = (a.toNat + b.toNat) % 256 := by
  simp only [addResult, BitVec.toNat_ofNat]; omega

theorem subResult_toNat (a b : Byte) :
    (subResult a b).toNat = (256 + a.toNat - b.toNat) % 256 := by
  simp only [subResult, BitVec.toNat_ofNat]; omega

theorem shrResult_toNat (a : Byte) : (shrResult a).toNat = a.toNat / 2 := by
  have := a.isLt
  simp only [shrResult, BitVec.toNat_ofNat]; omega

theorem shlResult_toNat (a : Byte) : (shlResult a).toNat = a.toNat * 2 % 256 := by
  simp only [shlResult, BitVec.toNat_ofNat]; omega

theorem indexResult_toNat (i : Word) (a : Byte) :
    (indexResult i a).toNat = (i.toNat + a.toNat) % 0x1000 := by
  simp only [indexResult, indexSum, BitVec.toNat_ofNat]; omega

end Sys2Proof.Machine
end

