-- ==== Sys2Proof/Laws/Memory.lean ====
section
/-! SUPPORT. What the memory operations do: reading after writing, the canonical form, and everything
a checked access or a block of them can answer. -/

namespace Sys2Proof.Machine

/-! ### Reading after writing -/

@[simp] theorem Memory.read_nil (a : Nat) : Memory.read [] a = resetByte a := rfl

theorem Memory.read_cell_append (m : Memory) (a b : Nat) (v : Byte)
    (h : b = a → m.read b = resetByte b ∨ v ≠ resetByte a) :
    Memory.read (Memory.cell a v ++ m) b = if b = a then v else m.read b := by
  unfold Memory.cell
  split
  · next hv =>
    split
    · next hb => subst hb; rcases h rfl with h | h
                 · simpa [hv] using h
                 · exact absurd hv h
    · rfl
  · simp [Memory.read, eq_comm]

/-- A write leaves every other address alone, whatever the list. -/
theorem Memory.read_write_ne (m : Memory) {a b : Nat} (v : Byte) (h : b ≠ a) :
    (m.write a v).read b = m.read b := by
  induction m with
  | nil => simp [Memory.write, Memory.cell]; split <;> simp [Memory.read, Ne.symm h]
  | cons c rest ih =>
    obtain ⟨k, c⟩ := c
    have h' : ¬ a = b := fun e => h e.symm
    simp only [Memory.write]
    split
    · simp only [Memory.cell]; split <;> simp [Memory.read, h']
    · split
      · next hk => subst hk; simp only [Memory.cell]; split <;> simp [Memory.read, h']
      · simp [Memory.read, ih]

/-- An address below the first listed one reads as its reset contents. -/
theorem Memory.read_of_lt {m : Memory} {lo a : Nat} (hm : Memory.wfFrom lo m = true) (h : a < lo) :
    m.read a = resetByte a := by
  induction m generalizing lo with
  | nil => rfl
  | cons c rest ih =>
    obtain ⟨k, c⟩ := c
    simp only [Memory.wfFrom, Bool.and_eq_true, decide_eq_true_eq] at hm
    have : k ≠ a := by omega
    simp [Memory.read, this, ih hm.2 (by omega)]

theorem Memory.read_write_self_from {m : Memory} {lo : Nat} (hm : Memory.wfFrom lo m = true) (a : Nat)
    (v : Byte) : (m.write a v).read a = v := by
  induction m generalizing lo with
  | nil => simp [Memory.write, Memory.cell]; split <;> simp_all [Memory.read]
  | cons c rest ih =>
    obtain ⟨k, c⟩ := c
    have hw := hm
    simp only [Memory.wfFrom, Bool.and_eq_true, decide_eq_true_eq] at hm
    simp only [Memory.write]
    split
    · next hlt =>
      rw [Memory.read_cell_append _ _ _ _ fun _ => .inl ?_, if_pos rfl]
      exact Memory.read_of_lt (lo := k) (by simp [Memory.wfFrom, hm]) hlt
    · split
      · next hk =>
        subst hk
        rw [Memory.read_cell_append _ _ _ _ fun _ => .inl (Memory.read_of_lt hm.2 (by omega)),
          if_pos rfl]
      · next hk => simp [Memory.read, hk, ih hm.2]

/-- A canonical memory reads back what was written. -/
theorem Memory.read_write_self {m : Memory} (hm : m.wf = true) (a : Nat) (v : Byte) :
    (m.write a v).read a = v :=
  Memory.read_write_self_from hm a v

theorem Memory.read_write {m : Memory} (hm : m.wf = true) (a b : Nat) (v : Byte) :
    (m.write a v).read b = if b = a then v else m.read b := by
  split
  · next h => subst h; exact Memory.read_write_self hm b v
  · next h => exact Memory.read_write_ne m v h

/-! ### The canonical form -/

theorem Memory.wfFrom_mono {m : Memory} {lo lo' : Nat} (h : lo' ≤ lo)
    (hm : Memory.wfFrom lo m = true) : Memory.wfFrom lo' m = true := by
  cases m with
  | nil => rfl
  | cons c rest =>
    obtain ⟨k, c⟩ := c
    simp only [Memory.wfFrom, Bool.and_eq_true, decide_eq_true_eq] at hm ⊢
    exact ⟨⟨⟨by omega, hm.1.1.2⟩, hm.1.2⟩, hm.2⟩

theorem Memory.wfFrom_cell_append {m : Memory} {lo a : Nat} {v : Byte} (hlo : lo ≤ a)
    (ha : a < Config.memSize) (hm : Memory.wfFrom (a + 1) m = true) :
    Memory.wfFrom lo (Memory.cell a v ++ m) = true := by
  unfold Memory.cell
  split
  · exact Memory.wfFrom_mono (by omega) hm
  · next hv => simp [Memory.wfFrom, hlo, ha, hv, hm]

theorem Memory.write_wfFrom {m : Memory} {lo a : Nat} {v : Byte} (hlo : lo ≤ a)
    (ha : a < Config.memSize) (hm : Memory.wfFrom lo m = true) :
    Memory.wfFrom lo (m.write a v) = true := by
  induction m generalizing lo with
  | nil => simpa [Memory.write] using Memory.wfFrom_cell_append (m := []) (v := v) hlo ha rfl
  | cons c rest ih =>
    obtain ⟨k, c⟩ := c
    simp only [Memory.wfFrom, Bool.and_eq_true, decide_eq_true_eq] at hm
    simp only [Memory.write]
    split
    · exact Memory.wfFrom_cell_append hlo ha (by simp [Memory.wfFrom, hm]; omega)
    · split
      · next hk => subst hk; exact Memory.wfFrom_cell_append hlo ha hm.2
      · simp only [Memory.wfFrom, Bool.and_eq_true, decide_eq_true_eq]
        exact ⟨hm.1, ih (by omega) hm.2⟩

/-- A write inside the address space keeps the canonical form. -/
theorem Memory.write_wf {m : Memory} {a : Nat} {v : Byte} (ha : a < Config.memSize)
    (hm : m.wf = true) : (m.write a v).wf = true :=
  Memory.write_wfFrom (Nat.zero_le a) ha hm

/-! ### Checked accesses (20_memory R53, R54) -/

/-- Everything `MemRead` can answer. -/
theorem memRead_cases (m : Memory) (a : Nat) :
    (Config.memSize ≤ a ∧ memRead m a = .error (.memoryOutOfRange a)) ∨
      (a < Config.memSize ∧ memRead m a = .ok (m.read a)) := by
  unfold memRead
  split
  · exact .inl ⟨‹_›, rfl⟩
  · exact .inr ⟨by omega, rfl⟩

/-- Everything `MemWrite` can answer. -/
theorem memWrite_cases (p : Config.ReservedWritePolicy) (m : Memory) (a : Nat) (v : Byte) :
    (Config.memSize ≤ a ∧ memWrite p m a v = .error (.memoryOutOfRange a)) ∨
      (a < Config.reservedEnd ∧ p = .fault ∧ memWrite p m a v = .error (.reservedWrite a)) ∨
      (a < Config.memSize ∧ (p = .fault → Config.reservedEnd ≤ a) ∧
        memWrite p m a v = .ok (m.write a v)) := by
  unfold memWrite
  split
  · exact .inl ⟨‹_›, rfl⟩
  · split
    · next h => exact .inr (.inl ⟨h.1, h.2, rfl⟩)
    · next h => exact .inr (.inr ⟨by omega, fun hp => Nat.le_of_not_lt fun hl => h ⟨hl, hp⟩, rfl⟩)

theorem memWrite_wf {p : Config.ReservedWritePolicy} {m m' : Memory} {a : Nat} {v : Byte}
    (h : memWrite p m a v = .ok m') (hm : m.wf = true) : m'.wf = true := by
  obtain ⟨_, e⟩ | ⟨_, _, e⟩ | ⟨ha, _, e⟩ := memWrite_cases p m a v
  · simp [e] at h
  · simp [e] at h
  · rw [e] at h; cases h; exact Memory.write_wf ha hm

/-! ### Blocks -/

/-- A block read answers the bytes exactly when every address is inside the address space. -/
theorem readBlock_ok (m : Memory) (a n : Nat) (h : n = 0 ∨ a + n ≤ Config.memSize) :
    readBlock m a n = .ok ((List.range n).map fun k => m.read (a + k)) := by
  induction n generalizing a with
  | zero => rfl
  | succ n ih =>
    obtain ⟨_, _⟩ | ⟨_, e⟩ := memRead_cases m a
    · omega
    · simp only [readBlock, e, ih (a + 1) (by omega), List.range_succ_eq_map, List.map_cons,
        List.map_map, Nat.add_zero]
      congr 2
      apply List.map_congr_left
      intro k _
      simp only [Function.comp_apply, Nat.succ_eq_add_one]
      congr 1; omega

/-- A block read that leaves the address space answers the first address outside it. -/
theorem readBlock_error (m : Memory) (a n : Nat) (hn : n ≠ 0) (h : Config.memSize < a + n) :
    readBlock m a n = .error (.memoryOutOfRange (max a Config.memSize)) := by
  induction n generalizing a with
  | zero => exact absurd rfl hn
  | succ n ih =>
    obtain ⟨ha, e⟩ | ⟨ha, e⟩ := memRead_cases m a
    · simp only [readBlock, e]; congr 2; omega
    · simp only [readBlock, e, ih (a + 1) (by omega) (by omega)]
      congr 2; omega

/-- Everything a block read can answer. -/
theorem readBlock_cases (m : Memory) (a n : Nat) :
    ((n = 0 ∨ a + n ≤ Config.memSize) ∧
        readBlock m a n = .ok ((List.range n).map fun k => m.read (a + k))) ∨
      (n ≠ 0 ∧ Config.memSize < a + n ∧
        readBlock m a n = .error (.memoryOutOfRange (max a Config.memSize))) := by
  by_cases h : n = 0 ∨ a + n ≤ Config.memSize
  · exact .inl ⟨h, readBlock_ok m a n h⟩
  · have h1 : n ≠ 0 := fun e => h (.inl e)
    have h2 : Config.memSize < a + n := by
      have := fun e => h (.inr e)
      omega
    exact .inr ⟨h1, h2, readBlock_error m a n h1 h2⟩

/-- Under the policy `fault`, a block write succeeds when every address is writable. -/
theorem writeBlock_ok (m : Memory) (a : Nat) (bs : List Byte) (hlo : bs = [] ∨ Config.reservedEnd ≤ a)
    (hhi : bs = [] ∨ a + bs.length ≤ Config.memSize) :
    ∃ m', writeBlock .fault m a bs = .ok m' := by
  induction bs generalizing a m with
  | nil => exact ⟨m, rfl⟩
  | cons b bs ih =>
    simp only [reduceCtorEq, false_or, List.length_cons] at hlo hhi
    obtain ⟨_, _⟩ | ⟨_, _, _⟩ | ⟨_, _, e⟩ := memWrite_cases .fault m a b
    · omega
    · omega
    · obtain ⟨m', h⟩ := ih (m.write a b) (a + 1) (.inr (by omega)) (.inr (by omega))
      exact ⟨m', by simp [writeBlock, e, h]⟩

/-- Under the policy `fault`, a block write from below 0x200 answers its first address. -/
theorem writeBlock_reserved (m : Memory) (a : Nat) (b : Byte) (bs : List Byte)
    (h : a < Config.reservedEnd) : writeBlock .fault m a (b :: bs) = .error (.reservedWrite a) := by
  have h' : ¬ Config.memSize ≤ a := by simp only [Config.memSize, Config.reservedEnd] at *; omega
  simp [writeBlock, memWrite, h, h']

/-- A block write that leaves the address space from a writable address answers the first address
outside it. -/
theorem writeBlock_outOfRange (m : Memory) (a : Nat) (bs : List Byte) (hbs : bs ≠ [])
    (hlo : Config.reservedEnd ≤ a) (h : Config.memSize < a + bs.length) :
    writeBlock .fault m a bs = .error (.memoryOutOfRange (max a Config.memSize)) := by
  induction bs generalizing a m with
  | nil => exact absurd rfl hbs
  | cons b bs ih =>
    simp only [List.length_cons] at h
    obtain ⟨_, e⟩ | ⟨_, _, _⟩ | ⟨_, _, e⟩ := memWrite_cases .fault m a b
    · simp only [writeBlock, e]; congr 2; omega
    · omega
    · have hne : bs ≠ [] := by rintro rfl; simp at h; omega
      simp only [writeBlock, e, ih (m.write a b) (a + 1) hne (by omega) (by omega)]
      congr 2; omega

/-- What a successful block write leaves in the bytes it does not store to. -/
theorem writeBlock_read_outside {p : Config.ReservedWritePolicy} {m m' : Memory} {a : Nat}
    {bs : List Byte} (h : writeBlock p m a bs = .ok m') {b : Nat}
    (hb : ¬ (a ≤ b ∧ b < a + bs.length)) : m'.read b = m.read b := by
  induction bs generalizing a m with
  | nil => cases h; rfl
  | cons v bs ih =>
    obtain ⟨_, e⟩ | ⟨_, _, e⟩ | ⟨_, _, e⟩ := memWrite_cases p m a v
    · simp [writeBlock, e] at h
    · simp [writeBlock, e] at h
    · simp only [writeBlock, e] at h
      simp only [List.length_cons] at hb
      rw [ih h (by omega), Memory.read_write_ne m v (by omega)]

/-- A block write keeps the canonical form. -/
theorem writeBlock_wf {p : Config.ReservedWritePolicy} {m m' : Memory} {a : Nat} {bs : List Byte}
    (h : writeBlock p m a bs = .ok m') (hm : m.wf = true) : m'.wf = true := by
  induction bs generalizing a m with
  | nil => cases h; exact hm
  | cons v bs ih =>
    obtain ⟨_, e⟩ | ⟨_, _, e⟩ | ⟨ha, _, e⟩ := memWrite_cases p m a v
    · simp [writeBlock, e] at h
    · simp [writeBlock, e] at h
    · simp only [writeBlock, e] at h
      exact ih h (Memory.write_wf ha hm)

/-- What a successful block write leaves in the bytes it stores to. -/
theorem writeBlock_read_inside {p : Config.ReservedWritePolicy} {m m' : Memory} {a : Nat}
    {bs : List Byte} (h : writeBlock p m a bs = .ok m') (hm : m.wf = true) {k : Nat}
    (hk : k < bs.length) : m'.read (a + k) = bs[k] := by
  induction bs generalizing a m k with
  | nil => simp at hk
  | cons v bs ih =>
    obtain ⟨_, e⟩ | ⟨_, _, e⟩ | ⟨ha, _, e⟩ := memWrite_cases p m a v
    · simp [writeBlock, e] at h
    · simp [writeBlock, e] at h
    · simp only [writeBlock, e] at h
      cases k with
      | zero =>
        rw [writeBlock_read_outside h (by omega)]
        simpa using Memory.read_write_self hm a v
      | succ k =>
        have := ih h (Memory.write_wf ha hm) (k := k) (by simpa using hk)
        simpa [Nat.add_assoc, Nat.add_comm 1 k] using this

/-- Under the policy `fault`, a successful block write stores to nothing below 0x200. -/
theorem writeBlock_start {m m' : Memory} {a : Nat} {b : Byte} {bs : List Byte}
    (h : writeBlock .fault m a (b :: bs) = .ok m') : Config.reservedEnd ≤ a := by
  obtain ⟨_, e⟩ | ⟨_, _, e⟩ | ⟨_, hr, e⟩ := memWrite_cases .fault m a b
  · simp [writeBlock, e] at h
  · simp [writeBlock, e] at h
  · exact hr rfl

/-! ### Loading -/

theorem storeBytes_read_outside (m : Memory) (a : Nat) (bs : List Byte) {b : Nat}
    (hb : ¬ (a ≤ b ∧ b < a + bs.length)) : (storeBytes m a bs).read b = m.read b := by
  induction bs generalizing a with
  | nil => rfl
  | cons v bs ih =>
    simp only [List.length_cons] at hb
    simp only [storeBytes]
    rw [Memory.read_write_ne _ v (by omega), ih (a + 1) (by omega)]

theorem storeBytes_wf {m : Memory} {a : Nat} {bs : List Byte} (hm : m.wf = true)
    (h : a + bs.length ≤ Config.memSize) : (storeBytes m a bs).wf = true := by
  induction bs generalizing a with
  | nil => exact hm
  | cons v bs ih =>
    simp only [List.length_cons] at h
    exact Memory.write_wf (by omega) (ih (by omega))

theorem storeBytes_read_inside {m : Memory} {a : Nat} {bs : List Byte} (hm : m.wf = true)
    (h : a + bs.length ≤ Config.memSize) {k : Nat} (hk : k < bs.length) :
    (storeBytes m a bs).read (a + k) = bs[k] := by
  induction bs generalizing a k with
  | nil => simp at hk
  | cons v bs ih =>
    simp only [List.length_cons] at h
    simp only [storeBytes]
    cases k with
    | zero =>
      simpa using Memory.read_write_self (storeBytes_wf hm (by omega)) a v
    | succ k =>
      rw [Memory.read_write_ne _ v (by omega)]
      have := ih (a := a + 1) (by omega) (k := k) (by simpa using hk)
      simpa [Nat.add_assoc, Nat.add_comm 1 k] using this

end Sys2Proof.Machine
end

