-- ==== Sys2Proof/Laws/Ops.lean ====
section
/-! SUPPORT. Everything the shared operations can answer, once each. -/

namespace Sys2Proof.Machine

/-! ### Call stack (10_state R27) -/

theorem push_cases (depth : Nat) (t : Word) (st : List Word) :
    (depth ≤ st.length ∧ push depth t st = .error .stackOverflow) ∨
      (st.length < depth ∧ push depth t st = .ok (st ++ [t])) := by
  unfold push
  split
  · exact .inl ⟨‹_›, rfl⟩
  · exact .inr ⟨by omega, rfl⟩

theorem pop_cases (st : List Word) :
    (st = [] ∧ pop st = .error .stackUnderflow) ∨
      ∃ rest t, st = rest ++ [t] ∧ pop st = .ok (t, rest) := by
  rcases List.eq_nil_or_concat st with rfl | ⟨rest, t, rfl⟩
  · exact .inl ⟨rfl, rfl⟩
  · exact .inr ⟨rest, t, by simp, by simp [pop]⟩

theorem pop_concat (st : List Word) (t : Word) : pop (st ++ [t]) = .ok (t, st) := by
  simp [pop]

/-! ### Fetch (30_encoding R66) -/

theorem fetch_cases (m : Memory) (a : Nat) :
    (0xFFF ≤ a ∧ fetch m a = .error (.memoryOutOfRange (max a 0x1000))) ∨
      (a < 0xFFF ∧ fetch m a = .ok (wordOfBytes (m.read a) (m.read (a + 1)))) := by
  by_cases h : Config.memSize ≤ a + 1
  · have h' : 4096 ≤ a + 1 := h
    exact .inl ⟨by omega, by rw [fetch, if_pos h]; rfl⟩
  · have h' : ¬ 4096 ≤ a + 1 := h
    exact .inr ⟨by omega, by rw [fetch, if_neg h]⟩

/-! ### Raising (60_exceptions R127, R129) -/

theorem orRaise_cases {α : Type} (i : Instr) (s : State) (r : Except FatalKind α) (f : α → Result) :
    (∃ k, r = .error k ∧ orRaise i s r f = raise i k s) ∨
      ∃ a, r = .ok a ∧ orRaise i s r f = f a := by
  cases r with
  | error k => exact .inl ⟨k, rfl, rfl⟩
  | ok a => exact .inr ⟨a, rfl, rfl⟩

/-! ### Skips (40_control_flow R84) -/

theorem skipIf_true (s : State) : skipIf true s = s.setPc (s.pc + 2) := rfl

theorem skipIf_false (s : State) : skipIf false s = s := rfl

/-! ### Keys (44_timers_keypad R118 to R121) -/

theorem keyOperand_cases (b : Byte) :
    (15 < b.toNat ∧ keyOperand b = .error (.keyIndexOutOfRange b)) ∨
      ∃ h : b.toNat < 16, keyOperand b = .ok ⟨b.toNat, h⟩ := by
  unfold keyOperand
  split
  · next h => exact .inr ⟨h, rfl⟩
  · next h => exact .inl ⟨by omega, rfl⟩

theorem mem_allKeys (k : KeyId) : k ∈ allKeys := by
  revert k; decide

theorem mem_pressedKeys (s : State) (k : KeyId) : k ∈ s.pressedKeys ↔ s.key k = true := by
  simp [State.pressedKeys, mem_allKeys]

theorem chooseKey_mem (choice : Nat) (k : KeyId) (ks : List KeyId) :
    chooseKey choice k ks ∈ k :: ks := by
  cases ks with
  | nil => simp [chooseKey]
  | cons k' ks =>
    have h : choice % (ks.length + 2) < (k :: k' :: ks).length :=
      Nat.mod_lt _ (by omega)
    have e : chooseKey choice k (k' :: ks) = (k :: k' :: ks)[choice % (ks.length + 2)] := by
      rw [chooseKey, List.getD_eq_getElem _ _ h]
    rw [e]
    exact List.getElem_mem h

/-- Everything the key wait can do (R121). -/
theorem execLdVxK_cases (x : RegId) (s : State) :
    ((∀ k, s.key k = false) ∧ execLdVxK x s = .next (s.setPc (s.pc - 2))) ∨
      ∃ k : KeyId, s.key k = true ∧
        execLdVxK x s = .next ((s.setReg x (BitVec.ofNat 8 k.val)).countDraw s.randomIn) := by
  unfold execLdVxK
  split
  · next h =>
    refine .inl ⟨fun k => ?_, rfl⟩
    have : k ∉ s.pressedKeys := by simp [h]
    simpa [mem_pressedKeys] using this
  · next k ks h =>
    refine .inr ⟨chooseKey (Config.keyChoice s.draws) k ks, ?_, rfl⟩
    rw [← mem_pressedKeys, h]
    exact chooseKey_mem _ k ks

/-! ### The timer tick (60_exceptions R135) -/

theorem tick_delay (s : State) : (tick s).delay.toNat = s.delay.toNat - 1 := by
  have hs : (tick s).delay = s.tickDelay.delay := by
    unfold tick State.tickSound; split <;> rfl
  rw [hs]
  unfold State.tickDelay
  split
  · next h => simp [h]
  · next h =>
    have h1 : s.delay.toNat ≠ 0 := fun e => h (BitVec.eq_of_toNat_eq (by simpa using e))
    have := s.delay.isLt
    show (s.delay - 1).toNat = _
    rw [BitVec.toNat_sub]
    show (2 ^ 8 - 1 + s.delay.toNat) % 2 ^ 8 = _
    omega

theorem tick_sound (s : State) : (tick s).sound = 0 := by
  unfold tick State.tickSound
  split
  · assumption
  · rfl

theorem tickDelay_history (s : State) : s.tickDelay.history = s.history := by
  unfold State.tickDelay; split <;> rfl

theorem tickDelay_sound (s : State) : s.tickDelay.sound = s.sound := by
  unfold State.tickDelay; split <;> rfl

theorem tick_history (s : State) :
    (tick s).history = if s.sound = 0 then s.history else s.history ++ [.beep] := by
  unfold tick State.tickSound
  rw [tickDelay_sound]
  split <;> simp [tickDelay_history]

end Sys2Proof.Machine
end

