-- ==== Sys2Proof/Laws/Step.lean ====
section
/-! SUPPORT. Everything a step can do: halted states stay, a running state makes its next move; an
instruction step fetches, then executes or reports. -/

namespace Sys2Proof.Machine

/-- A halted machine stays as it is. -/
theorem step_halted {s : State} {f : FaultRecord} (h : s.status = .halted f) : step s = .next s := by
  simp [step, h]

/-- A running machine makes its next move. -/
theorem step_running {s : State} (h : s.status = .running) :
    step s = perform (nextMove s) s.takeMove := by
  simp [step, h]

theorem instrStep_error {s : State} {k : FatalKind} (h : fetch s.mem s.pc.toNat = .error k) :
    instrStep s = .next (s.halt k none s.pc) := by
  unfold instrStep; rw [h]

theorem instrStep_ok {s : State} {w : Word} (h : fetch s.mem s.pc.toNat = .ok w) :
    instrStep s = runWord w s := by
  unfold instrStep; rw [h]

theorem runWord_instr {w : Word} {i : Instr} (s : State) (h : decode w = .instr i) :
    runWord w s = exec i (s.setPc (s.pc + 2)) := by
  unfold runWord; rw [h]

theorem runWord_unknown {w u : Word} (s : State) (h : decode w = .unknown u) :
    runWord w s = .next (reportUnknown u (s.setPc (s.pc + 2))) := by
  unfold runWord; rw [h]

/-- Everything an instruction step can do. -/
theorem instrStep_cases (s : State) :
    (0xFFF ≤ s.pc.toNat ∧
        instrStep s = .next (s.halt (.memoryOutOfRange (max s.pc.toNat 0x1000)) none s.pc)) ∨
      (s.pc.toNat < 0xFFF ∧ ∃ w, fetch s.mem s.pc.toNat = .ok w ∧
        ((∃ i, decode w = .instr i ∧ instrStep s = exec i (s.setPc (s.pc + 2))) ∨
          ∃ u, decode w = .unknown u ∧
            instrStep s = .next (reportUnknown u (s.setPc (s.pc + 2))))) := by
  obtain ⟨h, e⟩ | ⟨h, e⟩ := fetch_cases s.mem s.pc.toNat
  · exact .inl ⟨h, instrStep_error e⟩
  · generalize wordOfBytes (s.mem.read s.pc.toNat) (s.mem.read (s.pc.toNat + 1)) = w at e
    refine .inr ⟨h, w, e, ?_⟩
    have hw := instrStep_ok e
    match hd : decode w with
    | .instr i => exact .inl ⟨i, rfl, hw.trans (runWord_instr s hd)⟩
    | .unknown u => exact .inr ⟨u, rfl, hw.trans (runWord_unknown s hd)⟩

/-! ### Frames -/

/-- Nothing changed: the empty frame. -/
theorem Frame.refl (changed : List Part) (s : State) : Frame changed s s := by
  intro p _
  cases p <;> simp [Part.Same]

/-- A frame that lists more changed parts says less. -/
theorem Frame.mono {c c' : List Part} {s t : State} (h : Frame c s t) (hc : ∀ p ∈ c, p ∈ c') :
    Frame c' s t :=
  fun p hp => h p fun hm => hp (hc p hm)

theorem RegsExcept_setReg (s : State) (x : RegId) (b : Byte) :
    RegsExcept [x] s (s.setReg x b) := fun i hi =>
  State.setReg_reg_ne s b (by simpa using hi)

theorem RegsExcept_setReg_setFlag (s : State) (x : RegId) (b : Byte) (f : Bool) :
    RegsExcept [x, vF] s ((s.setReg x b).setFlag f) := by
  intro i hi
  simp only [List.mem_cons, List.not_mem_nil, or_false, not_or] at hi
  rw [State.setFlag_reg, if_neg hi.2, State.setReg_reg_ne s b hi.1]

/-- A raised condition halts the machine and changes nothing else. -/
theorem raise_haltedBy (i : Instr) (k : FatalKind) (s : State) :
    ∃ t, raise i k s = .next t ∧ HaltedBy i k s t := by
  refine ⟨_, rfl, rfl, ?_⟩
  intro p hp
  cases p <;> simp_all [Part.Same]

end Sys2Proof.Machine
end

