-- ==== Sys2Proof/Laws/Exec.lean ====
section
/-! SUPPORT. Everything the instructions that can raise do, once each, and the frame of every
instruction: the parts of the state it can change. -/

namespace Sys2Proof.Machine

/-! ### The instructions that can raise: halted, or their effect -/

theorem execRet_cases (s : State) :
    execRet s = raise .ret .stackUnderflow s ∨
      ∃ rest a, s.stack = rest ++ [a] ∧ execRet s = .next ((s.setStack rest).setPc a) := by
  unfold execRet
  obtain ⟨_, e⟩ | ⟨rest, a, h, e⟩ := pop_cases s.stack
  · exact .inl (by rw [e]; rfl)
  · exact .inr ⟨rest, a, h, by rw [e]; rfl⟩

theorem callWith_cases (depth : Nat) (nnn : Addr12) (s : State) :
    (depth ≤ s.stack.length ∧ callWith depth nnn s = raise (.call nnn) .stackOverflow s) ∨
      (s.stack.length < depth ∧ callWith depth nnn s =
        .next ((s.setStack (s.stack ++ [s.pc])).setPc (nnn.setWidth 16))) := by
  unfold callWith
  obtain ⟨h, e⟩ | ⟨h, e⟩ := push_cases depth s.pc s.stack
  · exact .inl ⟨h, by rw [e]; rfl⟩
  · exact .inr ⟨h, by rw [e]; rfl⟩

theorem execSkp_cases (x : RegId) (s : State) :
    (15 < (s.reg x).toNat ∧ execSkp x s = raise (.skp x) (.keyIndexOutOfRange (s.reg x)) s) ∨
      ∃ h : (s.reg x).toNat < 16, execSkp x s = .next (skipIf (s.key ⟨(s.reg x).toNat, h⟩) s) := by
  unfold execSkp
  obtain ⟨h, e⟩ | ⟨h, e⟩ := keyOperand_cases (s.reg x)
  · exact .inl ⟨h, by rw [e]; rfl⟩
  · exact .inr ⟨h, by rw [e]; rfl⟩

theorem execSknp_cases (x : RegId) (s : State) :
    (15 < (s.reg x).toNat ∧ execSknp x s = raise (.sknp x) (.keyIndexOutOfRange (s.reg x)) s) ∨
      ∃ h : (s.reg x).toNat < 16,
        execSknp x s = .next (skipIf (!s.key ⟨(s.reg x).toNat, h⟩) s) := by
  unfold execSknp
  obtain ⟨h, e⟩ | ⟨h, e⟩ := keyOperand_cases (s.reg x)
  · exact .inl ⟨h, by rw [e]; rfl⟩
  · exact .inr ⟨h, by rw [e]; rfl⟩

theorem ldBWith_cases (p : Config.ReservedWritePolicy) (x : RegId) (s : State) :
    (∃ k, ldBWith p x s = raise (.ldB x) k s) ∨
      ∃ m, writeBlock p s.mem (s.indexAddr 0) (bcdDigits (s.reg x)) = .ok m ∧
        ldBWith p x s = .next (s.setMem m) := by
  obtain ⟨k, _, e⟩ | ⟨m, hm, e⟩ := orRaise_cases (.ldB x) s
    (writeBlock p s.mem (s.indexAddr 0) (bcdDigits (s.reg x))) fun m => .next (s.setMem m)
  · exact .inl ⟨k, e⟩
  · exact .inr ⟨m, hm, e⟩

theorem storeRegsWith_cases (p : Config.ReservedWritePolicy) (inc : Bool) (x : RegId) (s : State) :
    (∃ k, storeRegsWith p inc x s = raise (.storeRegs x) k s) ∨
      ∃ m, writeBlock p s.mem (s.indexAddr 0) (s.regsUpTo x) = .ok m ∧
        storeRegsWith p inc x s = .next ((s.setMem m).advanceIndex inc x) := by
  obtain ⟨k, _, e⟩ | ⟨m, hm, e⟩ := orRaise_cases (.storeRegs x) s
    (writeBlock p s.mem (s.indexAddr 0) (s.regsUpTo x)) fun m =>
      .next ((s.setMem m).advanceIndex inc x)
  · exact .inl ⟨k, e⟩
  · exact .inr ⟨m, hm, e⟩

theorem loadRegsWith_cases (inc : Bool) (x : RegId) (s : State) :
    (∃ k, loadRegsWith inc x s = raise (.loadRegs x) k s) ∨
      ∃ bs, readBlock s.mem (s.indexAddr 0) (x.val + 1) = .ok bs ∧
        loadRegsWith inc x s = .next ((s.loadRegsFrom bs).advanceIndex inc x) := by
  obtain ⟨k, _, e⟩ | ⟨bs, hb, e⟩ := orRaise_cases (.loadRegs x) s
    (readBlock s.mem (s.indexAddr 0) (x.val + 1)) fun bs =>
      .next ((s.loadRegsFrom bs).advanceIndex inc x)
  · exact .inl ⟨k, e⟩
  · exact .inr ⟨bs, hb, e⟩

theorem execDrw_cases (x y : RegId) (rows : Nat) (s : State) :
    (∃ k, execDrw x y rows s = raise (.drw x y rows) k s) ∨
      ∃ d f, execDrw x y rows s = .next ((s.setDisplay d).setFlag f) := by
  obtain ⟨k, _, e⟩ | ⟨bs, _, e⟩ := orRaise_cases (.drw x y rows) s
    (readBlock s.mem (s.indexAddr 0) rows) fun sprite =>
      let drawn := drawRows (originColumn (s.reg x)) (originRow (s.reg y)) sprite (s.display, false)
      .next ((s.setDisplay drawn.1).setFlag drawn.2)
  · exact .inl ⟨k, e⟩
  · exact .inr ⟨_, _, e⟩

theorem addIWith_cases (p : Config.NoOverflowFlag) (x : RegId) (s : State) :
    ∃ w, addIWith p x s = .next (s.setIndex w) ∨ ∃ f, addIWith p x s = .next ((s.setIndex w).setFlag f) := by
  refine ⟨indexResult s.index (s.reg x), ?_⟩
  unfold addIWith State.setIndexFlag
  split
  · exact .inr ⟨true, rfl⟩
  · exact .inr ⟨false, rfl⟩
  · exact .inl rfl

/-! ### Frames of the building blocks -/

theorem skipIf_frame (c : Bool) (s : State) : Frame [.pc] s (skipIf c s) := by
  cases c
  · exact Frame.refl _ _
  · intro p hp; cases p <;> simp_all [Part.Same, skipIf]

theorem advanceIndex_false (s : State) (x : RegId) : s.advanceIndex false x = s := rfl

/-- The parts an instruction can change (10_state R23 and R37): registers, `pc` and the rest; a fatal
condition changes `status` instead. -/
def partsChanged : Instr → List Part
  | .cls => [.display]
  | .ret | .call _ => [.pc, .stack]
  | .jp _ | .jpV0 _ | .seImm _ _ | .sneImm _ _ | .seReg _ _ | .sneReg _ _ | .skp _ | .sknp _ => [.pc]
  | .ldImm _ _ | .addImm _ _ | .ldReg _ _ | .orReg _ _ | .andReg _ _ | .xorReg _ _ | .addReg _ _
  | .subReg _ _ | .shr _ _ | .subnReg _ _ | .shl _ _ | .ldVxDt _ | .loadRegs _ => [.v]
  | .rnd _ _ => [.v, .random]
  | .ldVxK _ => [.v, .pc, .random]
  | .drw _ _ _ => [.v, .display]
  | .ldI _ | .ldF _ => [.index]
  | .addI _ => [.v, .index]
  | .ldDtVx _ => [.delay]
  | .ldStVx _ => [.sound]
  | .ldB _ | .storeRegs _ => [.memory]

/-- Everything an instruction can do, seen from outside: it halts the machine and changes nothing else,
or it leaves the status alone and changes only its own parts. -/
theorem exec_cases (i : Instr) (s : State) :
    (∃ k, exec i s = raise i k s) ∨
      ∃ t, exec i s = .next t ∧ Frame (partsChanged i) s t := by
  cases i with
  | ret =>
    obtain e | ⟨rest, a, _, e⟩ := execRet_cases s
    · exact .inl ⟨_, e⟩
    · refine .inr ⟨_, e, fun p hp => ?_⟩
      cases p <;> simp_all [Part.Same, partsChanged]
  | call nnn =>
    obtain ⟨_, e⟩ | ⟨_, e⟩ := callWith_cases Policy.stackDepth nnn s
    · exact .inl ⟨_, e⟩
    · refine .inr ⟨_, e, fun p hp => ?_⟩
      cases p <;> simp_all [Part.Same, partsChanged]
  | skp x =>
    obtain ⟨_, e⟩ | ⟨_, e⟩ := execSkp_cases x s
    · exact .inl ⟨_, e⟩
    · exact .inr ⟨_, e, skipIf_frame _ _⟩
  | sknp x =>
    obtain ⟨_, e⟩ | ⟨_, e⟩ := execSknp_cases x s
    · exact .inl ⟨_, e⟩
    · exact .inr ⟨_, e, skipIf_frame _ _⟩
  | ldB x =>
    obtain ⟨_, e⟩ | ⟨_, _, e⟩ := ldBWith_cases Policy.reservedWrite x s
    · exact .inl ⟨_, e⟩
    · refine .inr ⟨_, e, fun p hp => ?_⟩
      cases p <;> simp_all [Part.Same, partsChanged]
  | storeRegs x =>
    obtain ⟨_, e⟩ | ⟨_, _, e⟩ :=
      storeRegsWith_cases Policy.reservedWrite Policy.loadStoreIncrementsI x s
    · exact .inl ⟨_, e⟩
    · rw [show Policy.loadStoreIncrementsI = false from rfl, advanceIndex_false] at e
      refine .inr ⟨_, e, fun p hp => ?_⟩
      cases p <;> simp_all [Part.Same, partsChanged]
  | loadRegs x =>
    obtain ⟨_, e⟩ | ⟨_, _, e⟩ := loadRegsWith_cases Policy.loadStoreIncrementsI x s
    · exact .inl ⟨_, e⟩
    · rw [show Policy.loadStoreIncrementsI = false from rfl, advanceIndex_false] at e
      refine .inr ⟨_, e, fun p hp => ?_⟩
      cases p <;> simp_all [Part.Same, partsChanged, State.loadRegsFrom]
  | drw x y rows =>
    obtain ⟨_, e⟩ | ⟨_, _, e⟩ := execDrw_cases x y rows s
    · exact .inl ⟨_, e⟩
    · refine .inr ⟨_, e, fun p hp => ?_⟩
      cases p <;> simp_all [Part.Same, partsChanged]
  | ldVxK x =>
    obtain ⟨_, e⟩ | ⟨_, _, e⟩ := execLdVxK_cases x s <;>
    · refine .inr ⟨_, e, fun p hp => ?_⟩
      cases p <;> simp_all [Part.Same, partsChanged]
  | addI x =>
    obtain ⟨_, e | ⟨_, e⟩⟩ := addIWith_cases Policy.noOverflowFlag x s <;>
    · refine .inr ⟨_, e, fun p hp => ?_⟩
      cases p <;> simp_all [Part.Same, partsChanged]
  | seImm x nn => exact .inr ⟨_, rfl, skipIf_frame _ _⟩
  | sneImm x nn => exact .inr ⟨_, rfl, skipIf_frame _ _⟩
  | seReg x y => exact .inr ⟨_, rfl, skipIf_frame _ _⟩
  | sneReg x y => exact .inr ⟨_, rfl, skipIf_frame _ _⟩
  | cls | jp nnn | jpV0 nnn | ldI nnn | ldImm x nn | addImm x nn | rnd x nn | ldReg x y | orReg x y
  | andReg x y | xorReg x y | addReg x y | subReg x y | shr x y | subnReg x y | shl x y | ldVxDt x
  | ldDtVx x | ldStVx x | ldF x =>
    refine .inr ⟨_, rfl, fun p hp => ?_⟩
    cases p <;> simp_all [Part.Same, partsChanged]

end Sys2Proof.Machine
end

