-- ==== Sys2Proof/Laws/PerInstr.lean ====
section
/-! SUPPORT. The family OpcodeRow: the word of every instruction matches the instruction's own row of
30_encoding R79 ("a word w is the instruction when `w & mask = match`"), and that row is one of the
map's. -/

namespace Sys2Proof.Laws

/-! ### A built word matches a row when its fixed fields do -/

theorem formNNN_matches (op : Nibble) (nnn : Addr12) (m : Word) (h : m.toNat = op.toNat * 4096) :
    rowMatches (m, 0xF000#16) (formNNN op nnn) = true := by
  have := nnn.isLt
  simp only [rowMatches, decide_eq_true_eq]
  apply BitVec.eq_of_toNat_eq
  rw [and_maskOp, formNNN_toNat]; omega

theorem formXNN_matches (op : Nibble) (x : RegId) (nn : Byte) (m : Word)
    (h : m.toNat = op.toNat * 4096) : rowMatches (m, 0xF000#16) (formXNN op x nn) = true := by
  have := nn.isLt
  simp only [rowMatches, decide_eq_true_eq]
  apply BitVec.eq_of_toNat_eq
  rw [and_maskOp, formXNN_toNat]; omega

theorem formXNN_matches_sub (op : Nibble) (x : RegId) (nn : Byte) (m : Word)
    (h : m.toNat = op.toNat * 4096 + nn.toNat) :
    rowMatches (m, 0xF0FF#16) (formXNN op x nn) = true := by
  have := nn.isLt
  simp only [rowMatches, decide_eq_true_eq]
  apply BitVec.eq_of_toNat_eq
  rw [and_maskOpNN, formXNN_toNat]; omega

theorem formXYN_matches (op : Nibble) (x y : RegId) (n : Nibble) (m : Word)
    (h : m.toNat = op.toNat * 4096) : rowMatches (m, 0xF000#16) (formXYN op x y n) = true := by
  have := n.isLt
  simp only [rowMatches, decide_eq_true_eq]
  apply BitVec.eq_of_toNat_eq
  rw [and_maskOp, formXYN_toNat]; omega

theorem formXYN_matches_sub (op : Nibble) (x y : RegId) (n : Nibble) (m : Word)
    (h : m.toNat = op.toNat * 4096 + n.toNat) :
    rowMatches (m, 0xF00F#16) (formXYN op x y n) = true := by
  have := n.isLt
  simp only [rowMatches, decide_eq_true_eq]
  apply BitVec.eq_of_toNat_eq
  rw [and_maskOpN, formXYN_toNat]; omega

/-! ### The family -/

def OpcodeRow.Statement (i : Instr) : Prop :=
  rowMatches i.row (encode i) = true ∧ i.row ∈ opcodeMap

theorem OpcodeRow.cls : OpcodeRow.Statement .cls :=
  ⟨by decide, by simp [Instr.row, opcodeMap]⟩

theorem OpcodeRow.ret : OpcodeRow.Statement .ret :=
  ⟨by decide, by simp [Instr.row, opcodeMap]⟩

theorem OpcodeRow.jp (nnn : Addr12) : OpcodeRow.Statement (.jp nnn) :=
  ⟨formNNN_matches _ _ _ (by decide), by simp [Instr.row, opcodeMap]⟩

theorem OpcodeRow.call (nnn : Addr12) : OpcodeRow.Statement (.call nnn) :=
  ⟨formNNN_matches _ _ _ (by decide), by simp [Instr.row, opcodeMap]⟩

theorem OpcodeRow.seImm (x : RegId) (nn : Byte) : OpcodeRow.Statement (.seImm x nn) :=
  ⟨formXNN_matches _ _ _ _ (by decide), by simp [Instr.row, opcodeMap]⟩

theorem OpcodeRow.sneImm (x : RegId) (nn : Byte) : OpcodeRow.Statement (.sneImm x nn) :=
  ⟨formXNN_matches _ _ _ _ (by decide), by simp [Instr.row, opcodeMap]⟩

theorem OpcodeRow.seReg (x : RegId) (y : RegId) : OpcodeRow.Statement (.seReg x y) :=
  ⟨formXYN_matches_sub _ _ _ _ _ (by decide), by simp [Instr.row, opcodeMap]⟩

theorem OpcodeRow.ldImm (x : RegId) (nn : Byte) : OpcodeRow.Statement (.ldImm x nn) :=
  ⟨formXNN_matches _ _ _ _ (by decide), by simp [Instr.row, opcodeMap]⟩

theorem OpcodeRow.addImm (x : RegId) (nn : Byte) : OpcodeRow.Statement (.addImm x nn) :=
  ⟨formXNN_matches _ _ _ _ (by decide), by simp [Instr.row, opcodeMap]⟩

theorem OpcodeRow.ldReg (x : RegId) (y : RegId) : OpcodeRow.Statement (.ldReg x y) :=
  ⟨formXYN_matches_sub _ _ _ _ _ (by decide), by simp [Instr.row, opcodeMap]⟩

theorem OpcodeRow.orReg (x : RegId) (y : RegId) : OpcodeRow.Statement (.orReg x y) :=
  ⟨formXYN_matches_sub _ _ _ _ _ (by decide), by simp [Instr.row, opcodeMap]⟩

theorem OpcodeRow.andReg (x : RegId) (y : RegId) : OpcodeRow.Statement (.andReg x y) :=
  ⟨formXYN_matches_sub _ _ _ _ _ (by decide), by simp [Instr.row, opcodeMap]⟩

theorem OpcodeRow.xorReg (x : RegId) (y : RegId) : OpcodeRow.Statement (.xorReg x y) :=
  ⟨formXYN_matches_sub _ _ _ _ _ (by decide), by simp [Instr.row, opcodeMap]⟩

theorem OpcodeRow.addReg (x : RegId) (y : RegId) : OpcodeRow.Statement (.addReg x y) :=
  ⟨formXYN_matches_sub _ _ _ _ _ (by decide), by simp [Instr.row, opcodeMap]⟩

theorem OpcodeRow.subReg (x : RegId) (y : RegId) : OpcodeRow.Statement (.subReg x y) :=
  ⟨formXYN_matches_sub _ _ _ _ _ (by decide), by simp [Instr.row, opcodeMap]⟩

theorem OpcodeRow.shr (x : RegId) (y : RegId) : OpcodeRow.Statement (.shr x y) :=
  ⟨formXYN_matches_sub _ _ _ _ _ (by decide), by simp [Instr.row, opcodeMap]⟩

theorem OpcodeRow.subnReg (x : RegId) (y : RegId) : OpcodeRow.Statement (.subnReg x y) :=
  ⟨formXYN_matches_sub _ _ _ _ _ (by decide), by simp [Instr.row, opcodeMap]⟩

theorem OpcodeRow.shl (x : RegId) (y : RegId) : OpcodeRow.Statement (.shl x y) :=
  ⟨formXYN_matches_sub _ _ _ _ _ (by decide), by simp [Instr.row, opcodeMap]⟩

theorem OpcodeRow.sneReg (x : RegId) (y : RegId) : OpcodeRow.Statement (.sneReg x y) :=
  ⟨formXYN_matches_sub _ _ _ _ _ (by decide), by simp [Instr.row, opcodeMap]⟩

theorem OpcodeRow.ldI (nnn : Addr12) : OpcodeRow.Statement (.ldI nnn) :=
  ⟨formNNN_matches _ _ _ (by decide), by simp [Instr.row, opcodeMap]⟩

theorem OpcodeRow.jpV0 (nnn : Addr12) : OpcodeRow.Statement (.jpV0 nnn) :=
  ⟨formNNN_matches _ _ _ (by decide), by simp [Instr.row, opcodeMap]⟩

theorem OpcodeRow.rnd (x : RegId) (nn : Byte) : OpcodeRow.Statement (.rnd x nn) :=
  ⟨formXNN_matches _ _ _ _ (by decide), by simp [Instr.row, opcodeMap]⟩

theorem OpcodeRow.drw (x : RegId) (y : RegId) (rows : Nat) : OpcodeRow.Statement (.drw x y rows) :=
  ⟨formXYN_matches _ _ _ _ _ (by decide), by simp [Instr.row, opcodeMap]⟩

theorem OpcodeRow.skp (x : RegId) : OpcodeRow.Statement (.skp x) :=
  ⟨formXNN_matches_sub _ _ _ _ (by decide), by simp [Instr.row, opcodeMap]⟩

theorem OpcodeRow.sknp (x : RegId) : OpcodeRow.Statement (.sknp x) :=
  ⟨formXNN_matches_sub _ _ _ _ (by decide), by simp [Instr.row, opcodeMap]⟩

theorem OpcodeRow.ldVxDt (x : RegId) : OpcodeRow.Statement (.ldVxDt x) :=
  ⟨formXNN_matches_sub _ _ _ _ (by decide), by simp [Instr.row, opcodeMap]⟩

theorem OpcodeRow.ldVxK (x : RegId) : OpcodeRow.Statement (.ldVxK x) :=
  ⟨formXNN_matches_sub _ _ _ _ (by decide), by simp [Instr.row, opcodeMap]⟩

theorem OpcodeRow.ldDtVx (x : RegId) : OpcodeRow.Statement (.ldDtVx x) :=
  ⟨formXNN_matches_sub _ _ _ _ (by decide), by simp [Instr.row, opcodeMap]⟩

theorem OpcodeRow.ldStVx (x : RegId) : OpcodeRow.Statement (.ldStVx x) :=
  ⟨formXNN_matches_sub _ _ _ _ (by decide), by simp [Instr.row, opcodeMap]⟩

theorem OpcodeRow.addI (x : RegId) : OpcodeRow.Statement (.addI x) :=
  ⟨formXNN_matches_sub _ _ _ _ (by decide), by simp [Instr.row, opcodeMap]⟩

theorem OpcodeRow.ldF (x : RegId) : OpcodeRow.Statement (.ldF x) :=
  ⟨formXNN_matches_sub _ _ _ _ (by decide), by simp [Instr.row, opcodeMap]⟩

theorem OpcodeRow.ldB (x : RegId) : OpcodeRow.Statement (.ldB x) :=
  ⟨formXNN_matches_sub _ _ _ _ (by decide), by simp [Instr.row, opcodeMap]⟩

theorem OpcodeRow.storeRegs (x : RegId) : OpcodeRow.Statement (.storeRegs x) :=
  ⟨formXNN_matches_sub _ _ _ _ (by decide), by simp [Instr.row, opcodeMap]⟩

theorem OpcodeRow.loadRegs (x : RegId) : OpcodeRow.Statement (.loadRegs x) :=
  ⟨formXNN_matches_sub _ _ _ _ (by decide), by simp [Instr.row, opcodeMap]⟩

end Sys2Proof.Laws
end

