-- ==== Sys2Proof/Laws/Run.lean ====
section
/-! SUPPORT. Runs: the host's `run` one step at a time, what each move of the other agents can change,
what an instruction or a step does to memory, and that no move looks at the schedule. -/

namespace Sys2Proof.Machine

/-! ### The host's run -/

theorem run_zero (s : State) : core.run 0 s = .next s := Host.Core.run.eq_1 core s

theorem run_succ {s t : State} {k : Nat} (h : step s = .next t) :
    core.run (k + 1) s = core.run k t := by
  have h' : core.step s = .next t := h
  have e := Host.Core.run.eq_2 core s k
  rw [h'] at e
  exact e

theorem status_cases (s : State) : s.status = .running ∨ ∃ f, s.status = .halted f := by
  cases h : s.status
  · exact .inl rfl
  · exact .inr ⟨_, rfl⟩

theorem exec_next (i : Instr) (s : State) : ∃ t, exec i s = .next t := by
  obtain ⟨_, e⟩ | ⟨_, e, _⟩ := exec_cases i s <;> exact ⟨_, e⟩

theorem perform_next (m : Move) (s : State) : ∃ t, perform m s = .next t := by
  cases m with
  | instr =>
    obtain ⟨_, e⟩ | ⟨_, _, _, ⟨i, _, e⟩ | ⟨_, _, e⟩⟩ := instrStep_cases s
    · exact ⟨_, e⟩
    · obtain ⟨t, ht⟩ := exec_next i (s.setPc (s.pc + 2))
      exact ⟨t, e.trans ht⟩
    · exact ⟨_, e⟩
  | tick | keyDown k | keyUp k | publish => exact ⟨_, rfl⟩

theorem step_next (s : State) : ∃ t, step s = .next t := by
  rcases status_cases s with h | ⟨f, h⟩
  · rw [step_running h]; exact perform_next _ _
  · exact ⟨s, step_halted h⟩

/-- A relation that is reflexive and that a step in front keeps holds between the ends of every run. -/
theorem run_induction (P : State → State → Prop) (refl : ∀ s, P s s)
    (front : ∀ s t u, step s = .next t → P t u → P s u) (k : Nat) (s t : State)
    (h : core.run k s = .next t) : P s t := by
  induction k generalizing s with
  | zero =>
    rw [run_zero] at h
    cases h
    exact refl _
  | succ k ih =>
    obtain ⟨u, hu⟩ := step_next s
    rw [run_succ hu] at h
    exact front s u t hu (ih u h)

/-! ### Moves along a list -/

theorem act_running {s : State} (h : s.status = .running) (m : Move) :
    act s m = resultState s (perform m s) := by
  unfold act; rw [h]

theorem act_halted {s : State} {f : FaultRecord} (h : s.status = .halted f) (m : Move) :
    act s m = s := by
  unfold act; rw [h]

theorem runMoves_cons (s : State) (m : Move) (l : List Move) :
    runMoves s (m :: l) = runMoves (act s m) l := rfl

theorem runMoves_append (s : State) (l l' : List Move) :
    runMoves s (l ++ l') = runMoves (runMoves s l) l' := by
  simp [runMoves, List.foldl_append]

theorem firstMoves_succ (sched : Nat → Move) (n : Nat) :
    firstMoves sched (n + 1) = firstMoves sched n ++ [sched n] := by
  simp [firstMoves, List.range_succ]

/-! ### Frames of the other agents -/

/-- Frames of two moves, one after the other. -/
theorem Frame.trans {c d : List Part} {s t u : State} (h : Frame c s t) (h' : Frame d t u) :
    Frame (c ++ d) s u := by
  intro p hp
  simp only [List.mem_append, not_or] at hp
  have a := h p hp.1
  have b := h' p hp.2
  cases p <;> simp_all [Part.Same]

theorem takeMove_frame (s : State) : Frame [.schedule] s s.takeMove := by
  intro p hp
  cases p <;> simp_all [Part.Same, State.takeMove]

theorem tickDelay_frame (s : State) : Frame [.delay] s s.tickDelay := by
  unfold State.tickDelay
  split
  · exact Frame.refl _ _
  · intro p hp; cases p <;> simp_all [Part.Same]

theorem tickSound_frame (s : State) : Frame [.sound, .history] s s.tickSound := by
  unfold State.tickSound
  split
  · exact Frame.refl _ _
  · intro p hp; cases p <;> simp_all [Part.Same]

theorem tick_frame (s : State) : Frame [.delay, .sound, .history] s (tick s) :=
  (tickDelay_frame s).trans (tickSound_frame s.tickDelay)

theorem tick_mem (s : State) : (tick s).mem = s.mem := by
  unfold tick State.tickSound State.tickDelay
  repeat' split
  all_goals rfl

/-- A move that is no instruction step: what it leaves, memory as data and every other part. -/
theorem perform_other {m : Move} (s : State) (hm : m ≠ .instr) :
    ∃ t, perform m s = .next t ∧ t.mem = s.mem ∧ Frame [.delay, .sound, .keys, .history] s t := by
  cases m with
  | instr => exact absurd rfl hm
  | tick => exact ⟨_, rfl, tick_mem s, (tick_frame s).mono (by simp)⟩
  | keyDown k =>
    exact ⟨_, rfl, rfl, fun p hp => by cases p <;> simp_all [Part.Same, keyDown]⟩
  | keyUp k => exact ⟨_, rfl, rfl, fun p hp => by cases p <;> simp_all [Part.Same, keyUp]⟩
  | publish => exact ⟨_, rfl, rfl, Frame.refl _ _⟩

/-! ### The reference schedule -/

@[simp] theorem referenceSchedule_nil : referenceSchedule [] = [] := rfl

@[simp] theorem referenceSchedule_cons (events : List KeyEvent) (rest : List (List KeyEvent)) :
    referenceSchedule (events :: rest) =
      events.map KeyEvent.move ++ .instr :: .tick :: .publish :: referenceSchedule rest := rfl

theorem referenceSchedule_append (l l' : List (List KeyEvent)) :
    referenceSchedule (l ++ l') = referenceSchedule l ++ referenceSchedule l' := by
  induction l with
  | nil => rfl
  | cons events rest ih => simp [ih]

/-- A key event is no instruction step and changes only the keypad. -/
theorem perform_keyEvent (e : KeyEvent) (s : State) :
    ∃ t, perform e.move s = .next t ∧ Frame [.keys] s t := by
  cases e
  · exact ⟨_, rfl, fun p hp => by cases p <;> simp_all [Part.Same, keyDown]⟩
  · exact ⟨_, rfl, fun p hp => by cases p <;> simp_all [Part.Same, keyUp]⟩

/-! ### What instructions and steps do to memory -/

theorem regsUpTo_length (s : State) (x : RegId) : (s.regsUpTo x).length = x.val + 1 := by
  have := x.isLt
  simp [State.regsUpTo]

theorem skipIf_mem (c : Bool) (s : State) : (skipIf c s).mem = s.mem := by
  cases c <;> rfl

/-- An instruction leaves memory as it is, as data, or it is Fx33 or Fx55 and writes a block. -/
theorem exec_memory_cases {i : Instr} {s t : State} (h : exec i s = .next t) :
    t.mem = s.mem ∨ ((∃ x, i = .ldB x) ∨ ∃ x, i = .storeRegs x) ∧
      ∃ b bs, writeBlock .fault s.mem (s.indexAddr 0) (b :: bs) = .ok t.mem := by
  cases i with
  | ldB x =>
    obtain ⟨_, e⟩ | ⟨m, hm, e⟩ := ldBWith_cases Policy.reservedWrite x s <;>
      rw [show exec (.ldB x) s = _ from e] at h <;> cases h
    · exact .inl rfl
    · exact .inr ⟨.inl ⟨x, rfl⟩, _, _, hm⟩
  | storeRegs x =>
    obtain ⟨_, e⟩ | ⟨m, hm, e⟩ :=
        storeRegsWith_cases Policy.reservedWrite Policy.loadStoreIncrementsI x s <;>
      rw [show exec (.storeRegs x) s = _ from e] at h <;> cases h
    · exact .inl rfl
    · have hl := regsUpTo_length s x
      match hr : s.regsUpTo x with
      | [] => simp [hr] at hl
      | b :: bs => exact .inr ⟨.inr ⟨x, rfl⟩, b, bs, by rw [hr] at hm; exact hm⟩
  | ret =>
    obtain e | ⟨_, _, _, e⟩ := execRet_cases s <;> rw [show exec .ret s = _ from e] at h <;>
      cases h <;> exact .inl rfl
  | call nnn =>
    obtain ⟨_, e⟩ | ⟨_, e⟩ := callWith_cases Policy.stackDepth nnn s <;>
      rw [show exec (.call nnn) s = _ from e] at h <;> cases h <;> exact .inl rfl
  | skp x =>
    obtain ⟨_, e⟩ | ⟨_, e⟩ := execSkp_cases x s <;> rw [show exec (.skp x) s = _ from e] at h <;>
      cases h
    · exact .inl rfl
    · exact .inl (skipIf_mem _ _)
  | sknp x =>
    obtain ⟨_, e⟩ | ⟨_, e⟩ := execSknp_cases x s <;> rw [show exec (.sknp x) s = _ from e] at h <;>
      cases h
    · exact .inl rfl
    · exact .inl (skipIf_mem _ _)
  | loadRegs x =>
    obtain ⟨_, e⟩ | ⟨_, _, e⟩ := loadRegsWith_cases Policy.loadStoreIncrementsI x s <;>
      rw [show exec (.loadRegs x) s = _ from e] at h <;> cases h <;> exact .inl rfl
  | drw x y rows =>
    obtain ⟨_, e⟩ | ⟨_, _, e⟩ := execDrw_cases x y rows s <;>
      rw [show exec (.drw x y rows) s = _ from e] at h <;> cases h <;> exact .inl rfl
  | ldVxK x =>
    obtain ⟨_, e⟩ | ⟨_, _, e⟩ := execLdVxK_cases x s <;>
      rw [show exec (.ldVxK x) s = _ from e] at h <;> cases h <;> exact .inl rfl
  | addI x =>
    obtain ⟨_, e | ⟨_, e⟩⟩ := addIWith_cases Policy.noOverflowFlag x s <;>
      rw [show exec (.addI x) s = _ from e] at h <;> cases h <;> exact .inl rfl
  | seImm x nn => cases h; exact .inl (skipIf_mem _ _)
  | sneImm x nn => cases h; exact .inl (skipIf_mem _ _)
  | seReg x y => cases h; exact .inl (skipIf_mem _ _)
  | sneReg x y => cases h; exact .inl (skipIf_mem _ _)
  | cls | jp nnn | jpV0 nnn | ldI nnn | ldImm x nn | addImm x nn | rnd x nn | ldReg x y | orReg x y
  | andReg x y | xorReg x y | addReg x y | subReg x y | shr x y | subnReg x y | shl x y | ldVxDt x
  | ldDtVx x | ldStVx x | ldF x =>
    cases h; exact .inl rfl

/-- A step leaves memory as it is, as data, or writes a block of at least one byte. -/
theorem step_memory_cases {s t : State} (h : step s = .next t) :
    t.mem = s.mem ∨ ∃ a b bs, writeBlock .fault s.mem a (b :: bs) = .ok t.mem := by
  rcases status_cases s with hr | ⟨f, hf⟩
  · rw [step_running hr] at h
    by_cases hm : nextMove s = .instr
    · rw [hm] at h
      have h : instrStep s.takeMove = .next t := h
      obtain ⟨_, e⟩ | ⟨_, _, _, ⟨i, _, e⟩ | ⟨_, _, e⟩⟩ := instrStep_cases s.takeMove <;> rw [e] at h
      · cases h; exact .inl rfl
      · rcases exec_memory_cases h with h | ⟨_, b, bs, h⟩
        · exact .inl h
        · exact .inr ⟨_, b, bs, h⟩
      · cases h; exact .inl rfl
    · obtain ⟨u, e, hu, _⟩ := perform_other s.takeMove hm
      rw [e] at h
      cases h
      exact .inl hu
  · rw [step_halted hf] at h
    cases h
    exact .inl rfl

/-- The registers a block write stores are what memory holds after it. -/
theorem writeBlock_regsUpTo {p : Config.ReservedWritePolicy} {x : RegId} {s : State} {m : Memory}
    (h : writeBlock p s.mem (s.indexAddr 0) (s.regsUpTo x) = .ok m) (hm : s.mem.wf = true)
    {j : RegId} (hj : j ≤ x) : m.read (s.indexAddr j.val) = s.reg j := by
  have hj' : j.val < (s.regsUpTo x).length := by
    rw [regsUpTo_length]
    have : j.val ≤ x.val := hj
    omega
  have := writeBlock_read_inside h hm hj'
  rw [show (s.regsUpTo x)[j.val] = s.reg j by simp [State.regsUpTo, State.reg]] at this
  exact this

theorem resetByte_past_font {a : Nat} (h : 0xA0 ≤ a) : resetByte a = 0 := by
  unfold resetByte
  split
  · exact List.getD_eq_default _ _ (by show 80 ≤ a - 0x50; omega)
  · rfl

/-! ### No move looks at the schedule -/

theorem skipIf_setSchedule (c : Bool) (s : State) (l : List Move) :
    skipIf c (s.setSchedule l) = (skipIf c s).setSchedule l := by
  cases c <;> rfl

theorem orRaise_setSchedule {α : Type} {i : Instr} {s : State} {l : List Move}
    (r : Except FatalKind α) (f g : α → Result)
    (h : ∀ a, ∃ t, f a = .next t ∧ g a = .next (t.setSchedule l)) :
    ∃ t, orRaise i s r f = .next t ∧
      orRaise i (s.setSchedule l) r g = .next (t.setSchedule l) := by
  cases r with
  | error k => exact ⟨_, rfl, rfl⟩
  | ok a => exact h a

theorem exec_setSchedule (i : Instr) (s : State) (l : List Move) :
    ∃ t, exec i s = .next t ∧ exec i (s.setSchedule l) = .next (t.setSchedule l) := by
  cases i with
  | ret => exact orRaise_setSchedule _ _ _ fun _ => ⟨_, rfl, rfl⟩
  | call nnn => exact orRaise_setSchedule _ _ _ fun _ => ⟨_, rfl, rfl⟩
  | skp x =>
    exact orRaise_setSchedule _ _ _ fun _ => ⟨_, rfl, congrArg _ (skipIf_setSchedule _ _ _)⟩
  | sknp x =>
    exact orRaise_setSchedule _ _ _ fun _ => ⟨_, rfl, congrArg _ (skipIf_setSchedule _ _ _)⟩
  | ldB x => exact orRaise_setSchedule _ _ _ fun _ => ⟨_, rfl, rfl⟩
  | storeRegs x => exact orRaise_setSchedule _ _ _ fun _ => ⟨_, rfl, rfl⟩
  | loadRegs x => exact orRaise_setSchedule _ _ _ fun _ => ⟨_, rfl, rfl⟩
  | drw x y rows => exact orRaise_setSchedule _ _ _ fun _ => ⟨_, rfl, rfl⟩
  | seImm x nn => exact ⟨_, rfl, congrArg _ (skipIf_setSchedule _ _ _)⟩
  | sneImm x nn => exact ⟨_, rfl, congrArg _ (skipIf_setSchedule _ _ _)⟩
  | seReg x y => exact ⟨_, rfl, congrArg _ (skipIf_setSchedule _ _ _)⟩
  | sneReg x y => exact ⟨_, rfl, congrArg _ (skipIf_setSchedule _ _ _)⟩
  | ldVxK x =>
    show ∃ t, execLdVxK x s = .next t ∧ execLdVxK x (s.setSchedule l) = .next (t.setSchedule l)
    unfold execLdVxK
    rw [show (s.setSchedule l).pressedKeys = s.pressedKeys from rfl]
    cases s.pressedKeys <;> exact ⟨_, rfl, rfl⟩
  | addI x =>
    show ∃ t, addIWith .clear x s = .next t ∧
      addIWith .clear x (s.setSchedule l) = .next (t.setSchedule l)
    unfold addIWith State.setIndexFlag
    rw [show indexOverflow (s.setSchedule l).index ((s.setSchedule l).reg x) =
      indexOverflow s.index (s.reg x) from rfl]
    cases indexOverflow s.index (s.reg x) <;> exact ⟨_, rfl, rfl⟩
  | cls | jp nnn | jpV0 nnn | ldI nnn | ldImm x nn | addImm x nn | rnd x nn | ldReg x y | orReg x y
  | andReg x y | xorReg x y | addReg x y | subReg x y | shr x y | subnReg x y | shl x y | ldVxDt x
  | ldDtVx x | ldStVx x | ldF x =>
    exact ⟨_, rfl, rfl⟩

theorem instrStep_setSchedule (s : State) (l : List Move) :
    ∃ t, instrStep s = .next t ∧ instrStep (s.setSchedule l) = .next (t.setSchedule l) := by
  unfold instrStep
  rw [show fetch (s.setSchedule l).mem (s.setSchedule l).pc.toNat = fetch s.mem s.pc.toNat from rfl]
  cases fetch s.mem s.pc.toNat with
  | error k => exact ⟨_, rfl, rfl⟩
  | ok w =>
    simp only [runWord]
    cases decode w with
    | instr i => exact exec_setSchedule i (s.setPc (s.pc + 2)) l
    | unknown u => exact ⟨_, rfl, rfl⟩

theorem tick_setSchedule (s : State) (l : List Move) :
    tick (s.setSchedule l) = (tick s).setSchedule l := by
  have h1 : (s.setSchedule l).tickDelay = s.tickDelay.setSchedule l := by
    unfold State.tickDelay
    rw [show (s.setSchedule l).delay = s.delay from rfl]
    by_cases h : s.delay = 0
    · rw [if_pos h, if_pos h]
    · rw [if_neg h, if_neg h]; rfl
  unfold tick
  rw [h1]
  generalize s.tickDelay = u
  unfold State.tickSound
  rw [show (u.setSchedule l).sound = u.sound from rfl]
  by_cases h : u.sound = 0
  · rw [if_pos h, if_pos h]
  · rw [if_neg h, if_neg h]; rfl

/-- What a move does, it does whatever the schedule holds. -/
theorem perform_setSchedule (m : Move) (s : State) (l : List Move) :
    ∃ t, perform m s = .next t ∧ perform m (s.setSchedule l) = .next (t.setSchedule l) := by
  cases m with
  | instr => exact instrStep_setSchedule s l
  | tick => exact ⟨_, rfl, congrArg _ (tick_setSchedule s l)⟩
  | keyDown k | keyUp k | publish => exact ⟨_, rfl, rfl⟩

end Sys2Proof.Machine
end

