-- ==== Sys2Proof/Tests/Slice0.lean ====
section
/-! SUPPORT. Tests, each of one step or one operation. The expected results are those of
95_test_vectors (E1 to E12, V1 to V123), named in each comment, or worked out by hand from the rule
named. At the end, for every obligation with hypotheses, a state and operands that meet them. -/

namespace Sys2Proof.Tests

open Sys2Proof Sys2Proof.Machine

/-! ### Helpers -/

/-- The reset state with a word at 0x200 that the next step fetches. -/
def withWord (w : Nat) : State := State.reset.withFetchWord 16 w

/-- The state after one step. -/
def after (s : State) : State := resultState s (step s)

/-- The state after an instruction. -/
def done (i : Instr) (s : State) : State := resultState s (exec i s)

/-- One byte of memory set. -/
def poke (s : State) (a : Nat) (b : Byte) : State := s.setMem (s.mem.write a b)

/-- The reset state about to make a move. -/
def aboutTo (m : Move) : State := State.reset.setSchedule [m]

/-- A fault record of an instruction at 0x200. -/
def haltAt200 (k : FatalKind) (w : Word) : Status :=
  .halted { kind := k, word := some w, address := 0x200 }

/-! ### Well-formedness (30_encoding R69, R70) -/

theorem test_wellFormed_rows_15 : (Instr.drw 0 1 15).wellFormed = true := by decide
theorem test_wellFormed_rows_16_refused : (Instr.drw 0 1 16).wellFormed = false := by decide

/-! ### Decoding: words written out from the patterns of 30_encoding R79 -/

theorem test_decode_control :
    decode 0b0000000011101110#16 = .instr .ret ∧
    decode 0b0001101010111100#16 = .instr (.jp 0xABC#12) ∧
    decode 0b0010001000010000#16 = .instr (.call 0x210#12) ∧
    decode 0b0011111100000001#16 = .instr (.seImm 15 0x01) ∧
    decode 0b0100000000010011#16 = .instr (.sneImm 0 0x13) ∧
    decode 0b0101101000110000#16 = .instr (.seReg 10 3) ∧
    decode 0b1001001110100000#16 = .instr (.sneReg 3 10) ∧
    decode 0b1011001100000000#16 = .instr (.jpV0 0x300#12) := by decide

theorem test_decode_alu_immediate :
    decode 0b0110101001000010#16 = .instr (.ldImm 10 0x42) ∧
    decode 0b0111001111111111#16 = .instr (.addImm 3 0xFF) ∧
    decode 0b1100001111110000#16 = .instr (.rnd 3 0xF0) := by decide

theorem test_decode_alu_register :
    decode 0b1000000100100000#16 = .instr (.ldReg 1 2) ∧
    decode 0b1000000100100001#16 = .instr (.orReg 1 2) ∧
    decode 0b1000000100100010#16 = .instr (.andReg 1 2) ∧
    decode 0b1000000100100011#16 = .instr (.xorReg 1 2) ∧
    decode 0b1000111100010100#16 = .instr (.addReg 15 1) ∧
    decode 0b1000000100100101#16 = .instr (.subReg 1 2) ∧
    decode 0b1000000100100110#16 = .instr (.shr 1 2) ∧
    decode 0b1000000100100111#16 = .instr (.subnReg 1 2) ∧
    decode 0b1000000100101110#16 = .instr (.shl 1 2) := by decide

theorem test_decode_index_memory :
    decode 0b1010000100100011#16 = .instr (.ldI 0x123#12) ∧
    decode 0b1111111100011110#16 = .instr (.addI 15) ∧
    decode 0b1111001000101001#16 = .instr (.ldF 2) ∧
    decode 0b1111101000110011#16 = .instr (.ldB 10) ∧
    decode 0b1111001001010101#16 = .instr (.storeRegs 2) ∧
    decode 0b1111001001100101#16 = .instr (.loadRegs 2) := by decide

theorem test_decode_display :
    decode 0b0000000011100000#16 = .instr .cls ∧
    decode 0b1101000100101111#16 = .instr (.drw 1 2 15) := by decide

theorem test_decode_keypad_timers :
    decode 0b1110010110011110#16 = .instr (.skp 5) ∧
    decode 0b1110010110100001#16 = .instr (.sknp 5) ∧
    decode 0b1111001100000111#16 = .instr (.ldVxDt 3) ∧
    decode 0b1111010100001010#16 = .instr (.ldVxK 5) ∧
    decode 0b1111000000010101#16 = .instr (.ldDtVx 0) ∧
    decode 0b1111000000011000#16 = .instr (.ldStVx 0) := by decide

/-- Words that are no instruction: the words of V3 to V6. -/
def unknownWords : List Word :=
  [0x0000, 0x0123, 0x00E1, 0x00EF, 0x00FF, 0x5011, 0x9011, 0x8018, 0x801F, 0xE000, 0xE19F, 0xF000,
   0xF01F, 0xFFFF]

/-- V3 to V6. -/
theorem test_decode_unknown : unknownWords.map decode = unknownWords.map .unknown := by decide

/-- R55, R68, R81: big-endian, two bytes, the rest given back; fewer bytes refused by name. -/
theorem test_decodeBytes :
    decodeBytes [0xA1, 0x23, 0x77] = .ok (.ldI 0x123#12, [0x77]) ∧
    decodeBytes [0xA1] = .error .truncated ∧
    decodeBytes [0x50, 0x11] = .error (.unknownOpcode 0x5011#16) := by decide

theorem test_decodeTableWord :
    decodeTableWord 16 0x6A42 = some (.ldImm 10 0x42) ∧ decodeTableWord 16 0x5011 = none := by decide

/-- R55 and R69: the bytes of LD I, 0x123. -/
theorem test_encodeBytes : encodeBytes (.ldI 0x123#12) = [0xA1, 0x23] := by decide

/-! ### Reset and memory -/

/-- V1, E8 and E12 (20_memory R50). -/
theorem test_reset_memory :
    ([0x050, 0x09F, 0x04F, 0x0A0, 0x000, 0x1FF, 0xFFF].map State.reset.mem.read) =
      [0xF0, 0x80, 0, 0, 0, 0, 0] ∧
    ([0x082, 0x083, 0x084, 0x085, 0x086].map State.reset.mem.read) =
      [0xF0, 0x90, 0xF0, 0x90, 0x90] := by decide

/-- 20_memory R50: 80 bytes, the low nibble of each 0. -/
theorem test_font_shape : fontTable.length = 80 ∧ ∀ b ∈ fontTable, b.toNat % 16 = 0 := by decide

/-- Log 14: the canonical form does not depend on the order of the writes, and a write of what an
unlisted address reads as removes the pair. -/
theorem test_memory_canonical :
    (Memory.write [] 0x301 2).write 0x300 1 = [(0x300, 1), (0x301, 2)] ∧
    Memory.write [(0x300, 1), (0x301, 2)] 0x300 0 = [(0x301, 2)] ∧
    Memory.write [(0x050, 1)] 0x050 0xF0 = [] := by decide

/-! ### Fetch, reports and the host's interface -/

/-- V2. -/
theorem test_step_fetches_big_endian :
    (after (poke (poke State.reset 0x200 0xA1) 0x201 0x23)).index = 0x123 := by decide

/-- V3. -/
theorem test_step_reports_unknown :
    (after (withWord 0x0000)).history = [.report 0x0000 0x200] ∧
    (after (withWord 0x0000)).pc = 0x202 := by decide

/-- V8 and V9. -/
theorem test_fetch_past_the_end :
    (after (State.reset.setPc 0x1000)).status =
      .halted { kind := .memoryOutOfRange 0x1000, word := none, address := 0x1000 } ∧
    (after (State.reset.setPc 0xFFF)).status =
      .halted { kind := .memoryOutOfRange 0x1000, word := none, address := 0xFFF } ∧
    (after (State.reset.setPc 0xFFF)).pc = 0xFFF := by decide

/-- Log 13: from a halted machine with no room for two bytes at `pc`, and from a schedule. -/
theorem test_withFetchWord :
    let s := (State.reset.setPc 0xFFF).halt .stackUnderflow none 0xFFF
    (after (s.withFetchWord 16 0x6A42)).reg 10 = 0x42 ∧
    (after ((aboutTo .tick).withFetchWord 16 0x6A42)).schedule = [.tick] := by decide

/-! ### Control flow -/

/-- V13. -/
theorem test_ret : let t := done .ret ((State.reset.setStack [0x206]).setPc 0x214)
    t.pc = 0x206 ∧ t.stack = [] := by decide
/-- V14. -/
theorem test_ret_underflow : let t := after (withWord 0x00EE)
    t.status = haltAt200 .stackUnderflow 0x00EE ∧ t.pc = 0x202 := by decide
/-- V15. -/
theorem test_jp : (after (withWord 0x1ABC)).pc = 0xABC := by decide
/-- V18. -/
theorem test_call : let t := after ((withWord 0x2300).setStack (List.replicate 15 0x204))
    t.pc = 0x300 ∧ t.stack = List.replicate 15 0x204 ++ [0x202] := by decide
/-- V19. -/
theorem test_call_overflow : let t := after ((withWord 0x2300).setStack (List.replicate 16 0x204))
    t.status = haltAt200 .stackOverflow 0x2300 ∧ t.pc = 0x202 ∧ t.stack.length = 16 := by decide
/-- V21. -/
theorem test_seImm : (after ((withWord 0x3012).setReg 0 0x12)).pc = 0x204 ∧
    (after ((withWord 0x3013).setReg 0 0x12)).pc = 0x202 := by decide
/-- V22. -/
theorem test_sneImm : (after ((withWord 0x4013).setReg 0 0x12)).pc = 0x204 ∧
    (after ((withWord 0x4012).setReg 0 0x12)).pc = 0x202 := by decide
/-- V24. -/
theorem test_seReg : (after (((withWord 0x5010).setReg 0 7).setReg 1 7)).pc = 0x204 ∧
    (after (((withWord 0x5010).setReg 0 7).setReg 1 8)).pc = 0x202 := by decide
/-- V26. -/
theorem test_sneReg : (after (((withWord 0x9010).setReg 0 7).setReg 1 8)).pc = 0x204 ∧
    (after (((withWord 0x9010).setReg 0 7).setReg 1 7)).pc = 0x202 := by decide
/-- V30: the sum is not masked. -/
theorem test_jpV0 : (after ((withWord 0xBFFF).setReg 0 0xFF)).pc = 0x10FE := by decide
/-- V32: the x field selects no register. -/
theorem test_jpV0_uses_V0 : (after ((withWord 0xB300).setReg 3 0x40)).pc = 0x300 := by decide

/-! ### Register loads, arithmetic and logic -/

/-- V33. -/
theorem test_ldImm : (after (withWord 0x6A42)).reg 10 = 0x42 := by decide
/-- V35. -/
theorem test_addImm : let t := after (((withWord 0x7302).setReg 3 0xFF).setReg 15 0x55)
    t.reg 3 = 0x01 ∧ t.reg 15 = 0x55 := by decide
/-- V38. -/
theorem test_ldReg : (after ((withWord 0x8010).setReg 1 0x34)).reg 0 = 0x34 := by decide
/-- V39. -/
theorem test_orReg :
    let t := after ((((withWord 0x8011).setReg 0 0xF0).setReg 1 0x0F).setReg 15 0x55)
    t.reg 0 = 0xFF ∧ t.reg 15 = 0x55 := by decide
/-- V40. -/
theorem test_andReg :
    let t := after ((((withWord 0x8012).setReg 0 0xF0).setReg 1 0x3C).setReg 15 0x55)
    t.reg 0 = 0x30 ∧ t.reg 15 = 0x55 := by decide
/-- V41. -/
theorem test_xorReg :
    let t := after ((((withWord 0x8013).setReg 0 0xFF).setReg 1 0x0F).setReg 15 0x55)
    t.reg 0 = 0xF0 ∧ t.reg 15 = 0x55 := by decide
/-- V44. -/
theorem test_addReg : let t := after (((withWord 0x8014).setReg 0 0x80).setReg 1 0x80)
    t.reg 0 = 0 ∧ t.reg 15 = 1 := by decide
/-- V48: the old VF is the operand. -/
theorem test_addReg_reads_vf : let t := after (((withWord 0x81F4).setReg 1 1).setReg 15 0xFF)
    t.reg 1 = 0 ∧ t.reg 15 = 1 := by decide
/-- V49. -/
theorem test_subReg : let t := after (((withWord 0x8015).setReg 0 3).setReg 1 5)
    t.reg 0 = 0xFE ∧ t.reg 15 = 0 := by decide
/-- V52: the flag overwrites the result. -/
theorem test_subReg_into_vf :
    (after (((withWord 0x8F15).setReg 15 5).setReg 1 3)).reg 15 = 1 := by decide
/-- V55. -/
theorem test_shr : let t := after (((withWord 0x8016).setReg 0 4).setReg 1 3)
    t.reg 0 = 2 ∧ t.reg 15 = 0 := by decide
/-- V55, the other `SHIFT_SOURCE`. -/
theorem test_shr_vy :
    let s := (State.reset.setReg 0 4).setReg 1 3
    (resultState s (shrWith .vy 0 1 s)).reg 0 = 1 ∧
    (resultState s (shrWith .vy 0 1 s)).reg 15 = 1 := by decide
/-- V57. -/
theorem test_subnReg : let t := after (((withWord 0x8017).setReg 0 3).setReg 1 5)
    t.reg 0 = 2 ∧ t.reg 15 = 1 := by decide
/-- V58. -/
theorem test_subnReg_borrow : let t := after (((withWord 0x8017).setReg 0 5).setReg 1 3)
    t.reg 0 = 0xFE ∧ t.reg 15 = 0 := by decide
/-- V60. -/
theorem test_shl : let t := after ((withWord 0x800E).setReg 0 0x81)
    t.reg 0 = 2 ∧ t.reg 15 = 1 := by decide
/-- V61. -/
theorem test_shl_no_carry : let t := after ((withWord 0x800E).setReg 0 0x40)
    t.reg 0 = 0x80 ∧ t.reg 15 = 0 := by decide

/-- The reset state with a byte the random source has supplied. -/
def supplied (b : Byte) (w : Nat) : State := { withWord w with randomIn := [b] }

/-- V64: the supplied byte is masked, and taken. -/
theorem test_rnd : let t := after (supplied 0xAB 0xC00F)
    t.reg 0 = 0x0B ∧ t.randomIn = [] := by decide
/-- V65: any draw, a free value among them. -/
theorem test_rnd_any : (after (withWord 0xC000)).reg 0 = 0 := by
  show (withWord 0xC000).randomByte &&& 0#8 = 0#8
  simp

/-! ### Index register and memory blocks -/

/-- V68. -/
theorem test_ldI : (after (withWord 0xA123)).index = 0x123 := by decide
/-- V69. -/
theorem test_addI_overflow : let t := after (((withWord 0xF01E).setIndex 0xFFE).setReg 0 3)
    t.index = 1 ∧ t.reg 15 = 1 := by decide
/-- V72: the old VF is added, then cleared. -/
theorem test_addI_vf : let t := after (((withWord 0xFF1E).setIndex 0x100).setReg 15 2)
    t.index = 0x102 ∧ t.reg 15 = 0 := by decide
/-- V74. -/
theorem test_ldF : (after ((withWord 0xF029).setReg 0 0x1A)).index = 0x082 ∧
    (after ((withWord 0xF029).setReg 0 0x0F)).index = 0x09B := by decide
/-- V79. -/
theorem test_ldB : let t := after (((withWord 0xF033).setReg 0 0x7B).setIndex 0xFFD)
    ([0xFFD, 0xFFE, 0xFFF].map t.mem.read) = [1, 2, 3] := by decide
/-- V81: nothing is written when the first address is reserved. -/
theorem test_ldB_reserved : let t := after ((withWord 0xF033).setIndex 0x1FF)
    t.status = haltAt200 (.reservedWrite 0x1FF) 0xF033 ∧ t.mem = (withWord 0xF033).mem := by decide
/-- V83. -/
theorem test_storeRegs :
    let t := after (((((withWord 0xF255).setReg 0 1).setReg 1 2).setReg 2 3).setIndex 0x300)
    ([0x300, 0x301, 0x302, 0x303].map t.mem.read) = [1, 2, 3, 0] ∧ t.index = 0x300 := by decide
/-- V86: nothing is written when the last address does not exist. -/
theorem test_storeRegs_past_the_end : let t := after ((withWord 0xFF55).setIndex 0xFF1)
    t.status = haltAt200 (.memoryOutOfRange 0x1000) 0xFF55 ∧ t.mem = (withWord 0xFF55).mem := by
  decide
/-- V88: the font can be read. -/
theorem test_loadRegs : let t := after ((withWord 0xF165).setIndex 0x050)
    t.reg 0 = 0xF0 ∧ t.reg 1 = 0x90 ∧ t.reg 2 = 0 ∧ t.index = 0x050 := by decide
/-- V90: nothing is loaded when the last address does not exist. -/
theorem test_loadRegs_past_the_end :
    let t := after (((withWord 0xF165).setIndex 0xFFF).setReg 0 0x77)
    t.status = haltAt200 (.memoryOutOfRange 0x1000) 0xF165 ∧ t.reg 0 = 0x77 := by decide

/-! ### Display -/

/-- V91. -/
theorem test_cls :
    let t := after ((withWord 0x00E0).setDisplay (Display.blank.flip 31 63))
    t.display.pixel 31 63 = false ∧ t.pc = 0x202 := by decide
/-- V97: one pixel turns off, a collision, and one turns on. -/
theorem test_drw_collision :
    let t := after ((poke (withWord 0xD011) 0x301 0x18).setIndex 0x301 |>.setDisplay
      (Display.blank.flip 0 3))
    t.display.pixel 0 3 = false ∧ t.display.pixel 0 4 = true ∧ t.reg 15 = 1 := by decide
/-- V96: the origin wraps, the sprite is clipped on both edges. -/
theorem test_drw_clips :
    let t := after ((((poke (poke (withWord 0xD012) 0x300 0xF8) 0x301 0x80).setIndex 0x300).setReg 0
      0x7C).setReg 1 0x3F)
    t.display.pixel 31 60 = true ∧ t.display.pixel 31 63 = true ∧ t.display.pixel 31 0 = false ∧
      t.display.pixel 0 60 = false ∧ t.reg 15 = 0 := by decide

/-! ### Keypad and timers -/

/-- V103 and V104. -/
theorem test_skp : (after (((withWord 0xE09E).setReg 0 5).setKey 5 true)).pc = 0x204 ∧
    (after ((withWord 0xE09E).setReg 0 5)).pc = 0x202 := by decide
/-- V106. -/
theorem test_skp_no_such_key : let t := after ((withWord 0xE09E).setReg 0 0x10)
    t.status = haltAt200 (.keyIndexOutOfRange 0x10) 0xE09E ∧ t.pc = 0x202 := by decide
/-- V105. -/
theorem test_sknp : (after (((withWord 0xE0A1).setReg 0 5).setKey 5 true)).pc = 0x202 ∧
    (after ((withWord 0xE0A1).setReg 0 5)).pc = 0x204 := by decide
/-- V107. -/
theorem test_sknp_no_such_key :
    (after ((withWord 0xE0A1).setReg 0 0xFF)).status =
      haltAt200 (.keyIndexOutOfRange 0xFF) 0xE0A1 := by decide
/-- V108. -/
theorem test_ldVxDt : (after ((withWord 0xF307).setDelay 0x2A)).reg 3 = 0x2A := by decide
/-- V109. -/
theorem test_ldVxK_waits : let t := after ((withWord 0xF50A).setReg 5 0x33)
    t.pc = 0x200 ∧ t.reg 5 = 0x33 ∧ t.status = .running := by decide
/-- V110. -/
theorem test_ldVxK : let t := after ((withWord 0xF50A).setKey 7 true)
    t.reg 5 = 7 ∧ t.pc = 0x202 ∧ t.key 7 = true := by decide
/-- V112. -/
theorem test_ldDtVx : (after ((withWord 0xF015).setReg 0 5)).delay = 5 := by decide
/-- V113. -/
theorem test_ldStVx : let t := after ((withWord 0xF018).setReg 0 0x20)
    t.sound = 0x20 ∧ t.history = [] := by decide

/-! ### The other agents and the loader -/

/-- V117. -/
theorem test_tick : let t := after (((aboutTo .tick).setDelay 1).setSound 1)
    t.delay = 0 ∧ t.sound = 0 ∧ t.history = [.beep] := by decide
/-- V115. -/
theorem test_tick_at_zero : after (aboutTo .tick) = State.reset := by decide
/-- 70_reset R159 and program P5: key 7 goes down before the first iteration of the reference schedule. -/
theorem test_referenceSchedule :
    referenceSchedule [[.down 7], []] =
      [.keyDown 7, .instr, .tick, .publish, .instr, .tick, .publish] ∧
    let s := runMoves ((withWord 0xF50A).setDelay 5) (referenceSchedule [[.down 7]])
    s.reg 5 = 7 ∧ s.delay = 4 := by decide
/-- V119. -/
theorem test_keyDown : let t := after (aboutTo (.keyDown 4))
    t.key 4 = true ∧ t.key 5 = false := by decide
/-- V12. -/
theorem test_halted_stays :
    let s := (aboutTo (.keyDown 4)).halt .stackUnderflow (some 0x00EE) 0x200
    after s = s := by decide
/-- V123. -/
theorem test_load :
    load [0x12, 0x00] State.reset = .ok (State.reset.setMem [(0x200, 0x12)]) := by decide
/-- V121. -/
theorem test_load_too_large :
    load (List.replicate 3585 0) State.reset = .romTooLarge 3585 := by
  unfold load
  rw [List.length_replicate]
  rfl

/-! ### Witnesses: for every obligation with hypotheses, values that meet them together, at the ends of
each clause's range -/

theorem witness_ResetLeavesTheStatedValues :
    (∀ a ∈ [0, 0x04F, 0x0A0, 4095], a < 4096 ∧ ¬ (0x050 ≤ a ∧ a < 0x0A0)) ∧ 0 < 80 ∧ 79 < 80 := by
  decide

/-- At 0x200, and at 0xFFE, the last address an instruction can be fetched from (V7). -/
theorem witness_StepExecutesTheDecodedInstruction :
    ((withWord 0x6005).AboutToStep ∧ (withWord 0x6005).pc.toNat + 1 < 4096 ∧
      decode (wordOfBytes ((withWord 0x6005).mem.read 0x200) ((withWord 0x6005).mem.read 0x201)) =
        .instr (.ldImm 0 5)) ∧
    let s := (State.reset.setPc 0xFFE).withFetchWord 16 0x6005
    s.AboutToStep ∧ s.pc.toNat + 1 < 4096 ∧
      decode (wordOfBytes (s.mem.read 0xFFE) (s.mem.read 0xFFF)) = .instr (.ldImm 0 5) :=
  ⟨⟨⟨rfl, rfl⟩, by decide, by decide⟩, ⟨rfl, rfl⟩, by decide, by decide⟩

theorem witness_FetchReadsTwoBytesOrHalts :
    0xFFE + 1 < 4096 ∧ 4096 ≤ (State.reset.setPc 0xFFF).pc.toNat + 1 ∧
    4096 ≤ (State.reset.setPc 0x10FE).pc.toNat + 1 := by decide

theorem witness_UnknownOpcodeIsReportedAndSkipped :
    (withWord 0x5011).status = .running ∧
    fetch (withWord 0x5011).mem (withWord 0x5011).pc.toNat = .ok 0x5011#16 ∧
    decode 0x5011#16 = .unknown 0x5011#16 := by decide

theorem witness_DecodeOfEncodeIsTheInstruction :
    (Instr.drw 15 15 15).wellFormed = true ∧ (Instr.jp 0xFFF#12).wellFormed = true := by decide

theorem witness_EncodeOfDecodeIsTheWord : decode 0xDFFF#16 = .instr (.drw 15 15 15) := by decide

theorem witness_DecodeFollowsTheOpcodeMap :
    (0x8006#16, 0xF00F#16) ∈ opcodeMap ∧ 0x8FF6#16 &&& 0xF00F#16 = 0x8006#16 ∧
    decode 0x8FF6#16 = .instr (.shr 15 15) ∧ (opcodeMap.all fun r => 0x8018#16 &&& r.2 != r.1) = true ∧
    decode 0x8018#16 = .unknown 0x8018#16 := by decide

theorem witness_RetPopsTheReturnAddress :
    (State.reset.setStack [0x206]).stack = [] ++ [0x206] ∧ State.reset.stack = [] := by decide

theorem witness_JpGoesToItsAddress : fieldOp 0x1ABC#16 = 0x1#4 := by decide

/-- 15 entries and 16; depths 1 and 0 on an empty stack. -/
theorem witness_CallPushesTheNextAddressAndJumps :
    fieldOp 0x2300#16 = 0x2#4 ∧ (State.reset.setStack (List.replicate 15 0x204)).stack.length < 16 ∧
    16 ≤ (State.reset.setStack (List.replicate 16 0x204)).stack.length ∧
    State.reset.stack.length < 1 ∧ 0 ≤ State.reset.stack.length := by decide

theorem witness_ImmediateSkips :
    fieldOp 0x3012#16 = 0x3#4 ∧ fieldOp 0x4012#16 = 0x4#4 ∧
    (State.reset.reg 15).toNat = (0 : Byte).toNat ∧ (State.reset.reg 15).toNat ≠ (1 : Byte).toNat := by
  decide

theorem witness_RegisterSkips :
    (fieldOp 0x5010#16 = 0x5#4 ∧ fieldN 0x5010#16 = 0#4) ∧
    (fieldOp 0x5011#16 = 0x5#4 ∧ fieldN 0x5011#16 ≠ 0#4) ∧
    (fieldOp 0x9010#16 = 0x9#4 ∧ fieldN 0x9010#16 = 0#4) ∧
    (fieldOp 0x901F#16 = 0x9#4 ∧ fieldN 0x901F#16 ≠ 0#4) ∧
    (State.reset.reg 0).toNat = (State.reset.reg 1).toNat ∧
    ((State.reset.setReg 1 1).reg 0).toNat ≠ ((State.reset.setReg 1 1).reg 1).toNat := by decide

theorem witness_JpV0AddsV0ToItsAddress : fieldOp 0xBFFF#16 = 0xB#4 := by decide

theorem witness_LoadsCopyIntoVx :
    fieldOp 0x6A42#16 = 0x6#4 ∧ fieldOp 0x8120#16 = 0x8#4 ∧ fieldN 0x8120#16 = 0#4 := by decide

theorem witness_AddImmediateWrapsWithoutFlag : fieldOp 0x7302#16 = 0x7#4 := by decide

theorem witness_LogicActsBitwiseWithoutFlag :
    (fieldOp 0x8121#16 = 0x8#4 ∧ fieldN 0x8121#16 = 0x1#4) ∧
    (fieldOp 0x8122#16 = 0x8#4 ∧ fieldN 0x8122#16 = 0x2#4) ∧
    (fieldOp 0x8123#16 = 0x8#4 ∧ fieldN 0x8123#16 = 0x3#4) := by decide

/-- Sums of 255 and of 256, and the destination other than VF. -/
theorem witness_AddSetsTheCarry :
    (fieldOp 0x8014#16 = 0x8#4 ∧ fieldN 0x8014#16 = 0x4#4) ∧ (0 : RegId) ≠ 15 ∧
    (let s := (State.reset.setReg 0 0x80).setReg 1 0x80;
      255 < (s.reg 0).toNat + (s.reg 1).toNat) ∧
    let s := (State.reset.setReg 0 0x80).setReg 1 0x7F
    (s.reg 0).toNat + (s.reg 1).toNat ≤ 255 := by decide

theorem witness_SubtractionsSetNoBorrow :
    (fieldOp 0x8015#16 = 0x8#4 ∧ fieldN 0x8015#16 = 0x5#4) ∧
    (fieldOp 0x8017#16 = 0x8#4 ∧ fieldN 0x8017#16 = 0x7#4) ∧ (0 : RegId) ≠ 15 ∧
    (State.reset.reg 1).toNat ≤ (State.reset.reg 0).toNat ∧
    ((State.reset.setReg 1 1).reg 0).toNat < ((State.reset.setReg 1 1).reg 1).toNat := by decide

theorem witness_ShiftsMoveOneBitIntoVf :
    (fieldOp 0x8016#16 = 0x8#4 ∧ fieldN 0x8016#16 = 0x6#4) ∧
    (fieldOp 0x801E#16 = 0x8#4 ∧ fieldN 0x801E#16 = 0xE#4) ∧ (14 : RegId) ≠ 15 := by decide

theorem witness_SameRegisterForms : (14 : RegId) ≠ 15 := by decide

theorem witness_RndMasksTheRandomByte :
    fieldOp 0xC00F#16 = 0xC#4 ∧ (supplied 0xAB 0xC00F).randomIn = 0xAB :: [] ∧
    State.reset.randomIn = [] ∧ 7 < 8 := by decide

theorem witness_LdILoadsItsAddress : fieldOp 0xA123#16 = 0xA#4 := by decide

/-- Sums of 0xFFF and of 0x1000. -/
theorem witness_AddIMasksAndFlagsOverflow :
    (fieldOp 0xF01E#16 = 0xF#4 ∧ fieldNN 0xF01E#16 = 0x1E#8) ∧
    (let s := (State.reset.setIndex 0xFFF).setReg 0 1;
      0xFFF < s.index.toNat + (s.reg 0).toNat) ∧
    let s := (State.reset.setIndex 0xFF0).setReg 0 0x0F
    s.index.toNat + (s.reg 0).toNat ≤ 0xFFF := by decide

theorem witness_LdFPointsAtTheGlyph :
    fieldOp 0xF029#16 = 0xF#4 ∧ fieldNN 0xF029#16 = 0x29#8 := by decide

/-- `I` at 0x200 and at 0xFFD; at 0x1FF; at 0xFFE; under `allow`, at 0. -/
theorem witness_LdBStoresThreeDigits :
    (fieldOp 0xF033#16 = 0xF#4 ∧ fieldNN 0xF033#16 = 0x33#8) ∧ State.reset.mem.wf = true ∧
    (∀ i ∈ [0x200, 0xFFD], 0x200 ≤ (State.reset.setIndex (BitVec.ofNat 16 i)).index.toNat ∧
      (State.reset.setIndex (BitVec.ofNat 16 i)).index.toNat + 2 < 4096) ∧
    (State.reset.setIndex 0x1FF).index.toNat < 0x200 ∧
    4096 ≤ (State.reset.setIndex 0xFFE).index.toNat + 2 ∧ State.reset.index.toNat + 2 < 4096 := by
  decide

/-- x = 15 with `I` at 0x200 and at 0xFF0; at 0x1FF; at 0xFF1; under `allow`, at 0. -/
theorem witness_StoreRegsStoresV0ToVx :
    (fieldOp 0xFF55#16 = 0xF#4 ∧ fieldNN 0xFF55#16 = 0x55#8) ∧ State.reset.mem.wf = true ∧
    (∀ i ∈ [0x200, 0xFF0], 0x200 ≤ (State.reset.setIndex (BitVec.ofNat 16 i)).index.toNat ∧
      (State.reset.setIndex (BitVec.ofNat 16 i)).index.toNat + (15 : RegId).val < 4096) ∧
    (15 : RegId) ≤ 15 ∧ (State.reset.setIndex 0x1FF).index.toNat < 0x200 ∧
    0x200 ≤ (State.reset.setIndex 0xFF1).index.toNat ∧
    4096 ≤ (State.reset.setIndex 0xFF1).index.toNat + (15 : RegId).val ∧
    (Config.ReservedWritePolicy.allow = .allow ∨ 0x200 ≤ State.reset.index.toNat) ∧
    State.reset.index.toNat + (15 : RegId).val < 4096 := by decide

/-- x = 14 with `I` at 0xFF1, the last that fits, a register loaded and one past x; `I` at 0xFF2. -/
theorem witness_LoadRegsLoadsV0ToVx :
    (fieldOp 0xFE65#16 = 0xF#4 ∧ fieldNN 0xFE65#16 = 0x65#8) ∧
    (State.reset.setIndex 0xFF1).index.toNat + (14 : RegId).val < 4096 ∧ (14 : RegId) ≤ 14 ∧
    (14 : RegId) < 15 ∧ 4096 ≤ (State.reset.setIndex 0xFF2).index.toNat + (14 : RegId).val := by decide

theorem witness_StoredBytesAreFetched :
    State.reset.mem.wf = true ∧ 0x200 ≤ (State.reset.setIndex 0xFF0).index.toNat ∧
    (State.reset.setIndex 0xFF0).index.toNat + (15 : RegId).val < 4096 ∧ (15 : RegId) ≤ 15 ∧
    (15 : RegId).val = (14 : RegId).val + 1 := by decide

/-- No rows; the last byte of memory; one byte too many; a pixel that is covered and on, one that is
covered and off, one that is not covered. -/
theorem witness_DrwFlipsTheSpritePixels :
    fieldOp 0xD01F#16 = 0xD#4 ∧ ((0 = 0) ∨ State.reset.index.toNat + 0 ≤ 4096) ∧
    (1 = 0 ∨ (State.reset.setIndex 0xFFF).index.toNat + 1 ≤ 4096) ∧
    (2 ≠ 0 ∧ 4096 < (State.reset.setIndex 0xFFF).index.toNat + 2) ∧
    (SpriteCovers [(0x300, 0x80)] 0x300 1 63 31 31 63 ∧
      (Display.blank.flip 31 63).pixel 31 63 = true ∧ Display.blank.pixel 31 63 = false) ∧
    ¬ SpriteCovers [(0x300, 0x80)] 0x300 1 63 31 0 0 := by
  refine ⟨by decide, by decide, by decide, by decide,
    ⟨⟨0, 0, by decide, by decide, rfl, rfl, by decide⟩, by decide, by decide⟩, ?_⟩
  rintro ⟨k, j, _, _, h, _⟩
  exact absurd h (by show ¬ 31 + k = 0; omega)

/-- A pixel under a 1 bit that is off before the first draw. -/
theorem witness_DrawingTwiceRestoresTheDisplay :
    (0 : RegId) ≠ 15 ∧ (1 : RegId) ≠ 15 ∧ (1 = 0 ∨ (State.reset.setIndex 0xFFF).index.toNat + 1 ≤ 4096) ∧
    SpriteCovers [(0xFFF, 0x80)] 0xFFF 1 0 0 0 0 ∧ State.reset.display.pixel 0 0 = false :=
  ⟨by decide, by decide, by decide, ⟨0, 0, by decide, by decide, rfl, rfl, by decide⟩, by decide⟩

/-- Vx at 15, the key down and up; Vx at 16. -/
theorem witness_KeySkips :
    (fieldOp 0xE09E#16 = 0xE#4 ∧ fieldNN 0xE09E#16 = 0x9E#8) ∧
    (fieldOp 0xE0A1#16 = 0xE#4 ∧ fieldNN 0xE0A1#16 = 0xA1#8) ∧
    ((State.reset.setReg 0 15).reg 0).toNat = (15 : KeyId).val ∧
    (State.reset.setKey 15 true).key 15 = true ∧ State.reset.key 15 = false ∧
    15 < ((State.reset.setReg 0 16).reg 0).toNat := by decide

theorem witness_LdVxDtReadsTheDelayTimer :
    fieldOp 0xF307#16 = 0xF#4 ∧ fieldNN 0xF307#16 = 0x07#8 := by decide

/-- No key down; keys 3 and 9 down (V111); key 7 alone. -/
theorem witness_KeyWaitRewindsOrStoresAPressedKey :
    (fieldOp 0xF50A#16 = 0xF#4 ∧ fieldNN 0xF50A#16 = 0x0A#8) ∧ (∀ k, State.reset.key k = false) ∧
    (∃ k, ((State.reset.setKey 3 true).setKey 9 true).key k = true) ∧
    (State.reset.setKey 7 true).key 7 = true ∧
    ∀ j, (State.reset.setKey 7 true).key j = true → j = 7 := by decide

theorem witness_TimerWritesCopyVx :
    (fieldOp 0xF015#16 = 0xF#4 ∧ fieldNN 0xF015#16 = 0x15#8) ∧
    (fieldOp 0xF018#16 = 0xF#4 ∧ fieldNN 0xF018#16 = 0x18#8) := by decide

theorem witness_TickCountsDownAndBeepsOnce :
    State.reset.status = .running ∧ State.reset.sound = 0 ∧
    (State.reset.setSound 0xFF).status = .running ∧ (State.reset.setSound 0xFF).sound ≠ 0 ∧
    (State.reset.halt .stackUnderflow (some 0x00EE) 0x200).status =
      haltAt200 .stackUnderflow 0x00EE := by decide

theorem witness_DelayReadSeesTheTicksBetween : State.reset.status = .running := rfl

theorem witness_KeyEventsSetOneKey :
    State.reset.status = .running ∧ (5 : KeyId) ≠ 4 ∧ (State.reset.setKey 4 true).key 4 = true ∧
    State.reset.key 4 = false ∧
    (State.reset.halt .stackUnderflow (some 0x00EE) 0x200).status =
      haltAt200 .stackUnderflow 0x00EE := by decide

theorem witness_OtherAgentsTouchOnlyTheirOwn :
    nextMove (aboutTo .tick) = .tick ∧ nextMove (aboutTo .publish) = .publish ∧
    nextMove (aboutTo (.keyUp 4)) = .keyUp 4 ∧ nextMove (aboutTo (.keyDown 4)) = .keyDown 4 ∧
    (aboutTo (.keyDown 4)).status = .running ∧ nextMove (aboutTo (.keyDown 4)) ≠ .instr ∧
    step (aboutTo (.keyDown 4)) = .next (after (aboutTo (.keyDown 4))) ∧
    (after (aboutTo (.keyDown 4))).keys ≠ (aboutTo (.keyDown 4)).keys :=
  ⟨rfl, rfl, rfl, rfl, rfl, by decide, rfl, by decide⟩

theorem witness_LoadCopiesTheProgramOrRejectsIt :
    3584 < (List.replicate 3585 (0 : Byte)).length ∧ (List.replicate 3584 (0 : Byte)).length ≤ 3584 ∧
    State.reset.mem.wf = true ∧
    load [0x12, 0x00] State.reset = .ok (State.reset.setMem [(0x200, 0x12)]) ∧
    0x200 + [(0x12 : Byte), 0x00].length ≤ 0x202 ∧ 0xFFF < 4096 := by
  refine ⟨?_, ?_, by decide⟩
  · rw [List.length_replicate]; decide
  · rw [List.length_replicate]

theorem witness_LaunchIsResetThenLoad :
    3584 < (List.replicate 3585 (0 : Byte)).length ∧
    (List.replicate 3584 (0xFF : Byte)).length ≤ 3584 ∧ ([] : List Byte).length ≤ 3584 := by
  refine ⟨?_, ?_, by decide⟩
  · rw [List.length_replicate]; decide
  · rw [List.length_replicate]

/-- The addresses 4095 and 4096; 0x1FF and 0x200. -/
theorem witness_AccessesAreChecked :
    State.reset.mem.wf = true ∧ 4096 ≤ 4096 ∧ 4095 < 4096 ∧
    (0x1FF < 0x200 ∧ (Config.ReservedWritePolicy.fault = .fault)) ∧
    (0x200 < 4096 ∧ (0x200 ≤ 0x200 ∨ Config.ReservedWritePolicy.fault = .allow)) ∧
    (0x1FF < 4096 ∧ (0x200 ≤ 0x1FF ∨ Config.ReservedWritePolicy.allow = .allow)) := by decide

theorem witness_CanonicalMemoriesAreEqualWhenTheyReadTheSame :
    let m := (Memory.write [] 0x300 1).write 0x301 2
    let m' := (Memory.write [] 0x301 2).write 0x300 1
    m.wf = true ∧ m'.wf = true ∧ ∀ a, m.read a = m'.read a :=
  ⟨by decide, by decide, fun _ => rfl⟩

/-- A run of one step that stores at 0x300, and the byte at 0x1FF. -/
theorem witness_ReservedRangeIsNeverModified :
    let s := ((withWord 0xF055).setIndex 0x300).setReg 0 0x77
    core.run 1 s = .next (after s) ∧ (after s).mem.read 0x300 = 0x77 ∧ 0x1FF < 0x200 :=
  ⟨(run_succ rfl).trans (run_zero _), by decide, by decide⟩

theorem witness_ProgramCounterAfterEveryInstruction :
    exec (.jpV0 0xFFF#12) State.reset = .next (done (.jpV0 0xFFF#12) State.reset) ∧
    (fetch (withWord 0x5011).mem (withWord 0x5011).pc.toNat = .ok 0x5011#16 ∧
      decode 0x5011#16 = .unknown 0x5011#16) ∧ 0xFFF ≤ (State.reset.setPc 0xFFF).pc.toNat :=
  ⟨rfl, by decide, by decide⟩

/-- An instruction that writes the flag and goes on. -/
theorem witness_RegistersWrittenByEveryInstruction :
    exec (.addReg 0 1) State.reset = .next (done (.addReg 0 1) State.reset) ∧
    writesFlag (.addReg 0 1) = true ∧ (done (.addReg 0 1) State.reset).status = .running :=
  ⟨rfl, rfl, rfl⟩

/-- Registers that differ in V2, which 8014 does not read. -/
theorem witness_InstructionsReadOnlyTheirRegisters :
    let regs := (State.reset.setReg 2 0x77).v
    (∀ r ∈ regsRead (.addReg 0 1), (State.reset.setRegs regs).reg r = State.reset.reg r) ∧
    (State.reset.setRegs regs).reg 2 ≠ State.reset.reg 2 ∧
    exec (.addReg 0 1) State.reset = .next (done (.addReg 0 1) State.reset) :=
  ⟨by decide, by decide, rfl⟩

/-- Each component changed by an instruction. -/
theorem witness_EachComponentHasItsWriters :
    let lit := State.reset.setDisplay (Display.blank.flip 0 0)
    let s := (State.reset.setReg 0 7).setIndex 0x300
    (exec .cls lit = .next (done .cls lit) ∧ (done .cls lit).display ≠ lit.display) ∧
    (done (.ldI 1#12) s).index ≠ s.index ∧ (done (.call 0x300#12) s).stack ≠ s.stack ∧
    (done (.ldDtVx 0) s).delay ≠ s.delay ∧ (done (.ldStVx 0) s).sound ≠ s.sound ∧
    (done (.storeRegs 0) s).mem ≠ s.mem ∧
    (done (.rnd 0 0) (supplied 1 0)).randomIn ≠ (supplied 1 0).randomIn ∧
    (done (.ldImm 0 1) s).v ≠ s.v ∧ (done (.jp 0x300#12) s).pc ≠ s.pc ∧
    (done .ret s).status ≠ s.status ∧ (done (.rnd 0 0) s).draws ≠ s.draws :=
  ⟨⟨rfl, by decide⟩, by decide, by decide, by decide, by decide, by decide, by decide, by decide,
    by decide, by decide, by decide⟩

/-- A halt inside an instruction, and a halt at the fetch. -/
theorem witness_FatalFaultsArePrecise :
    ((withWord 0x00EE).status = .running ∧
      instrStep (withWord 0x00EE) = .next (resultState State.reset (instrStep (withWord 0x00EE))) ∧
      (resultState State.reset (instrStep (withWord 0x00EE))).status =
        haltAt200 .stackUnderflow 0x00EE) ∧
    let s := State.reset.setPc 0xFFF
    s.status = .running ∧ instrStep s = .next (resultState s (instrStep s)) ∧
      (resultState s (instrStep s)).status =
        .halted { kind := .memoryOutOfRange 0x1000, word := none, address := 0xFFF } :=
  ⟨⟨rfl, rfl, by decide⟩, rfl, rfl, by decide⟩

theorem witness_HaltedMachineNeverMovesAgain :
    (State.reset.halt .stackUnderflow (some 0x00EE) 0x200).status =
      haltAt200 .stackUnderflow 0x00EE := rfl

theorem witness_EventHistoryOnlyGrows :
    step ((aboutTo .tick).setSound 1) = .next (after ((aboutTo .tick).setSound 1)) ∧
    (after ((aboutTo .tick).setSound 1)).history = [.beep] := ⟨rfl, by decide⟩

/-- `I`, the stack and `pc` at the ends of their ranges, and a step. -/
theorem witness_StepKeepsTheInvariant :
    let s := ((State.reset.setIndex 0xFFF).setStack (List.replicate 16 0x1000)).setPc 0x10FE
    s.Inv ∧ step s = .next (after s) := by
  refine ⟨?_, rfl⟩
  constructor
  · decide
  · decide
  · decide
  · intro t ht
    rw [List.eq_of_mem_replicate ht]
    decide
  · decide

/-- An instruction that goes on and one that halts, after a key event; a schedule without key events. -/
theorem witness_ReferenceIterationIsStepTickPublish :
    (∀ w ∈ [0x6005, 0x00EE],
      let s := (withWord w).setSchedule (referenceSchedule ([.down 7] :: []))
      s.status = .running ∧ s.schedule = referenceSchedule ([.down 7] :: [])) ∧
    (let keyed := runMoves ((withWord 0x6005).setSchedule []) [.keyDown 7];
      (resultState keyed (instrStep keyed)).status = .running) ∧
    (let keyed := runMoves ((withWord 0x00EE).setSchedule []) [.keyDown 7];
      (resultState keyed (instrStep keyed)).status ≠ .running) ∧
    ReferenceSchedule fun n => ([.instr, .tick, .publish] : List Move).getD (n % 3) .instr := by
  refine ⟨?_, by decide, by decide, fun _ => [], fun n => ?_⟩
  · intro w hw
    simp only [List.mem_cons, List.not_mem_nil, or_false] at hw
    rcases hw with rfl | rfl <;> exact ⟨rfl, rfl⟩
  · induction n with
    | zero => rfl
    | succ n ih =>
      have hl : ∀ k, (referenceSchedule ((List.range k).map fun _ => [])).length = 3 * k := by
        intro k
        induction k with
        | zero => rfl
        | succ k ih =>
          rw [List.range_succ, List.map_append, referenceSchedule_append, List.length_append, ih]
          rfl
      rw [hl] at ih ⊢
      rw [show 3 * (n + 1) = 3 * n + 1 + 1 + 1 by omega, firstMoves_succ, firstMoves_succ,
        firstMoves_succ, ih, List.range_succ, List.map_append, referenceSchedule_append,
        show (3 * n + 1 + 1) % 3 = 2 by omega, show (3 * n + 1) % 3 = 1 by omega,
        show 3 * n % 3 = 0 by omega]
      simp

/-- V16: 1200 at 0x200, the next move an instruction step. -/
theorem witness_ParkedMachineStaysParked :
    (withWord 0x1200).Parked ∧ nextMove (withWord 0x1200) = .instr :=
  ⟨⟨rfl, 0x200#12, by decide, by decide⟩, rfl⟩

theorem witness_FairTicksRunTheTimersDown :
    (withWord 0x1200).Parked ∧ FairTicks fun _ => .tick :=
  ⟨⟨rfl, 0x200#12, by decide, by decide⟩, fun n => ⟨n, Nat.le_refl n, rfl⟩⟩

end Sys2Proof.Tests
end

section
/-! PROOFS. The state after reset (10_state R39) and the program counter after every instruction (10_state
R25). -/

namespace Sys2Proof.Machine

/-! ### Reset (10_state R39, 20_memory R46) -/

theorem resetByte_before_font {a : Nat} (h : a < 0x050) : resetByte a = 0 :=
  if_neg (Nat.not_le_of_lt h)

theorem resetByte_font (j : Nat) : resetByte (0x050 + j) = fontTable.getD j 0 := by
  have hle : Config.fontBase ≤ 0x050 + j := Nat.le_add_right _ _
  have hsub : 0x050 + j - Config.fontBase = j := Nat.add_sub_cancel_left _ _
  rw [resetByte, if_pos hle, hsub]

@[simp] theorem reset_reg (i : RegId) : State.reset.reg i = 0 := by
  simp [State.reset, State.reg]

@[simp] theorem reset_key (k : KeyId) : State.reset.key k = false := by
  simp [State.reset, State.key]

/-! ### Operations and `pc` -/

theorem pc_of_raise {i : Instr} {k : FatalKind} {s t : State} (h : raise i k s = .next t) :
    t.pc = s.pc := by
  cases h
  rfl

/-- An instruction that does not count `pc` among its parts leaves it at a + 2, whether it raises a
condition or not. -/
theorem exec_pc_of_not_mem_partsChanged {i : Instr} {s t : State} (hi : Part.pc ∉ partsChanged i)
    (h : exec i s = .next t) : t.pc = s.pc := by
  obtain ⟨k, e⟩ | ⟨t', e, hframe⟩ := exec_cases i s
  · exact pc_of_raise (e.symm.trans h)
  · cases e.symm.trans h
    exact hframe .pc hi

/-! ### Skips (40_control_flow R84) -/

/-- `t` is the program counter after a skip by the condition `c` in `s`, `s.pc` = a + 2: the form of the
skips' rows in `PcAfter`. -/
def PcAfterSkip (c : Prop) (s : State) (t : Word) : Prop :=
  (c ∧ t = s.pc + 2) ∨ (¬ c ∧ t = s.pc)

theorem skipIf_pcAfterSkip {b : Bool} {c : Prop} (h : b = true ↔ c) (s : State) :
    PcAfterSkip c s (skipIf b s).pc := by
  cases b with
  | true => exact .inl ⟨h.mp rfl, rfl⟩
  | false => exact .inr ⟨fun hc => Bool.false_ne_true (h.mpr hc), rfl⟩

theorem keyDownAt_iff {s : State} {b : Byte} (hb : b.toNat < 16) :
    KeyDownAt s b ↔ s.key ⟨b.toNat, hb⟩ = true := by
  simp [KeyDownAt, Fin.exists_iff, hb]

theorem keyUpAt_iff {s : State} {b : Byte} (hb : b.toNat < 16) :
    KeyUpAt s b ↔ s.key ⟨b.toNat, hb⟩ = false := by
  simp [KeyUpAt, Fin.exists_iff, hb]

theorem not_keyDownAt_of_lt {s : State} {b : Byte} (hb : 15 < b.toNat) : ¬ KeyDownAt s b := by
  rintro ⟨k, hk, _⟩
  omega

theorem not_keyUpAt_of_lt {s : State} {b : Byte} (hb : 15 < b.toNat) : ¬ KeyUpAt s b := by
  rintro ⟨k, hk, _⟩
  omega

/-! ### The rows of 10_state R25 other than a + 2 -/

theorem execSkp_pcAfter {x : RegId} {s t : State} (h : execSkp x s = .next t) :
    PcAfter (.skp x) s t.pc := by
  obtain ⟨hb, e⟩ | ⟨hb, e⟩ := execSkp_cases x s
  · exact .inr ⟨not_keyDownAt_of_lt hb, pc_of_raise (e.symm.trans h)⟩
  · cases e.symm.trans h
    exact skipIf_pcAfterSkip (keyDownAt_iff hb).symm s

theorem execSknp_pcAfter {x : RegId} {s t : State} (h : execSknp x s = .next t) :
    PcAfter (.sknp x) s t.pc := by
  obtain ⟨hb, e⟩ | ⟨hb, e⟩ := execSknp_cases x s
  · exact .inr ⟨not_keyUpAt_of_lt hb, pc_of_raise (e.symm.trans h)⟩
  · cases e.symm.trans h
    exact skipIf_pcAfterSkip (by simp [keyUpAt_iff hb]) s

theorem execRet_pcAfter {s t : State} (h : execRet s = .next t) : PcAfter .ret s t.pc := by
  unfold execRet at h
  obtain ⟨hempty, e⟩ | ⟨rest, a, hs, e⟩ := pop_cases s.stack
  · rw [e] at h
    exact .inr ⟨hempty, pc_of_raise h⟩
  · rw [e] at h
    cases h
    exact .inl ⟨rest, hs⟩

/-- An absolute address fits in `pc` (10_state R26). -/
theorem toNat_setWidth_addr12 (nnn : Addr12) : (nnn.setWidth 16 : Word).toNat = nnn.toNat :=
  BitVec.toNat_setWidth_of_le (by decide)

theorem execCall_pcAfter {nnn : Addr12} {s t : State} (h : execCall nnn s = .next t) :
    PcAfter (.call nnn) s t.pc := by
  obtain ⟨hfull, e⟩ | ⟨hroom, e⟩ := callWith_cases Policy.stackDepth nnn s
  · exact .inr ⟨hfull, pc_of_raise (e.symm.trans h)⟩
  · cases e.symm.trans h
    exact .inl ⟨hroom, toNat_setWidth_addr12 nnn⟩

/-- The 16-bit sum of Bnnn never wraps: it is at most 0x10FE (10_state R26). -/
theorem toNat_jpV0_target (nnn : Addr12) (b : Byte) :
    (nnn.setWidth 16 + b.setWidth 16 : Word).toNat = nnn.toNat + b.toNat := by
  have hn := nnn.isLt
  have hb := b.isLt
  simp only [BitVec.toNat_add, BitVec.toNat_setWidth]
  omega

theorem execLdVxK_pcAfter {x : RegId} {s t : State} (h : execLdVxK x s = .next t) :
    PcAfter (.ldVxK x) s t.pc := by
  obtain ⟨hnone, e⟩ | ⟨k, hk, e⟩ := execLdVxK_cases x s
  · cases e.symm.trans h
    exact .inl ⟨hnone, rfl⟩
  · cases e.symm.trans h
    exact .inr ⟨⟨k, hk⟩, rfl⟩

/-! ### The whole table -/

theorem exec_pcAfter {i : Instr} {s t : State} (h : exec i s = .next t) : PcAfter i s t.pc := by
  cases i with
  | seImm x nn => cases h; exact skipIf_pcAfterSkip (by simp) s
  | sneImm x nn => cases h; exact skipIf_pcAfterSkip (by simp) s
  | seReg x y => cases h; exact skipIf_pcAfterSkip (by simp) s
  | sneReg x y => cases h; exact skipIf_pcAfterSkip (by simp) s
  | skp x => exact execSkp_pcAfter h
  | sknp x => exact execSknp_pcAfter h
  | jp nnn => cases h; exact toNat_setWidth_addr12 nnn
  | call nnn => exact execCall_pcAfter h
  | ret => exact execRet_pcAfter h
  | jpV0 nnn => cases h; exact toNat_jpV0_target nnn (s.reg 0)
  | ldVxK x => exact execLdVxK_pcAfter h
  | cls | ldImm x nn | addImm x nn | ldReg x y | orReg x y | andReg x y | xorReg x y | addReg x y
  | subReg x y | shr x y | subnReg x y | shl x y | ldI nnn | rnd x nn | drw x y rows | ldVxDt x
  | ldDtVx x | ldStVx x | addI x | ldF x | ldB x | storeRegs x | loadRegs x =>
    exact exec_pc_of_not_mem_partsChanged (by simp [partsChanged]) h

theorem instrStep_pc_of_unknown {s : State} {w u : Word} (hw : fetch s.mem s.pc.toNat = .ok w)
    (hd : decode w = .unknown u) : ∃ t, instrStep s = .next t ∧ t.pc = s.pc + 2 :=
  ⟨_, (instrStep_ok hw).trans (runWord_unknown s hd), rfl⟩

theorem instrStep_pc_of_fetch_fault {s : State} (h : 0xFFF ≤ s.pc.toNat) :
    ∃ t, instrStep s = .next t ∧ t.pc = s.pc := by
  obtain ⟨_, e⟩ | ⟨hlt, _⟩ := instrStep_cases s
  · exact ⟨_, e, rfl⟩
  · omega

/-- Settles O49: an instruction without a row of its own in R25 leaves `pc` by the frame of
`exec_cases`; the eleven others by what each can do. -/
theorem programCounterAfterEveryInstruction : Obligations.ProgramCounterAfterEveryInstruction :=
  ⟨fun _ _ _ h => exec_pcAfter h, fun _ _ hw hd => instrStep_pc_of_unknown hw hd,
    fun _ h => instrStep_pc_of_fetch_fault h⟩

/-- Settles O1: the V registers, the keys and the display are constant vectors, and memory lists
nothing, so it reads as `resetByte`: the font table, and zero before and after it. -/
theorem resetLeavesTheStatedValues : Obligations.ResetLeavesTheStatedValues := by
  refine ⟨reset_reg, rfl, rfl, rfl, rfl, rfl, Display.blank_pixel, reset_key, rfl, ?_, ?_⟩
  · intro a _ hout
    obtain h | h : a < 0x050 ∨ 0x0A0 ≤ a := by omega
    · exact resetByte_before_font h
    · exact resetByte_past_font h
  · exact fun j _ => resetByte_font j

end Sys2Proof.Machine
end

section
/-! PROOFS. The checked memory accesses (20_memory R53, R54), one lemma for each range of addresses. -/

namespace Sys2Proof.Machine

/-! ### `MemRead` (R53) -/

theorem memRead_of_ge {m : Memory} {a : Nat} (h : Config.memSize ≤ a) :
    memRead m a = .error (.memoryOutOfRange a) := by
  obtain ⟨_, e⟩ | ⟨hlt, _⟩ := memRead_cases m a
  · exact e
  · omega

theorem memRead_of_lt {m : Memory} {a : Nat} (h : a < Config.memSize) :
    memRead m a = .ok (m.read a) := by
  obtain ⟨hge, _⟩ | ⟨_, e⟩ := memRead_cases m a
  · omega
  · exact e

/-! ### `MemWrite` (R54) -/

theorem reservedEnd_le_memSize : Config.reservedEnd ≤ Config.memSize := by decide

theorem memWrite_of_ge {p : Config.ReservedWritePolicy} {m : Memory} {a : Nat} {v : Byte}
    (h : Config.memSize ≤ a) : memWrite p m a v = .error (.memoryOutOfRange a) := by
  have hres := reservedEnd_le_memSize
  obtain ⟨_, e⟩ | ⟨hlt, _, _⟩ | ⟨hlt, _, _⟩ := memWrite_cases p m a v
  · exact e
  · omega
  · omega

theorem memWrite_fault_of_lt {m : Memory} {a : Nat} {v : Byte} (h : a < Config.reservedEnd) :
    memWrite .fault m a v = .error (.reservedWrite a) := by
  have hres := reservedEnd_le_memSize
  obtain ⟨hge, _⟩ | ⟨_, _, e⟩ | ⟨_, hwritable, _⟩ := memWrite_cases .fault m a v
  · omega
  · exact e
  · have hge := hwritable rfl
    omega

theorem memWrite_of_writable {p : Config.ReservedWritePolicy} {m : Memory} {a : Nat} {v : Byte}
    (h : a < Config.memSize) (hp : Config.reservedEnd ≤ a ∨ p = .allow) :
    memWrite p m a v = .ok (m.write a v) := by
  obtain ⟨hge, _⟩ | ⟨hlt, rfl, _⟩ | ⟨_, _, e⟩ := memWrite_cases p m a v
  · omega
  · obtain hge | hallow := hp
    · omega
    · cases hallow
  · exact e

/-- Settles O45: what an access answers is the lemma of its range above; what a write that is allowed
leaves in memory are the laws of `Memory.write`. -/
theorem accessesAreChecked : Obligations.AccessesAreChecked := by
  refine ⟨fun m a => ⟨memRead_of_ge, memRead_of_lt⟩, fun p m a v hm => ⟨memWrite_of_ge, ?_, ?_⟩⟩
  · rintro hlt rfl
    exact memWrite_fault_of_lt hlt
  · intro hlt hp
    exact ⟨m.write a v, memWrite_of_writable hlt hp, Memory.write_wf hlt hm,
      Memory.read_write_self hm a v, fun _ hne => Memory.read_write_ne m v hne⟩

end Sys2Proof.Machine
end

section
/-! PROOFS. The decoder and the opcode map (30_encoding R72 to R79). Encoding a decoded instruction gives
the word back, so the word matches the instruction's row. The other way round, the row of what a
word decodes to is fixed by the fields the decoder selects on, and the mask of a row covers those fields. -/

namespace Sys2Proof

/-! ### Encoding a decoded instruction gives the word back -/

theorem formNNN_of_fields {w : Word} {op : Nibble} (hop : (fieldOp w).toNat = op.toNat) :
    formNNN op (fieldNNN w) = w := by
  rw [← BitVec.eq_of_toNat_eq hop, formNNN_fields]

theorem formXNN_of_fields {w : Word} {op : Nibble} (hop : (fieldOp w).toNat = op.toNat) :
    formXNN op (fieldX w) (fieldNN w) = w := by
  rw [← BitVec.eq_of_toNat_eq hop, formXNN_fields]

theorem formXNN_of_fields_sub {w : Word} {op : Nibble} {nn : Byte}
    (hop : (fieldOp w).toNat = op.toNat) (hnn : (fieldNN w).toNat = nn.toNat) :
    formXNN op (fieldX w) nn = w := by
  rw [← BitVec.eq_of_toNat_eq hnn, formXNN_of_fields hop]

theorem formXYN_of_fields_sub {w : Word} {op n : Nibble} (hop : (fieldOp w).toNat = op.toNat)
    (hn : (fieldN w).toNat = n.toNat) : formXYN op (fieldX w) (fieldY w) n = w := by
  rw [← BitVec.eq_of_toNat_eq hop, ← BitVec.eq_of_toNat_eq hn, formXYN_fields]

theorem encode_of_decodeFamily0 {w : Word} {i : Instr} (h : decodeFamily0 w = .instr i) :
    encode i = w := by
  unfold decodeFamily0 at h
  split at h
  · next hw => cases h; exact hw.symm
  · split at h
    · next hw => cases h; exact hw.symm
    · cases h

theorem encode_of_decodeFamily5 {w : Word} {i : Instr} (hop : (fieldOp w).toNat = 0x5)
    (h : decodeFamily5 w = .instr i) : encode i = w := by
  unfold decodeFamily5 at h
  split at h <;> cases h
  next hn => exact formXYN_of_fields_sub hop hn

theorem encode_of_decodeFamily8 {w : Word} {i : Instr} (hop : (fieldOp w).toNat = 0x8)
    (h : decodeFamily8 w = .instr i) : encode i = w := by
  unfold decodeFamily8 at h
  split at h <;> cases h
  all_goals next hn => exact formXYN_of_fields_sub hop hn

theorem encode_of_decodeFamily9 {w : Word} {i : Instr} (hop : (fieldOp w).toNat = 0x9)
    (h : decodeFamily9 w = .instr i) : encode i = w := by
  unfold decodeFamily9 at h
  split at h <;> cases h
  next hn => exact formXYN_of_fields_sub hop hn

theorem encode_of_decodeFamilyE {w : Word} {i : Instr} (hop : (fieldOp w).toNat = 0xE)
    (h : decodeFamilyE w = .instr i) : encode i = w := by
  unfold decodeFamilyE at h
  split at h <;> cases h
  all_goals next hnn => exact formXNN_of_fields_sub hop hnn

theorem encode_of_decodeFamilyF {w : Word} {i : Instr} (hop : (fieldOp w).toNat = 0xF)
    (h : decodeFamilyF w = .instr i) : encode i = w := by
  unfold decodeFamilyF at h
  split at h <;> cases h
  all_goals next hnn => exact formXNN_of_fields_sub hop hnn

/-- By the family: the alternative `h_(k + 1)` of the decoder's match is family k. -/
theorem encode_of_decode {w : Word} {i : Instr} (h : decode w = .instr i) : encode i = w := by
  unfold decode at h
  split at h
  case h_1 => exact encode_of_decodeFamily0 h
  case h_6 hop => exact encode_of_decodeFamily5 hop h
  case h_9 hop => exact encode_of_decodeFamily8 hop h
  case h_10 hop => exact encode_of_decodeFamily9 hop h
  case h_15 hop => exact encode_of_decodeFamilyE hop h
  case h_16 =>
    have hlt := (fieldOp w).isLt
    simp only [imp_false] at *
    exact encode_of_decodeFamilyF (by omega) h
  case h_2 hop | h_3 hop | h_11 hop | h_12 hop => cases h; exact formNNN_of_fields hop
  case h_4 hop | h_5 hop | h_7 hop | h_8 hop | h_13 hop => cases h; exact formXNN_of_fields hop
  case h_14 hop =>
    cases h
    exact formXYN_of_fields_sub hop (by simp)

/-! ### The word of an instruction matches its row -/

namespace Laws

theorem OpcodeRow.all (i : Instr) : OpcodeRow.Statement i :=
  match i with
  | .cls => OpcodeRow.cls
  | .ret => OpcodeRow.ret
  | .jp nnn => OpcodeRow.jp nnn
  | .call nnn => OpcodeRow.call nnn
  | .seImm x nn => OpcodeRow.seImm x nn
  | .sneImm x nn => OpcodeRow.sneImm x nn
  | .seReg x y => OpcodeRow.seReg x y
  | .ldImm x nn => OpcodeRow.ldImm x nn
  | .addImm x nn => OpcodeRow.addImm x nn
  | .ldReg x y => OpcodeRow.ldReg x y
  | .orReg x y => OpcodeRow.orReg x y
  | .andReg x y => OpcodeRow.andReg x y
  | .xorReg x y => OpcodeRow.xorReg x y
  | .addReg x y => OpcodeRow.addReg x y
  | .subReg x y => OpcodeRow.subReg x y
  | .shr x y => OpcodeRow.shr x y
  | .subnReg x y => OpcodeRow.subnReg x y
  | .shl x y => OpcodeRow.shl x y
  | .sneReg x y => OpcodeRow.sneReg x y
  | .ldI nnn => OpcodeRow.ldI nnn
  | .jpV0 nnn => OpcodeRow.jpV0 nnn
  | .rnd x nn => OpcodeRow.rnd x nn
  | .drw x y rows => OpcodeRow.drw x y rows
  | .skp x => OpcodeRow.skp x
  | .sknp x => OpcodeRow.sknp x
  | .ldVxDt x => OpcodeRow.ldVxDt x
  | .ldVxK x => OpcodeRow.ldVxK x
  | .ldDtVx x => OpcodeRow.ldDtVx x
  | .ldStVx x => OpcodeRow.ldStVx x
  | .addI x => OpcodeRow.addI x
  | .ldF x => OpcodeRow.ldF x
  | .ldB x => OpcodeRow.ldB x
  | .storeRegs x => OpcodeRow.storeRegs x
  | .loadRegs x => OpcodeRow.loadRegs x

end Laws

theorem row_mem_opcodeMap (i : Instr) : i.row ∈ opcodeMap := (Laws.OpcodeRow.all i).2

theorem and_mask_of_decode {w : Word} {i : Instr} (h : decode w = .instr i) :
    w &&& i.row.2 = i.row.1 := by
  obtain ⟨hmatch, _⟩ := Laws.OpcodeRow.all i
  rw [encode_of_decode h] at hmatch
  exact of_decide_eq_true hmatch

/-! ### The fields the decoder selects on fix the row -/

/-- The row of what a word decodes to; none for an UnknownOpcode. -/
def Decoded.row? : Decoded → Option MapRow
  | .instr i => some i.row
  | .unknown _ => none

/-- `w` and `v` agree in the fields that decoding `v` selects on (R72 to R78): `op`, then the whole word
in family 0x0, `n` in 0x5, 0x8 and 0x9, `nn` in 0xE and 0xF. -/
structure SameSelectors (w v : Word) : Prop where
  op : fieldOp w = fieldOp v
  word : (fieldOp v).toNat = 0x0 → w = v
  n : (fieldOp v).toNat ∈ [0x5, 0x8, 0x9] → fieldN w = fieldN v
  nn : 0xE ≤ (fieldOp v).toNat → fieldNN w = fieldNN v

theorem decodeFamily5_row?_congr {w v : Word} (h : fieldN w = fieldN v) :
    (decodeFamily5 w).row? = (decodeFamily5 v).row? := by
  unfold decodeFamily5; rw [h]; split <;> rfl

theorem decodeFamily8_row?_congr {w v : Word} (h : fieldN w = fieldN v) :
    (decodeFamily8 w).row? = (decodeFamily8 v).row? := by
  unfold decodeFamily8; rw [h]; split <;> rfl

theorem decodeFamily9_row?_congr {w v : Word} (h : fieldN w = fieldN v) :
    (decodeFamily9 w).row? = (decodeFamily9 v).row? := by
  unfold decodeFamily9; rw [h]; split <;> rfl

theorem decodeFamilyE_row?_congr {w v : Word} (h : fieldNN w = fieldNN v) :
    (decodeFamilyE w).row? = (decodeFamilyE v).row? := by
  unfold decodeFamilyE; rw [h]; split <;> rfl

theorem decodeFamilyF_row?_congr {w v : Word} (h : fieldNN w = fieldNN v) :
    (decodeFamilyF w).row? = (decodeFamilyF v).row? := by
  unfold decodeFamilyF; rw [h]; split <;> rfl

/-- By the family, as `encode_of_decode`; in the families that select on no further field each word has
the same row. -/
theorem decode_row?_congr {w v : Word} (h : SameSelectors w v) :
    (decode w).row? = (decode v).row? := by
  obtain ⟨hop, hword, hn, hnn⟩ := h
  unfold decode
  rw [hop]
  generalize (fieldOp v).toNat = op at hword hn hnn
  split
  case h_1 => rw [hword rfl]
  case h_6 => exact decodeFamily5_row?_congr (hn (by decide))
  case h_9 => exact decodeFamily8_row?_congr (hn (by decide))
  case h_10 => exact decodeFamily9_row?_congr (hn (by decide))
  case h_15 => exact decodeFamilyE_row?_congr (hnn (by decide))
  case h_16 =>
    simp only [imp_false] at *
    exact decodeFamilyF_row?_congr (hnn (by omega))
  all_goals rfl

/-! ### The masks of the map cover those fields -/

theorem fieldOp_and (w m : Word) : fieldOp (w &&& m) = fieldOp w &&& fieldOp m :=
  BitVec.extractLsb'_and

theorem fieldN_and (w m : Word) : fieldN (w &&& m) = fieldN w &&& fieldN m :=
  BitVec.extractLsb'_and

theorem fieldNN_and (w m : Word) : fieldNN (w &&& m) = fieldNN w &&& fieldNN m :=
  BitVec.extractLsb'_and

/-- What one computation finds for all rows holds of each. -/
theorem forall_row_of_all {P : MapRow → Prop} [DecidablePred P]
    (h : (opcodeMap.all fun r => decide (P r)) = true) : ∀ r ∈ opcodeMap, P r :=
  fun r hr => of_decide_eq_true (List.all_eq_true.mp h r hr)

theorem mask_covers_selectors : ∀ r ∈ opcodeMap, fieldOp r.2 = 0xF#4 ∧
    ((fieldOp r.1).toNat = 0x0 → r.2 = 0xFFFF#16) ∧
    ((fieldOp r.1).toNat ∈ [0x5, 0x8, 0x9] → fieldN r.2 = 0xF#4) ∧
    (0xE ≤ (fieldOp r.1).toNat → fieldNN r.2 = 0xFF#8) :=
  forall_row_of_all (by decide)

theorem sameSelectors_of_and_mask {w : Word} {r : MapRow} (hr : r ∈ opcodeMap)
    (h : w &&& r.2 = r.1) : SameSelectors w r.1 := by
  obtain ⟨hop, hword, hn, hnn⟩ := mask_covers_selectors r hr
  refine ⟨?_, fun hf => ?_, fun hf => ?_, fun hf => ?_⟩
  · rw [← h, fieldOp_and, hop]; exact BitVec.and_allOnes.symm
  · conv_rhs => rw [← h, hword hf]
    exact BitVec.and_allOnes.symm
  · rw [← h, fieldN_and, hn hf]; exact BitVec.and_allOnes.symm
  · rw [← h, fieldNN_and, hnn hf]; exact BitVec.and_allOnes.symm

theorem decode_rowWord_row? : ∀ r ∈ opcodeMap, (decode r.1).row? = some r :=
  forall_row_of_all (by decide)

/-- What a word that matches a row decodes to is of that row, as the row's own word is. -/
theorem decode_row?_of_and_mask {w : Word} {r : MapRow} (hr : r ∈ opcodeMap) (h : w &&& r.2 = r.1) :
    (decode w).row? = some r :=
  (decode_row?_congr (sameSelectors_of_and_mask hr h)).trans (decode_rowWord_row? r hr)

theorem exists_instr_of_row? {d : Decoded} {r : MapRow} (h : d.row? = some r) :
    ∃ i, d = .instr i ∧ i.row = r := by
  cases d with
  | instr i => exact ⟨i, rfl, Option.some.inj h⟩
  | unknown u => cases h

theorem decode_unknown_iff_no_row (w : Word) :
    (∀ r ∈ opcodeMap, w &&& r.2 ≠ r.1) ↔ decode w = .unknown w := by
  constructor
  · intro hnone
    cases hd : decode w with
    | instr i => exact absurd (and_mask_of_decode hd) (hnone i.row (row_mem_opcodeMap i))
    | unknown u => rw [decode_unknown hd]
  · intro hd r hr h
    have hrow := decode_row?_of_and_mask hr h
    rw [hd] at hrow
    cases hrow

/-- Settles O9: a word that matches a row decodes to an instruction of it, so no word matches two; and
the word of a decoded instruction matches the instruction's row. -/
theorem decodeFollowsTheOpcodeMap : Obligations.DecodeFollowsTheOpcodeMap := by
  refine ⟨rfl, fun w r q hr hq hwr hwq => ?_, fun w r hr => ⟨fun h => ?_, ?_⟩,
    decode_unknown_iff_no_row⟩
  · have hrow := decode_row?_of_and_mask hr hwr
    exact Option.some.inj (hrow.symm.trans (decode_row?_of_and_mask hq hwq))
  · exact exists_instr_of_row? (decode_row?_of_and_mask hr h)
  · rintro ⟨i, hd, rfl⟩
    exact and_mask_of_decode hd

end Sys2Proof
end

section
/-! PROOFS. Fetch, inside memory and at its end (30_encoding R66). -/

namespace Sys2Proof.Machine

theorem fetch_of_lt {m : Memory} {a : Nat} (h : a + 1 < 4096) :
    fetch m a = .ok (wordOfBytes (m.read a) (m.read (a + 1))) := by
  obtain ⟨hge, _⟩ | ⟨_, e⟩ := fetch_cases m a
  · omega
  · exact e

theorem instrStep_of_fetch_fault {s : State} (h : 0xFFF ≤ s.pc.toNat) :
    instrStep s = .next (s.halt (.memoryOutOfRange (max s.pc.toNat 0x1000)) none s.pc) := by
  obtain ⟨_, e⟩ | ⟨hlt, _⟩ := instrStep_cases s
  · exact e
  · omega

theorem halt_frame (s : State) (k : FatalKind) (w : Option Word) (a : Word) :
    Frame [.status] s (s.halt k w a) := by
  intro p hp
  cases p <;> simp_all [Part.Same]

/-- Settles O4: a fetch below 0xFFF gives the word of its two bytes, which `wordOfBytes_toNat` reads as a
number; a fetch past it halts, and a halt changes only the status. -/
theorem fetchReadsTwoBytesOrHalts : Obligations.FetchReadsTwoBytesOrHalts :=
  ⟨fun _ _ h => ⟨_, fetch_of_lt h, wordOfBytes_toNat _ _⟩,
    fun s h => ⟨_, instrStep_of_fetch_fault (Nat.le_of_succ_le_succ h), rfl, halt_frame s _ _ _⟩⟩

end Sys2Proof.Machine
end

section
/-! PROOFS. Control flow (40_control_flow): RET, JP, CALL, the register skips, JP V0. -/

namespace Sys2Proof

/-! ### Their words (30_encoding R74, R78) -/

theorem decode_of_op1 {w : Word} (hop : fieldOp w = 0x1#4) :
    decode w = .instr (.jp (fieldNNN w)) := by
  unfold decode; rw [hop]; rfl

theorem decode_of_op2 {w : Word} (hop : fieldOp w = 0x2#4) :
    decode w = .instr (.call (fieldNNN w)) := by
  unfold decode; rw [hop]; rfl

theorem decode_of_op3 {w : Word} (hop : fieldOp w = 0x3#4) :
    decode w = .instr (.seImm (fieldX w) (fieldNN w)) := by
  unfold decode; rw [hop]; rfl

theorem decode_of_op4 {w : Word} (hop : fieldOp w = 0x4#4) :
    decode w = .instr (.sneImm (fieldX w) (fieldNN w)) := by
  unfold decode; rw [hop]; rfl

theorem decode_of_op5 {w : Word} (hop : fieldOp w = 0x5#4) : decode w = decodeFamily5 w := by
  unfold decode; rw [hop]; rfl

theorem decode_of_op9 {w : Word} (hop : fieldOp w = 0x9#4) : decode w = decodeFamily9 w := by
  unfold decode; rw [hop]; rfl

theorem decode_of_opB {w : Word} (hop : fieldOp w = 0xB#4) :
    decode w = .instr (.jpV0 (fieldNNN w)) := by
  unfold decode; rw [hop]; rfl

theorem decodeFamily5_of_n_zero {w : Word} (hn : fieldN w = 0#4) :
    decodeFamily5 w = .instr (.seReg (fieldX w) (fieldY w)) := by
  unfold decodeFamily5; rw [hn]; rfl

theorem decodeFamily5_of_n_ne_zero {w : Word} (hn : fieldN w ≠ 0#4) :
    decodeFamily5 w = .unknown w := by
  unfold decodeFamily5
  split
  · next h0 => exact absurd (BitVec.eq_of_toNat_eq h0) hn
  · rfl

theorem decodeFamily9_of_n_zero {w : Word} (hn : fieldN w = 0#4) :
    decodeFamily9 w = .instr (.sneReg (fieldX w) (fieldY w)) := by
  unfold decodeFamily9; rw [hn]; rfl

theorem decodeFamily9_of_n_ne_zero {w : Word} (hn : fieldN w ≠ 0#4) :
    decodeFamily9 w = .unknown w := by
  unfold decodeFamily9
  split
  · next h0 => exact absurd (BitVec.eq_of_toNat_eq h0) hn
  · rfl

end Sys2Proof

namespace Sys2Proof.Machine

/-! ### Frames of a jump -/

theorem setPc_frame (s : State) (a : Word) : Frame [.pc] s (s.setPc a) := by
  intro p hp
  cases p <;> simp_all [Part.Same]

theorem setStack_setPc_frame (s : State) (st : List Word) (a : Word) :
    Frame [.pc, .stack] s ((s.setStack st).setPc a) := by
  intro p hp
  cases p <;> simp_all [Part.Same]

/-! ### CALL and RET (R85, R87) -/

theorem callWith_pushes {depth : Nat} (nnn : Addr12) {s : State} (h : s.stack.length < depth) :
    ∃ t, callWith depth nnn s = .next t ∧ t.pc.toNat = nnn.toNat ∧ t.stack = s.stack ++ [s.pc] ∧
      Frame [.pc, .stack] s t := by
  obtain ⟨hfull, _⟩ | ⟨_, e⟩ := callWith_cases depth nnn s
  · omega
  · exact ⟨_, e, toNat_setWidth_addr12 nnn, rfl, setStack_setPc_frame s _ _⟩

theorem callWith_overflows {depth : Nat} (nnn : Addr12) {s : State} (h : depth ≤ s.stack.length) :
    ∃ t, callWith depth nnn s = .next t ∧ HaltedBy (.call nnn) .stackOverflow s t := by
  obtain ⟨_, e⟩ | ⟨hroom, _⟩ := callWith_cases depth nnn s
  · rw [e]
    exact raise_haltedBy _ _ s
  · omega

/-- Settles O13: `callWith` pushes and jumps below its depth and overflows from it on; `exec` takes it at
the default depth. -/
theorem callPushesTheNextAddressAndJumps : Obligations.CallPushesTheNextAddressAndJumps :=
  ⟨fun _ => decode_of_op2,
    fun nnn _ h => callWith_pushes (depth := Policy.stackDepth) nnn h,
    fun nnn _ h => callWith_overflows (depth := Policy.stackDepth) nnn h,
    fun _ nnn _ h => callWith_pushes nnn h,
    fun _ nnn _ h => callWith_overflows nnn h⟩

theorem execRet_of_concat {s : State} {rest : List Word} {a : Word} (h : s.stack = rest ++ [a]) :
    execRet s = .next ((s.setStack rest).setPc a) := by
  unfold execRet; rw [h, pop_concat]; rfl

theorem execRet_of_empty {s : State} (h : s.stack = []) :
    execRet s = raise .ret .stackUnderflow s := by
  unfold execRet; rw [h]; rfl

/-- Settles O11: RET on a stack with a last entry, and on the empty one. -/
theorem retPopsTheReturnAddress : Obligations.RetPopsTheReturnAddress := by
  refine ⟨by decide, fun s rest a h => ?_, fun s h => ?_⟩
  · exact ⟨_, execRet_of_concat h, rfl, rfl, setStack_setPc_frame s rest a⟩
  · obtain ⟨t, e, hhalt⟩ := raise_haltedBy .ret .stackUnderflow s
    exact ⟨t, (execRet_of_empty h).trans e, hhalt⟩

/-! ### JP and JP V0 (R86, R92) -/

/-- Settles O12: the 12-bit address fits in `pc`. -/
theorem jpGoesToItsAddress : Obligations.JpGoesToItsAddress :=
  ⟨fun _ => decode_of_op1, fun nnn s => ⟨_, rfl, toNat_setWidth_addr12 nnn, setPc_frame s _⟩⟩

/-- Settles O16: the 16-bit sum of the address and V0 never wraps. -/
theorem jpV0AddsV0ToItsAddress : Obligations.JpV0AddsV0ToItsAddress :=
  ⟨fun _ => decode_of_opB, fun nnn s => ⟨_, rfl, toNat_jpV0_target nnn (s.reg 0), setPc_frame s _⟩⟩

/-! ### The register skips (R88 to R91) -/

/-- A skip on equal bytes: SE in both its forms. -/
theorem skipIf_beq_skips (a b : Byte) (s : State) :
    ∃ t, (.next (skipIf (a == b) s) : Result) = .next t ∧ (a.toNat = b.toNat → t.pc = s.pc + 2) ∧
      (a.toNat ≠ b.toNat → t.pc = s.pc) ∧ Frame [.pc] s t := by
  refine ⟨_, rfl, fun heq => ?_, fun hne => ?_, skipIf_frame _ s⟩
  · rw [beq_iff_eq.mpr (BitVec.eq_of_toNat_eq heq), skipIf_true, State.setPc_pc]
  · rw [beq_eq_false_iff_ne.mpr (BitVec.toNat_ne_iff_ne.mp hne), skipIf_false]

/-- A skip on different bytes: SNE in both its forms. -/
theorem skipIf_bne_skips (a b : Byte) (s : State) :
    ∃ t, (.next (skipIf (a != b) s) : Result) = .next t ∧ (a.toNat ≠ b.toNat → t.pc = s.pc + 2) ∧
      (a.toNat = b.toNat → t.pc = s.pc) ∧ Frame [.pc] s t := by
  refine ⟨_, rfl, fun hne => ?_, fun heq => ?_, skipIf_frame _ s⟩
  · rw [bne_iff_ne.mpr (BitVec.toNat_ne_iff_ne.mp hne), skipIf_true, State.setPc_pc]
  · rw [bne_eq_false_iff_eq.mpr (BitVec.eq_of_toNat_eq heq), skipIf_false]

/-- Settles O14: SE and SNE compare Vx with nn. -/
theorem immediateSkips : Obligations.ImmediateSkips :=
  ⟨fun _ => decode_of_op3, fun _ => decode_of_op4,
    fun x nn s => skipIf_beq_skips (s.reg x) nn s, fun x nn s => skipIf_bne_skips (s.reg x) nn s⟩

/-- Settles O15: SE and SNE compare Vx with Vy; their families decode only with n = 0. -/
theorem registerSkips : Obligations.RegisterSkips :=
  ⟨fun _ hop hn => (decode_of_op5 hop).trans (decodeFamily5_of_n_zero hn),
    fun _ hop hn => (decode_of_op5 hop).trans (decodeFamily5_of_n_ne_zero hn),
    fun _ hop hn => (decode_of_op9 hop).trans (decodeFamily9_of_n_zero hn),
    fun _ hop hn => (decode_of_op9 hop).trans (decodeFamily9_of_n_ne_zero hn),
    fun x y s => skipIf_beq_skips (s.reg x) (s.reg y) s,
    fun x y s => skipIf_bne_skips (s.reg x) (s.reg y) s⟩

end Sys2Proof.Machine
end

section
/-! PROOFS. Register loads, arithmetic and logic (41_alu): their words, what a write of a result and of the
flag after it leaves in the registers, the flags as numbers, and the forms with x = y. -/

namespace Sys2Proof

/-! ### Their words (30_encoding R75, R78) -/

theorem decode_of_op6 {w : Word} (hop : fieldOp w = 0x6#4) :
    decode w = .instr (.ldImm (fieldX w) (fieldNN w)) := by
  unfold decode; rw [hop]; rfl

theorem decode_of_op7 {w : Word} (hop : fieldOp w = 0x7#4) :
    decode w = .instr (.addImm (fieldX w) (fieldNN w)) := by
  unfold decode; rw [hop]; rfl

theorem decode_of_op8 {w : Word} (hop : fieldOp w = 0x8#4) : decode w = decodeFamily8 w := by
  unfold decode; rw [hop]; rfl

theorem decode_ldReg {w : Word} (hop : fieldOp w = 0x8#4) (hn : fieldN w = 0x0#4) :
    decode w = .instr (.ldReg (fieldX w) (fieldY w)) := by
  rw [decode_of_op8 hop, decodeFamily8, hn]; rfl

theorem decode_orReg {w : Word} (hop : fieldOp w = 0x8#4) (hn : fieldN w = 0x1#4) :
    decode w = .instr (.orReg (fieldX w) (fieldY w)) := by
  rw [decode_of_op8 hop, decodeFamily8, hn]; rfl

theorem decode_andReg {w : Word} (hop : fieldOp w = 0x8#4) (hn : fieldN w = 0x2#4) :
    decode w = .instr (.andReg (fieldX w) (fieldY w)) := by
  rw [decode_of_op8 hop, decodeFamily8, hn]; rfl

theorem decode_xorReg {w : Word} (hop : fieldOp w = 0x8#4) (hn : fieldN w = 0x3#4) :
    decode w = .instr (.xorReg (fieldX w) (fieldY w)) := by
  rw [decode_of_op8 hop, decodeFamily8, hn]; rfl

theorem decode_addReg {w : Word} (hop : fieldOp w = 0x8#4) (hn : fieldN w = 0x4#4) :
    decode w = .instr (.addReg (fieldX w) (fieldY w)) := by
  rw [decode_of_op8 hop, decodeFamily8, hn]; rfl

theorem decode_subReg {w : Word} (hop : fieldOp w = 0x8#4) (hn : fieldN w = 0x5#4) :
    decode w = .instr (.subReg (fieldX w) (fieldY w)) := by
  rw [decode_of_op8 hop, decodeFamily8, hn]; rfl

theorem decode_shr {w : Word} (hop : fieldOp w = 0x8#4) (hn : fieldN w = 0x6#4) :
    decode w = .instr (.shr (fieldX w) (fieldY w)) := by
  rw [decode_of_op8 hop, decodeFamily8, hn]; rfl

theorem decode_subnReg {w : Word} (hop : fieldOp w = 0x8#4) (hn : fieldN w = 0x7#4) :
    decode w = .instr (.subnReg (fieldX w) (fieldY w)) := by
  rw [decode_of_op8 hop, decodeFamily8, hn]; rfl

theorem decode_shl {w : Word} (hop : fieldOp w = 0x8#4) (hn : fieldN w = 0xE#4) :
    decode w = .instr (.shl (fieldX w) (fieldY w)) := by
  rw [decode_of_op8 hop, decodeFamily8, hn]; rfl

end Sys2Proof

namespace Sys2Proof.Machine

/-! ### A result written to Vx -/

theorem setReg_frame (s : State) (x : RegId) (b : Byte) : Frame [.v] s (s.setReg x b) := by
  intro p hp
  cases p <;> simp_all [Part.Same]

/-- Writing a register's own value to it changes no register. -/
theorem setReg_reg_of_eq {s : State} {x : RegId} {b : Byte} (h : b = s.reg x) (i : RegId) :
    (s.setReg x b).reg i = s.reg i := by
  rw [State.setReg_reg]
  split
  · next hi => rw [h, hi]
  · rfl

/-- Settles O17: a load writes Vx and nothing else. -/
theorem loadsCopyIntoVx : Obligations.LoadsCopyIntoVx :=
  ⟨fun _ => decode_of_op6, fun _ => decode_ldReg,
    fun x nn s => ⟨_, rfl, State.setReg_reg_self s x nn, RegsExcept_setReg s x nn,
      setReg_frame s x nn⟩,
    fun x _ s => ⟨_, rfl, State.setReg_reg_self s x _, RegsExcept_setReg s x _,
      setReg_frame s x _⟩⟩

/-- Settles O18: the sum mod 256 is written to Vx, and VF is a register like the others. -/
theorem addImmediateWrapsWithoutFlag : Obligations.AddImmediateWrapsWithoutFlag := by
  refine ⟨fun _ => decode_of_op7, fun x nn s => ⟨_, rfl, ?_, RegsExcept_setReg s x _,
    setReg_frame s x _⟩⟩
  rw [State.setReg_reg_self, addResult_toNat]

/-- A logic instruction writes the byte `r` to Vx; its bits are what the operation `f` gives of the
operands' bits. -/
theorem setReg_bitwise {f : Bool → Bool → Bool} {a b r : Byte} (s : State) (x : RegId)
    (hr : ∀ j, r.getLsbD j = f (a.getLsbD j) (b.getLsbD j)) :
    ∃ t, (.next (s.setReg x r) : Result) = .next t ∧
      (∀ j, j < 8 → (t.reg x).getLsbD j = f (a.getLsbD j) (b.getLsbD j)) ∧
      RegsExcept [x] s t ∧ Frame [.v] s t := by
  refine ⟨_, rfl, fun j _ => ?_, RegsExcept_setReg s x r, setReg_frame s x r⟩
  rw [State.setReg_reg_self, hr]

/-- Settles O19: the bits of the library's or, and and exclusive or. -/
theorem logicActsBitwiseWithoutFlag : Obligations.LogicActsBitwiseWithoutFlag :=
  ⟨fun _ hop => ⟨decode_orReg hop, decode_andReg hop, decode_xorReg hop⟩,
    fun x _ s => setReg_bitwise s x fun _ => BitVec.getLsbD_or,
    fun x _ s => setReg_bitwise s x fun _ => BitVec.getLsbD_and,
    fun x _ s => setReg_bitwise s x fun _ => BitVec.getLsbD_xor⟩

/-! ### A result written to Vx and the flag after it (R106) -/

theorem setReg_setFlag_frame (s : State) (x : RegId) (b : Byte) (f : Bool) :
    Frame [.v] s ((s.setReg x b).setFlag f) := by
  intro p hp
  cases p <;> simp_all [Part.Same]

theorem setReg_setFlag_reg_of_ne (s : State) {x : RegId} (b : Byte) (f : Bool) (hx : x ≠ 15) :
    ((s.setReg x b).setFlag f).reg x = b := by
  rw [State.setFlag_reg, if_neg (show x ≠ vF from hx), State.setReg_reg_self]

theorem setReg_setFlag_reg_15 (s : State) (x : RegId) (b : Byte) (f : Bool) :
    ((s.setReg x b).setFlag f).reg 15 = flagByte f :=
  State.setFlag_reg_vF _ f

/-- What 8xy4 to 8xy7 and 8xyE share: the result in Vx, unless the flag overwrites it, and the flag in
VF. -/
theorem setReg_setFlag_spec (s : State) (x : RegId) (b : Byte) (f : Bool) :
    ∃ t, (.next ((s.setReg x b).setFlag f) : Result) = .next t ∧ (x ≠ 15 → t.reg x = b) ∧
      t.reg 15 = flagByte f ∧ RegsExcept [x, 15] s t ∧ Frame [.v] s t :=
  ⟨_, rfl, setReg_setFlag_reg_of_ne s b f, setReg_setFlag_reg_15 s x b f,
    RegsExcept_setReg_setFlag s x b f, setReg_setFlag_frame s x b f⟩

/-! ### The flags as numbers -/

theorem flagByte_decide_of_pos {p : Prop} [Decidable p] (h : p) :
    (flagByte (decide p)).toNat = 1 := by
  simp [h]

theorem flagByte_decide_of_neg {p : Prop} [Decidable p] (h : ¬ p) :
    (flagByte (decide p)).toNat = 0 := by
  simp [h]

theorem subResult_toNat_int (a b : Byte) :
    ((subResult a b).toNat : Int) = (a.toNat - b.toNat : Int) % 256 := by
  have ha := a.isLt
  have hb := b.isLt
  rw [subResult_toNat]
  omega

theorem flagByte_shrFlag_toNat (a : Byte) : (flagByte (shrFlag a)).toNat = a.toNat % 2 := by
  have hbit : shrFlag a = decide (a.toNat % 2 = 1) := Nat.testBit_zero a.toNat
  rw [flagByte_toNat, hbit]
  simp only [decide_eq_true_eq]
  split <;> omega

theorem shlFlag_eq_decide (a : Byte) : shlFlag a = decide (128 ≤ a.toNat) := by
  have ha := a.isLt
  have hbit : shlFlag a = decide (a.toNat / 2 ^ 7 % 2 = 1) := Nat.testBit_eq_decide_div_mod_eq
  rw [hbit, decide_eq_decide]
  omega

theorem flagByte_shlFlag_toNat (a : Byte) : (flagByte (shlFlag a)).toNat = a.toNat / 128 := by
  have ha := a.isLt
  rw [flagByte_toNat, shlFlag_eq_decide]
  simp only [decide_eq_true_eq]
  split <;> omega

/-! ### ADD, SUB and SUBN (R99, R100, R102) -/

/-- Settles O20: the flag is the carry whatever x is, for it is written after the sum. -/
theorem addSetsTheCarry : Obligations.AddSetsTheCarry := by
  refine ⟨fun _ => decode_addReg, fun x y s => ?_⟩
  obtain ⟨t, e, hx, hflag, hregs, hframe⟩ := setReg_setFlag_spec s x
    (addResult (s.reg x) (s.reg y)) (addCarry (s.reg x) (s.reg y))
  refine ⟨t, e, fun h => ?_, fun hcarry => ?_, fun hno => ?_, hregs, hframe⟩
  · rw [hx h, addResult_toNat]
  · rw [hflag]; exact flagByte_decide_of_pos hcarry
  · rw [hflag]; exact flagByte_decide_of_neg (Nat.not_lt.mpr hno)

/-- SUB and SUBN: the difference of the minuend `a` and the subtrahend `b`. -/
theorem setReg_subResult_spec (s : State) (x : RegId) (a b : Byte) :
    ∃ t, (.next ((s.setReg x (subResult a b)).setFlag (subNoBorrow a b)) : Result) = .next t ∧
      (x ≠ 15 → ((t.reg x).toNat : Int) = (a.toNat - b.toNat : Int) % 256) ∧
      (b.toNat ≤ a.toNat → (t.reg 15).toNat = 1) ∧ (a.toNat < b.toNat → (t.reg 15).toNat = 0) ∧
      RegsExcept [x, 15] s t ∧ Frame [.v] s t := by
  obtain ⟨t, e, hx, hflag, hregs, hframe⟩ :=
    setReg_setFlag_spec s x (subResult a b) (subNoBorrow a b)
  refine ⟨t, e, fun h => ?_, fun hle => ?_, fun hlt => ?_, hregs, hframe⟩
  · rw [hx h, subResult_toNat_int]
  · rw [hflag]; exact flagByte_decide_of_pos hle
  · rw [hflag]; exact flagByte_decide_of_neg (Nat.not_le.mpr hlt)

/-- Settles O21: SUB takes Vx as the minuend, SUBN takes Vy. -/
theorem subtractionsSetNoBorrow : Obligations.SubtractionsSetNoBorrow :=
  ⟨fun _ hop => ⟨decode_subReg hop, decode_subnReg hop⟩,
    fun x y s => setReg_subResult_spec s x (s.reg x) (s.reg y),
    fun x y s => setReg_subResult_spec s x (s.reg y) (s.reg x)⟩

/-! ### SHR and SHL (R101, R103) -/

theorem shrWith_spec (src : Config.ShiftSource) (x y : RegId) (s : State) :
    ∃ t, shrWith src x y s = .next t ∧
      (x ≠ 15 → (t.reg x).toNat = (shiftOperand src x y s).toNat / 2) ∧
      (t.reg 15).toNat = (shiftOperand src x y s).toNat % 2 ∧
      RegsExcept [x, 15] s t ∧ Frame [.v] s t := by
  obtain ⟨t, e, hx, hflag, hregs, hframe⟩ := setReg_setFlag_spec s x
    (shrResult (shiftOperand src x y s)) (shrFlag (shiftOperand src x y s))
  refine ⟨t, e, fun h => ?_, ?_, hregs, hframe⟩
  · rw [hx h, shrResult_toNat]
  · rw [hflag, flagByte_shrFlag_toNat]

theorem shlWith_spec (src : Config.ShiftSource) (x y : RegId) (s : State) :
    ∃ t, shlWith src x y s = .next t ∧
      (x ≠ 15 → (t.reg x).toNat = (shiftOperand src x y s).toNat * 2 % 256) ∧
      (t.reg 15).toNat = (shiftOperand src x y s).toNat / 128 ∧
      RegsExcept [x, 15] s t ∧ Frame [.v] s t := by
  obtain ⟨t, e, hx, hflag, hregs, hframe⟩ := setReg_setFlag_spec s x
    (shlResult (shiftOperand src x y s)) (shlFlag (shiftOperand src x y s))
  refine ⟨t, e, fun h => ?_, ?_, hregs, hframe⟩
  · rw [hx h, shlResult_toNat]
  · rw [hflag, flagByte_shlFlag_toNat]

/-- Settles O22: a shift of the operand that `SHIFT_SOURCE` names; `exec` takes it at the default,
Vx. -/
theorem shiftsMoveOneBitIntoVf : Obligations.ShiftsMoveOneBitIntoVf :=
  ⟨fun _ hop => ⟨decode_shr hop, decode_shl hop⟩,
    shrWith_spec Policy.shiftSource, shlWith_spec Policy.shiftSource,
    shrWith_spec .vy, shlWith_spec .vy⟩

/-! ### The forms with x = y (R107) -/

theorem addResult_self_toNat (a : Byte) : (addResult a a).toNat = 2 * a.toNat % 256 := by
  rw [addResult_toNat, ← Nat.two_mul]

/-- Doubling carries exactly when bit 7 is set. -/
theorem addCarry_self (a : Byte) : addCarry a a = a.getLsbD 7 := by
  show decide (255 < a.toNat + a.toNat) = shlFlag a
  rw [shlFlag_eq_decide, decide_eq_decide]
  omega

theorem subResult_self (a : Byte) : subResult a a = 0 := by
  simp [subResult]

theorem subNoBorrow_self (a : Byte) : subNoBorrow a a = true := by
  simp [subNoBorrow]

/-- SUB and SUBN of a register and itself. -/
theorem setReg_subResult_self_spec (s : State) (x : RegId) (a : Byte) :
    ∃ t, (.next ((s.setReg x (subResult a a)).setFlag (subNoBorrow a a)) : Result) = .next t ∧
      (x ≠ 15 → t.reg x = 0) ∧ t.reg 15 = 1 := by
  rw [subResult_self, subNoBorrow_self]
  obtain ⟨t, e, hx, hflag, _⟩ := setReg_setFlag_spec s x 0 true
  exact ⟨t, e, hx, hflag⟩

theorem execAddReg_self_spec (x : RegId) (s : State) :
    ∃ t, execAddReg x x s = .next t ∧
      (x ≠ 15 → (t.reg x).toNat = 2 * (s.reg x).toNat % 256) ∧
      t.reg 15 = flagByte ((s.reg x).getLsbD 7) := by
  obtain ⟨t, e, hx, hflag, _⟩ := setReg_setFlag_spec s x
    (addResult (s.reg x) (s.reg x)) (addCarry (s.reg x) (s.reg x))
  refine ⟨t, e, fun h => ?_, ?_⟩
  · rw [hx h, addResult_self_toNat]
  · rw [hflag, addCarry_self]

theorem execShr_self_spec (x : RegId) (s : State) :
    ∃ t, execShr x x s = .next t ∧ (x ≠ 15 → (t.reg x).toNat = (s.reg x).toNat / 2) ∧
      t.reg 15 = flagByte ((s.reg x).getLsbD 0) := by
  obtain ⟨t, e, hx, hflag, _⟩ := shrWith_spec Policy.shiftSource x x s
  exact ⟨t, e, hx, BitVec.eq_of_toNat_eq (hflag.trans (flagByte_shrFlag_toNat (s.reg x)).symm)⟩

theorem execShl_self_spec (x : RegId) (s : State) :
    ∃ t, execShl x x s = .next t ∧ (x ≠ 15 → (t.reg x).toNat = 2 * (s.reg x).toNat % 256) ∧
      t.reg 15 = flagByte ((s.reg x).getLsbD 7) := by
  obtain ⟨t, e, hx, hflag, _⟩ := shlWith_spec Policy.shiftSource x x s
  refine ⟨t, e, fun h => ?_,
    BitVec.eq_of_toNat_eq (hflag.trans (flagByte_shlFlag_toNat (s.reg x)).symm)⟩
  rw [Nat.mul_comm 2]
  exact hx h

/-- Settles O23: the copies and the idempotent logic write Vx to itself, XOR writes zero, and the rest
are the lemmas above. -/
theorem sameRegisterForms : Obligations.SameRegisterForms := fun x s =>
  ⟨⟨_, rfl, setReg_reg_of_eq rfl⟩,
    ⟨_, rfl, setReg_reg_of_eq BitVec.or_self⟩,
    ⟨_, rfl, setReg_reg_of_eq BitVec.and_self⟩,
    ⟨_, rfl, (State.setReg_reg_self s x _).trans BitVec.xor_self⟩,
    execAddReg_self_spec x s,
    setReg_subResult_self_spec s x (s.reg x),
    setReg_subResult_self_spec s x (s.reg x),
    execShr_self_spec x s,
    execShl_self_spec x s⟩

end Sys2Proof.Machine
end

section
/-! PROOFS. The index register and the memory blocks (42_index_memory): their words, the frames of a
write of `I`, of memory and of the registers, and the blocks that Fx33, Fx55 and Fx65 store and load. -/

namespace Sys2Proof

/-! ### Their words (30_encoding R77, R78) -/

theorem decode_of_opA {w : Word} (hop : fieldOp w = 0xA#4) :
    decode w = .instr (.ldI (fieldNNN w)) := by
  unfold decode; rw [hop]; rfl

theorem decode_of_opF {w : Word} (hop : fieldOp w = 0xF#4) : decode w = decodeFamilyF w := by
  unfold decode; rw [hop]; rfl

theorem decode_addI {w : Word} (hop : fieldOp w = 0xF#4) (hnn : fieldNN w = 0x1E#8) :
    decode w = .instr (.addI (fieldX w)) := by
  rw [decode_of_opF hop, decodeFamilyF, hnn]; rfl

theorem decode_ldF {w : Word} (hop : fieldOp w = 0xF#4) (hnn : fieldNN w = 0x29#8) :
    decode w = .instr (.ldF (fieldX w)) := by
  rw [decode_of_opF hop, decodeFamilyF, hnn]; rfl

theorem decode_ldB {w : Word} (hop : fieldOp w = 0xF#4) (hnn : fieldNN w = 0x33#8) :
    decode w = .instr (.ldB (fieldX w)) := by
  rw [decode_of_opF hop, decodeFamilyF, hnn]; rfl

theorem decode_storeRegs {w : Word} (hop : fieldOp w = 0xF#4) (hnn : fieldNN w = 0x55#8) :
    decode w = .instr (.storeRegs (fieldX w)) := by
  rw [decode_of_opF hop, decodeFamilyF, hnn]; rfl

theorem decode_loadRegs {w : Word} (hop : fieldOp w = 0xF#4) (hnn : fieldNN w = 0x65#8) :
    decode w = .instr (.loadRegs (fieldX w)) := by
  rw [decode_of_opF hop, decodeFamilyF, hnn]; rfl

end Sys2Proof

namespace Sys2Proof.Machine

/-! ### Frames -/

theorem setIndex_frame (s : State) (a : Word) : Frame [.index] s (s.setIndex a) := by
  intro p hp
  cases p <;> simp_all [Part.Same]

theorem setMem_frame (s : State) (m : Memory) : Frame [.memory] s (s.setMem m) := by
  intro p hp
  cases p <;> simp_all [Part.Same]

theorem loadRegsFrom_frame (s : State) (bs : List Byte) : Frame [.v] s (s.loadRegsFrom bs) := by
  intro p hp
  cases p <;> simp_all [Part.Same, State.loadRegsFrom]

/-! ### LD I and LD F (R108, R110) -/

/-- Settles O25: the 12-bit address fits in `I`. -/
theorem ldILoadsItsAddress : Obligations.LdILoadsItsAddress :=
  ⟨fun _ => decode_of_opA, fun nnn s => ⟨_, rfl, toNat_setWidth_addr12 nnn, setIndex_frame s _⟩⟩

/-- The last glyph begins at 0x09B, so the address fits in `I`. -/
theorem glyphAddress_toNat (b : Byte) : (glyphAddress b).toNat = 0x050 + 5 * (b.toNat % 16) := by
  simp only [glyphAddress, Config.fontBase, Config.glyphBytes, BitVec.toNat_ofNat]
  omega

/-- Settles O27: `I` takes the address of the glyph. -/
theorem ldFPointsAtTheGlyph : Obligations.LdFPointsAtTheGlyph :=
  ⟨fun _ => decode_ldF, fun x s => ⟨_, rfl, glyphAddress_toNat (s.reg x), setIndex_frame s _⟩⟩

/-! ### ADD I (R109) -/

@[simp] theorem setIndexFlag_true (s : State) (p : Config.NoOverflowFlag) :
    s.setIndexFlag p true = s.setFlag true := rfl

@[simp] theorem setIndexFlag_clear_false (s : State) :
    s.setIndexFlag .clear false = s.setFlag false := rfl

/-- The flag write of Fx1E is a flag write or, under `keep` without overflow, nothing. -/
theorem setIndexFlag_cases (s : State) (p : Config.NoOverflowFlag) (f : Bool) :
    s.setIndexFlag p f = s.setFlag f ∨ s.setIndexFlag p f = s := by
  cases f with
  | true => exact .inl rfl
  | false =>
    cases p with
    | clear => exact .inl rfl
    | keep => exact .inr rfl

theorem setIndexFlag_index (s : State) (p : Config.NoOverflowFlag) (f : Bool) :
    (s.setIndexFlag p f).index = s.index := by
  obtain e | e := setIndexFlag_cases s p f <;> rw [e]
  exact State.setFlag_index s f

theorem setIndexFlag_frame (s : State) (p : Config.NoOverflowFlag) (f : Bool) :
    Frame [.v] s (s.setIndexFlag p f) := by
  obtain e | e := setIndexFlag_cases s p f <;> rw [e]
  · exact setReg_frame s vF (flagByte f)
  · exact Frame.refl _ s

theorem setIndexFlag_regsExcept (s : State) (p : Config.NoOverflowFlag) (f : Bool) :
    RegsExcept [15] s (s.setIndexFlag p f) := by
  obtain e | e := setIndexFlag_cases s p f <;> rw [e]
  · exact RegsExcept_setReg s vF (flagByte f)
  · exact fun _ _ => rfl

/-- Without overflow VF is what the flag write of the policy `p` leaves there. -/
theorem addIWith_spec (p : Config.NoOverflowFlag) (x : RegId) (s : State) :
    ∃ t, addIWith p x s = .next t ∧
      t.index.toNat = (s.index.toNat + (s.reg x).toNat) % 4096 ∧
      (0xFFF < s.index.toNat + (s.reg x).toNat → (t.reg 15).toNat = 1) ∧
      (s.index.toNat + (s.reg x).toNat ≤ 0xFFF →
        t.reg 15 = ((s.setIndex (indexResult s.index (s.reg x))).setIndexFlag p false).reg 15) ∧
      RegsExcept [15] s t ∧ Frame [.v, .index] s t := by
  refine ⟨_, rfl, ?_, fun hover => ?_, fun hno => ?_, setIndexFlag_regsExcept _ p _, ?_⟩
  · rw [setIndexFlag_index]
    exact indexResult_toNat s.index (s.reg x)
  · have hf : indexOverflow s.index (s.reg x) = true := decide_eq_true hover
    rw [hf, setIndexFlag_true]
    exact congrArg BitVec.toNat (State.setFlag_reg_vF _ true)
  · have hf : indexOverflow s.index (s.reg x) = false := decide_eq_false (Nat.not_lt.mpr hno)
    rw [hf]
  · exact ((setIndex_frame s _).trans (setIndexFlag_frame _ p _)).mono (by simp)

/-- Settles O26: the two policies differ only in what the flag write does without overflow. -/
theorem addIMasksAndFlagsOverflow : Obligations.AddIMasksAndFlagsOverflow := by
  refine ⟨fun _ => decode_addI, fun x s => ?_, addIWith_spec .keep⟩
  obtain ⟨t, e, hindex, hover, hno, hregs, hframe⟩ := addIWith_spec .clear x s
  refine ⟨t, e, hindex, hover, fun hle => ?_, hregs, hframe⟩
  rw [hno hle, setIndexFlag_clear_false]
  exact congrArg BitVec.toNat (State.setFlag_reg_vF _ false)

/-! ### Blocks -/

theorem orRaise_error_haltedBy {α : Type} {r : Except FatalKind α} {k : FatalKind} (i : Instr)
    (s : State) (f : α → Result) (h : r = .error k) :
    ∃ t, orRaise i s r f = .next t ∧ HaltedBy i k s t := by
  subst h
  exact raise_haltedBy i k s

/-- A block write succeeds when every address is writable, under either policy. -/
theorem writeBlock_of_writable {p : Config.ReservedWritePolicy} (m : Memory) {a : Nat}
    {bs : List Byte} (hp : p = .allow ∨ Config.reservedEnd ≤ a)
    (h : a + bs.length ≤ Config.memSize) : ∃ m', writeBlock p m a bs = .ok m' := by
  induction bs generalizing a m with
  | nil => exact ⟨m, rfl⟩
  | cons b bs ih =>
    simp only [List.length_cons] at h
    have hwrite : memWrite p m a b = .ok (m.write a b) := memWrite_of_writable (by omega) hp.symm
    rw [writeBlock, hwrite]
    exact ih (m.write a b) (hp.imp_right Nat.le_succ_of_le) (by omega)

theorem writeBlock_reserved_of_ne_nil (m : Memory) {a : Nat} {bs : List Byte} (hbs : bs ≠ [])
    (h : a < Config.reservedEnd) : writeBlock .fault m a bs = .error (.reservedWrite a) := by
  obtain ⟨b, bs, rfl⟩ := List.exists_cons_of_ne_nil hbs
  exact writeBlock_reserved m a b bs h

/-- The memory of a successful block write, put into the state, changes no byte outside the block. -/
theorem writeBlock_bytesExcept {p : Config.ReservedWritePolicy} {s : State} {m : Memory} {a : Nat}
    {bs : List Byte} (h : writeBlock p s.mem a bs = .ok m) :
    BytesExcept a bs.length s (s.setMem m) :=
  fun _ hb => writeBlock_read_outside h hb

/-! ### LD B (R111) -/

@[simp] theorem bcdDigits_length (b : Byte) : (bcdDigits b).length = 3 := rfl

/-- The digits a block write of Fx33 stores are what memory holds after it. -/
theorem writeBlock_bcdDigits {p : Config.ReservedWritePolicy} {b : Byte} {s : State} {m : Memory}
    (h : writeBlock p s.mem (s.indexAddr 0) (bcdDigits b) = .ok m) (hm : s.mem.wf = true) :
    (m.read (s.indexAddr 0)).toNat = b.toNat / 100 ∧
      (m.read (s.indexAddr 1)).toNat = b.toNat / 10 % 10 ∧
      (m.read (s.indexAddr 2)).toNat = b.toNat % 10 := by
  have hb := b.isLt
  have hhundreds : m.read (s.indexAddr 0) = BitVec.ofNat 8 (b.toNat / 100) :=
    writeBlock_read_inside h hm (k := 0) (by simp)
  have htens : m.read (s.indexAddr 1) = BitVec.ofNat 8 (b.toNat / 10 % 10) :=
    writeBlock_read_inside h hm (k := 1) (by simp)
  have hones : m.read (s.indexAddr 2) = BitVec.ofNat 8 (b.toNat % 10) :=
    writeBlock_read_inside h hm (k := 2) (by simp)
  rw [hhundreds, htens, hones]
  simp only [BitVec.toNat_ofNat]
  omega

theorem ldBWith_spec {p : Config.ReservedWritePolicy} (x : RegId) {s : State}
    (hm : s.mem.wf = true) (hp : p = .allow ∨ 0x200 ≤ s.index.toNat)
    (h : s.index.toNat + 2 < 4096) :
    ∃ t, ldBWith p x s = .next t ∧
      (t.mem.read (s.indexAddr 0)).toNat = (s.reg x).toNat / 100 ∧
      (t.mem.read (s.indexAddr 1)).toNat = (s.reg x).toNat / 10 % 10 ∧
      (t.mem.read (s.indexAddr 2)).toNat = (s.reg x).toNat % 10 ∧
      BytesExcept (s.indexAddr 0) 3 s t ∧ Frame [.memory] s t := by
  obtain ⟨m, e⟩ : ∃ m, writeBlock p s.mem (s.indexAddr 0) (bcdDigits (s.reg x)) = .ok m :=
    writeBlock_of_writable s.mem hp h
  obtain ⟨hhundreds, htens, hones⟩ := writeBlock_bcdDigits e hm
  exact ⟨s.setMem m, by rw [ldBWith, e]; rfl, hhundreds, htens, hones, writeBlock_bytesExcept e,
    setMem_frame s m⟩

/-- Settles O28: the block write of the three digits succeeds, answers the reserved address `I`, or
answers the first address past the end. -/
theorem ldBStoresThreeDigits : Obligations.LdBStoresThreeDigits :=
  ⟨fun _ => decode_ldB,
    fun x _ hm hlo hhi => ldBWith_spec (p := Policy.reservedWrite) x hm (.inr hlo) hhi,
    fun _ s hlo => orRaise_error_haltedBy _ s _ (writeBlock_reserved s.mem _ _ _ hlo),
    fun _ s hhi => orRaise_error_haltedBy _ s _
      (writeBlock_outOfRange s.mem _ _ (List.cons_ne_nil _ _)
        (show 0x200 ≤ s.index.toNat by omega) (Nat.lt_succ_of_le hhi)),
    fun x _ hm hhi => ldBWith_spec x hm (.inl rfl) hhi⟩

/-! ### The advance of `I` (R112, R113) -/

@[simp] theorem advanceIndex_mem (s : State) (inc : Bool) (x : RegId) :
    (s.advanceIndex inc x).mem = s.mem := by
  cases inc <;> rfl

@[simp] theorem advanceIndex_reg (s : State) (inc : Bool) (x j : RegId) :
    (s.advanceIndex inc x).reg j = s.reg j := by
  cases inc <;> rfl

/-- Past a block inside the address space `I` does not wrap. -/
theorem advanceIndex_index_toNat {s : State} (inc : Bool) {x : RegId}
    (h : s.index.toNat + x.val < 4096) :
    (s.advanceIndex inc x).index.toNat =
      if inc then s.index.toNat + x.val + 1 else s.index.toNat := by
  cases inc with
  | false => rfl
  | true =>
    simp only [State.advanceIndex, if_true, State.setIndex_index, BitVec.toNat_add,
      BitVec.toNat_ofNat]
    omega

theorem advanceIndex_frame (s : State) (inc : Bool) (x : RegId) :
    Frame [.index] s (s.advanceIndex inc x) := by
  cases inc with
  | false => exact Frame.refl _ s
  | true => exact setIndex_frame s _

/-! ### LD [I], Vx (R112) -/

theorem regsUpTo_ne_nil (s : State) (x : RegId) : s.regsUpTo x ≠ [] := by
  rw [← List.length_pos_iff, regsUpTo_length]
  exact Nat.succ_pos _

/-- Before `I` is advanced: the registers are stored, and every other byte is left. -/
theorem storeRegsWith_spec {p : Config.ReservedWritePolicy} (inc : Bool) {x : RegId} {s : State}
    (hm : s.mem.wf = true) (hp : p = .allow ∨ 0x200 ≤ s.index.toNat)
    (h : s.index.toNat + x.val < 4096) :
    ∃ m, storeRegsWith p inc x s = .next ((s.setMem m).advanceIndex inc x) ∧
      (∀ j : RegId, j ≤ x → m.read (s.indexAddr j.val) = s.reg j) ∧
      BytesExcept (s.indexAddr 0) (x.val + 1) s (s.setMem m) := by
  have hlen := regsUpTo_length s x
  obtain ⟨m, e⟩ : ∃ m, writeBlock p s.mem (s.indexAddr 0) (s.regsUpTo x) = .ok m :=
    writeBlock_of_writable s.mem hp (by rw [hlen]; exact h)
  exact ⟨m, by rw [storeRegsWith, e]; rfl, fun _ => writeBlock_regsUpTo e hm,
    hlen ▸ writeBlock_bytesExcept e⟩

/-- Settles O29: the block write of V0 to Vx succeeds, answers the reserved address `I`, or answers
the first address past the end; `I` is advanced only after it. -/
theorem storeRegsStoresV0ToVx : Obligations.StoreRegsStoresV0ToVx := by
  refine ⟨fun _ => decode_storeRegs, fun x s hm hlo hhi => ?_, fun x s hlo => ?_,
    fun x s hlo hhi => ?_, fun p inc x s hm hp hhi => ?_⟩
  · obtain ⟨m, e, hread, hbytes⟩ :=
      storeRegsWith_spec (p := Policy.reservedWrite) Policy.loadStoreIncrementsI hm (.inr hlo) hhi
    exact ⟨s.setMem m, e, hread, hbytes, setMem_frame s m⟩
  · exact orRaise_error_haltedBy _ s _
      (writeBlock_reserved_of_ne_nil s.mem (regsUpTo_ne_nil s x) hlo)
  · exact orRaise_error_haltedBy _ s _
      (writeBlock_outOfRange s.mem _ _ (regsUpTo_ne_nil s x) hlo
        (by rw [regsUpTo_length]; exact Nat.lt_succ_of_le hhi))
  · obtain ⟨m, e, hread, hbytes⟩ := storeRegsWith_spec inc hm hp hhi
    refine ⟨_, e, ?_, ?_, advanceIndex_index_toNat (s := s.setMem m) inc hhi,
      (setMem_frame s m).trans (advanceIndex_frame _ inc x)⟩
    · simpa using hread
    · simpa [BytesExcept] using hbytes

/-! ### LD Vx, [I] (R113) -/

/-- Before `I` is advanced: V0 to Vx hold the block, and every other register is left. -/
theorem loadRegsWith_spec (inc : Bool) {x : RegId} {s : State}
    (h : s.index.toNat + x.val < 4096) :
    ∃ bs, loadRegsWith inc x s = .next ((s.loadRegsFrom bs).advanceIndex inc x) ∧
      (∀ j : RegId, j ≤ x → (s.loadRegsFrom bs).reg j = s.mem.read (s.indexAddr j.val)) ∧
      ∀ j : RegId, x < j → (s.loadRegsFrom bs).reg j = s.reg j := by
  have e := readBlock_ok s.mem (s.indexAddr 0) (x.val + 1) (.inr h)
  refine ⟨_, by rw [loadRegsWith, e]; rfl, fun j hj => ?_, fun j hj => ?_⟩
  · have hlt : j.val < x.val + 1 := Nat.lt_succ_of_le hj
    rw [State.loadRegsFrom_reg, List.getD_eq_getElem _ _ (by simpa using hlt)]
    simp [State.indexAddr]
  · have hle : x.val + 1 ≤ j.val := hj
    rw [State.loadRegsFrom_reg, List.getD_eq_default _ _ (by simpa using hle)]

/-- Settles O30: the block read from `I` on succeeds, or answers the first address past the end; `I`
is advanced only after it. -/
theorem loadRegsLoadsV0ToVx : Obligations.LoadRegsLoadsV0ToVx := by
  refine ⟨fun _ => decode_loadRegs, fun x s hhi => ?_, fun x s hhi => ?_,
    fun inc x s hhi => ?_⟩
  · obtain ⟨bs, e, hloaded, hkept⟩ := loadRegsWith_spec Policy.loadStoreIncrementsI hhi
    exact ⟨s.loadRegsFrom bs, e, hloaded, hkept, loadRegsFrom_frame s bs⟩
  · exact orRaise_error_haltedBy _ s _
      (readBlock_error s.mem _ _ (Nat.succ_ne_zero _) (Nat.lt_succ_of_le hhi))
  · obtain ⟨bs, e, hloaded, hkept⟩ := loadRegsWith_spec inc hhi
    refine ⟨_, e, ?_, ?_, advanceIndex_index_toNat (s := s.loadRegsFrom bs) inc hhi,
      (loadRegsFrom_frame s bs).trans (advanceIndex_frame _ inc x)⟩
    · simpa using hloaded
    · simpa using hkept

end Sys2Proof.Machine
end

section
/-! PROOFS. The display buffer (43_display): the frame of a write of the display, and CLS. -/

namespace Sys2Proof.Machine

theorem setDisplay_frame (s : State) (d : Display) : Frame [.display] s (s.setDisplay d) := by
  intro p hp
  cases p <;> simp_all [Part.Same]

theorem exec_cls (s : State) : exec .cls s = .next (s.setDisplay Display.blank) := rfl

/-- Settles O32: CLS puts the blank display in place of the old one. -/
theorem clsTurnsEveryPixelOff : Obligations.ClsTurnsEveryPixelOff :=
  ⟨by decide, fun s => ⟨_, exec_cls s, Display.blank_pixel, setDisplay_frame s _⟩⟩

end Sys2Proof.Machine
end

section
/-! PROOFS. Timers and keypad (44_timers_keypad): the skips on a key, the key wait, and the copies between
a register and a timer. -/

namespace Sys2Proof

/-! ### Their words (30_encoding R76, R77) -/

theorem decode_of_opE {w : Word} (hop : fieldOp w = 0xE#4) : decode w = decodeFamilyE w := by
  unfold decode; rw [hop]; rfl

theorem decode_skp {w : Word} (hop : fieldOp w = 0xE#4) (hnn : fieldNN w = 0x9E#8) :
    decode w = .instr (.skp (fieldX w)) := by
  rw [decode_of_opE hop, decodeFamilyE, hnn]; rfl

theorem decode_sknp {w : Word} (hop : fieldOp w = 0xE#4) (hnn : fieldNN w = 0xA1#8) :
    decode w = .instr (.sknp (fieldX w)) := by
  rw [decode_of_opE hop, decodeFamilyE, hnn]; rfl

theorem decode_ldVxDt {w : Word} (hop : fieldOp w = 0xF#4) (hnn : fieldNN w = 0x07#8) :
    decode w = .instr (.ldVxDt (fieldX w)) := by
  rw [decode_of_opF hop, decodeFamilyF, hnn]; rfl

theorem decode_ldVxK {w : Word} (hop : fieldOp w = 0xF#4) (hnn : fieldNN w = 0x0A#8) :
    decode w = .instr (.ldVxK (fieldX w)) := by
  rw [decode_of_opF hop, decodeFamilyF, hnn]; rfl

theorem decode_ldDtVx {w : Word} (hop : fieldOp w = 0xF#4) (hnn : fieldNN w = 0x15#8) :
    decode w = .instr (.ldDtVx (fieldX w)) := by
  rw [decode_of_opF hop, decodeFamilyF, hnn]; rfl

theorem decode_ldStVx {w : Word} (hop : fieldOp w = 0xF#4) (hnn : fieldNN w = 0x18#8) :
    decode w = .instr (.ldStVx (fieldX w)) := by
  rw [decode_of_opF hop, decodeFamilyF, hnn]; rfl

end Sys2Proof

namespace Sys2Proof.Machine

/-! ### Frames -/

theorem setDelay_frame (s : State) (b : Byte) : Frame [.delay] s (s.setDelay b) := by
  intro p hp
  cases p <;> simp_all [Part.Same]

theorem setSound_frame (s : State) (b : Byte) : Frame [.sound] s (s.setSound b) := by
  intro p hp
  cases p <;> simp_all [Part.Same]

theorem countDraw_frame (s : State) (l : List Byte) : Frame [.random] s (s.countDraw l) := by
  intro p hp
  cases p <;> simp_all [Part.Same]

/-! ### The skips on a key (R118, R119) -/

theorem keyOperand_of_toNat_eq {b : Byte} {k : KeyId} (h : b.toNat = k.val) :
    keyOperand b = .ok k := by
  obtain ⟨hgt, _⟩ | ⟨_, e⟩ := keyOperand_cases b
  · omega
  · exact e.trans (congrArg Except.ok (Fin.ext h))

theorem keyOperand_of_gt {b : Byte} (h : 15 < b.toNat) :
    keyOperand b = .error (.keyIndexOutOfRange b) := by
  obtain ⟨_, e⟩ | ⟨hlt, _⟩ := keyOperand_cases b
  · exact e
  · omega

theorem execSkp_of_key {x : RegId} {k : KeyId} {s : State} (h : (s.reg x).toNat = k.val) :
    execSkp x s = .next (skipIf (s.key k) s) := by
  rw [execSkp, keyOperand_of_toNat_eq h]; rfl

theorem execSknp_of_key {x : RegId} {k : KeyId} {s : State} (h : (s.reg x).toNat = k.val) :
    execSknp x s = .next (skipIf (!s.key k) s) := by
  rw [execSknp, keyOperand_of_toNat_eq h]; rfl

theorem skipIf_pc_of_true {c : Bool} (s : State) (h : c = true) :
    (skipIf c s).pc = s.pc + 2 := by
  rw [h, skipIf_true, State.setPc_pc]

theorem skipIf_pc_of_false {c : Bool} (s : State) (h : c = false) : (skipIf c s).pc = s.pc := by
  rw [h, skipIf_false]

/-- Settles O35: an operand up to 15 names its key, and the skip is by that key's state or its
negation; above 15 the operand itself raises. -/
theorem keySkips : Obligations.KeySkips := by
  refine ⟨fun _ hop => ⟨decode_skp hop, decode_sknp hop⟩, fun x k s hk => ⟨?_, ?_⟩,
    fun x s hgt => ⟨?_, ?_⟩⟩
  · exact ⟨_, execSkp_of_key hk, skipIf_pc_of_true s, skipIf_pc_of_false s, skipIf_frame _ s⟩
  · exact ⟨_, execSknp_of_key hk, fun hup => skipIf_pc_of_true s (by rw [hup]; rfl),
      fun hdown => skipIf_pc_of_false s (by rw [hdown]; rfl), skipIf_frame _ s⟩
  · exact orRaise_error_haltedBy (.skp x) s _ (keyOperand_of_gt hgt)
  · exact orRaise_error_haltedBy (.sknp x) s _ (keyOperand_of_gt hgt)

/-! ### The key wait (R121) -/

theorem execLdVxK_of_no_key (x : RegId) {s : State} (h : ∀ k, s.key k = false) :
    execLdVxK x s = .next (s.setPc (s.pc - 2)) := by
  obtain ⟨_, e⟩ | ⟨k, hk, _⟩ := execLdVxK_cases x s
  · exact e
  · exact absurd ((h k).symm.trans hk) Bool.false_ne_true

/-- A key index fits in a register. -/
theorem ofNat_keyId_toNat (k : KeyId) : (BitVec.ofNat 8 k.val).toNat = k.val := by
  rw [BitVec.toNat_ofNat]
  omega

theorem execLdVxK_of_key (x : RegId) {s : State} (h : ∃ k, s.key k = true) :
    ∃ t k, execLdVxK x s = .next t ∧ s.key k = true ∧ (t.reg x).toNat = k.val ∧
      RegsExcept [x] s t ∧ Frame [.v, .random] s t := by
  obtain ⟨hnone, _⟩ | ⟨k, hk, e⟩ := execLdVxK_cases x s
  · obtain ⟨k, hk⟩ := h
    exact absurd ((hnone k).symm.trans hk) Bool.false_ne_true
  · refine ⟨_, k, e, hk, ?_, RegsExcept_setReg s x _,
      (setReg_frame s x _).trans (countDraw_frame _ _)⟩
    rw [State.countDraw_reg, State.setReg_reg_self, ofNat_keyId_toNat]

/-- Settles O37: without a key the wait goes back, with one it stores a pressed key, and a key that is
alone is that one. -/
theorem keyWaitRewindsOrStoresAPressedKey : Obligations.KeyWaitRewindsOrStoresAPressedKey := by
  refine ⟨fun _ => decode_ldVxK, fun x s hnone => ?_, fun x _ => execLdVxK_of_key x,
    fun x k s hk honly => ?_⟩
  · exact ⟨_, execLdVxK_of_no_key x hnone, rfl, setPc_frame s _⟩
  · obtain ⟨t, j, e, hj, hreg, _⟩ := execLdVxK_of_key x ⟨k, hk⟩
    exact ⟨t, e, honly j hj ▸ hreg⟩

/-! ### The copies between a register and a timer (R120, R122, R123) -/

/-- Settles O36: a write of DT to Vx. -/
theorem ldVxDtReadsTheDelayTimer : Obligations.LdVxDtReadsTheDelayTimer :=
  ⟨fun _ => decode_ldVxDt, fun x s => ⟨_, rfl, State.setReg_reg_self s x s.delay,
    RegsExcept_setReg s x s.delay, setReg_frame s x s.delay⟩⟩

/-- Settles O38: a write of Vx to DT, and one to ST. -/
theorem timerWritesCopyVx : Obligations.TimerWritesCopyVx :=
  ⟨fun _ hop => ⟨decode_ldDtVx hop, decode_ldStVx hop⟩,
    fun x s => ⟨_, rfl, State.setDelay_delay s (s.reg x), setDelay_frame s (s.reg x)⟩,
    fun x s => ⟨_, rfl, State.setSound_sound s (s.reg x), setSound_frame s (s.reg x)⟩⟩

end Sys2Proof.Machine
end

section
/-! PROOFS. Reports and fatal faults (60_exceptions R128, R129), and the moves of the other agents: ticks
(R135) and key events (R141). -/

namespace Sys2Proof.Machine

/-! ### The address an instruction was fetched from (30_encoding R67) -/

@[simp] theorem fetchAddress_setPc_add_two (s : State) :
    (s.setPc (s.pc + 2)).fetchAddress = s.pc := BitVec.add_sub_cancel s.pc 2

/-! ### Reports (R128) -/

theorem emit_frame (s : State) (e : Emission) : Frame [.history] s (s.emit e) := by
  intro p hp
  cases p <;> simp_all [Part.Same]

theorem setPc_reportUnknown_frame (s : State) (w a : Word) :
    Frame [.pc, .history] s (reportUnknown w (s.setPc a)) :=
  (setPc_frame s a).trans (emit_frame _ _)

/-- Settles O5: the report is made after the advance of `pc`, and its address goes back by 2. -/
theorem unknownOpcodeIsReportedAndSkipped : Obligations.UnknownOpcodeIsReportedAndSkipped := by
  intro s w hrun hw hd
  refine ⟨reportUnknown w (s.setPc (s.pc + 2)), (instrStep_ok hw).trans (runWord_unknown s hd), rfl,
    ?_, hrun, setPc_reportUnknown_frame s w _⟩
  rw [reportUnknown, fetchAddress_setPc_add_two, State.emit_history, State.setPc_history]

/-! ### Fatal faults (R129) -/

/-- The status is not among the parts an instruction changes in its own right: only a fatal condition
changes it. -/
theorem status_not_mem_partsChanged (i : Instr) : Part.status ∉ partsChanged i := by
  cases i <;> simp [partsChanged]

/-- An instruction that leaves a running machine halted has raised a condition. -/
theorem exec_haltedBy_of_halted {i : Instr} {s t : State} {f : FaultRecord}
    (hrun : s.status = .running) (h : exec i s = .next t) (hf : t.status = .halted f) :
    ∃ k, HaltedBy i k s t := by
  obtain ⟨k, e⟩ | ⟨t', e, hframe⟩ := exec_cases i s
  · obtain ⟨t', e', hhalt⟩ := raise_haltedBy i k s
    cases (e.trans e').symm.trans h
    exact ⟨k, hhalt⟩
  · cases e.symm.trans h
    have hsame : t.status = s.status := hframe .status (status_not_mem_partsChanged i)
    rw [hsame, hrun] at hf
    cases hf

/-- The record and the frame of a fault inside the instruction of the word `w`: `pc` is a + 2. -/
theorem haltedBy_of_decode {i : Instr} {k : FatalKind} {w : Word} {s t : State}
    (hd : decode w = .instr i) (h : HaltedBy i k (s.setPc (s.pc + 2)) t) :
    t.status = .halted { kind := k, word := some w, address := s.pc } ∧ t.pc = s.pc + 2 ∧
      Frame [.status, .pc] s t := by
  obtain ⟨hstatus, hframe⟩ := h
  refine ⟨?_, hframe .pc (by simp), ((setPc_frame s _).trans hframe).mono (by simp)⟩
  rw [hstatus, encode_of_decode hd, State.setPc_pc, BitVec.add_sub_cancel]

/-- Settles O53: of the three ways of an instruction step, a fetch fault halts with `pc` in place, an
instruction halts only by a condition it raises, and an UnknownOpcode does not halt. -/
theorem fatalFaultsArePrecise : Obligations.FatalFaultsArePrecise := by
  refine ⟨fun s t f hrun h hf => ?_, fun s f m hf => act_halted hf m⟩
  obtain ⟨hpc, e⟩ | ⟨_, w, hw, ⟨i, hd, e⟩ | ⟨u, _, e⟩⟩ := instrStep_cases s
  · cases e.symm.trans h
    cases hf
    exact ⟨rfl, .inl ⟨rfl, rfl, Nat.succ_le_succ hpc⟩, (halt_frame s _ _ _).mono (by simp)⟩
  · obtain ⟨k, hhalt⟩ := exec_haltedBy_of_halted (s := s.setPc (s.pc + 2)) hrun (e.symm.trans h) hf
    obtain ⟨hstatus, hpc, hframe⟩ := haltedBy_of_decode hd hhalt
    cases hstatus.symm.trans hf
    exact ⟨rfl, .inr ⟨w, rfl, hw, hpc⟩, hframe⟩
  · cases e.symm.trans h
    cases hrun.symm.trans hf

/-! ### Ticks (R135) -/

theorem act_tick {s : State} (h : s.status = .running) : act s .tick = tick s :=
  act_running h .tick

/-- Settles O39: a running machine's move is `tick`, and the laws of `tick` say what it does to DT, to
ST, to the history and to the rest. -/
theorem tickCountsDownAndBeepsOnce : Obligations.TickCountsDownAndBeepsOnce := by
  refine ⟨fun s hrun => ?_, fun s f hf => act_halted hf .tick⟩
  rw [act_tick hrun]
  exact ⟨tick_delay s, tick_sound s, fun hne => (tick_history s).trans (if_neg hne),
    fun h0 => (tick_history s).trans (if_pos h0), tick_frame s⟩

/-! ### Key events (R141) -/

theorem act_keyDown {s : State} (h : s.status = .running) (k : KeyId) :
    act s (.keyDown k) = s.setKey k true := act_running h (.keyDown k)

theorem act_keyUp {s : State} (h : s.status = .running) (k : KeyId) :
    act s (.keyUp k) = s.setKey k false := act_running h (.keyUp k)

theorem setKey_frame (s : State) (k : KeyId) (b : Bool) : Frame [.keys] s (s.setKey k b) := by
  intro p hp
  cases p <;> simp_all [Part.Same]

theorem setKey_of_key_eq {s : State} {k : KeyId} {b : Bool} (h : s.key k = b) :
    s.setKey k b = s := by
  have hkeys : s.keys.set k.val b = s.keys := by
    rw [← h]
    exact Vector.set_getElem_self k.isLt
  rw [State.setKey, hkeys]

/-- What a write of one key does, in the form of the events of R141. -/
theorem setKey_spec (s : State) (k : KeyId) (b : Bool) :
    (s.setKey k b).key k = b ∧ (∀ j, j ≠ k → (s.setKey k b).key j = s.key j) ∧
      Frame [.keys] s (s.setKey k b) ∧ (s.key k = b → s.setKey k b = s) :=
  ⟨State.setKey_key_self s k b, fun _ => State.setKey_key_ne s b, setKey_frame s k b,
    setKey_of_key_eq⟩

/-- Settles O41: either event of a running machine is a write of its key. -/
theorem keyEventsSetOneKey : Obligations.KeyEventsSetOneKey := by
  refine ⟨fun s k hrun => ?_, fun s k f hf => ⟨act_halted hf _, act_halted hf _⟩⟩
  rw [act_keyDown hrun, act_keyUp hrun]
  exact ⟨setKey_spec s k true, setKey_spec s k false⟩

end Sys2Proof.Machine
end

section
/-! PROOFS. `Load` (70_reset R155), and the delay timer between the instruction that writes it and the one
that reads it (R165). -/

namespace Sys2Proof.Machine

/-! ### The delay timer after any number of ticks (R165) -/

/-- Ticks of a running machine leave it running, so every one of them counts DT down, as far as 0. -/
theorem runMoves_ticks_delay {s : State} (hrun : s.status = .running) (k : Nat) :
    (runMoves s (List.replicate k .tick)).delay.toNat = s.delay.toNat - k := by
  induction k generalizing s with
  | zero => rfl
  | succ k ih =>
    have hrun' : (tick s).status = .running := (tick_frame s .status (by simp)).trans hrun
    rw [List.replicate_succ, runMoves_cons, act_tick hrun, ih hrun', tick_delay]
    omega

/-- Settles O40: Fx15 leaves the machine running with Vx in DT, and Fx07 reads DT as the ticks leave it. -/
theorem delayReadSeesTheTicksBetween : Obligations.DelayReadSeesTheTicksBetween := by
  intro x y k s hrun
  refine ⟨s.setDelay (s.reg x), _, rfl, rfl, ?_⟩
  rw [State.setReg_reg_self]
  exact runMoves_ticks_delay (s := s.setDelay (s.reg x)) hrun k

/-! ### Load (R155) -/

theorem load_of_gt {bytes : List Byte} (s : State) (h : Config.romMax < bytes.length) :
    load bytes s = .romTooLarge bytes.length := if_pos h

theorem load_of_le {bytes : List Byte} (s : State) (h : bytes.length ≤ Config.romMax) :
    load bytes s = .ok (s.setMem (storeBytes s.mem Config.progBase bytes)) :=
  if_neg (Nat.not_lt.mpr h)

/-- A state that `load` answers differs from the one before it in the bytes of the program only. -/
theorem load_bytesExcept {bytes : List Byte} {s t : State} (h : load bytes s = .ok t) :
    BytesExcept Config.progBase bytes.length s t := by
  obtain hlong | hfits := Nat.lt_or_ge Config.romMax bytes.length
  · cases (load_of_gt s hlong).symm.trans h
  · cases (load_of_le s hfits).symm.trans h
    exact fun _ => storeBytes_read_outside s.mem Config.progBase bytes

/-- Settles O43: the bytes of the program are the ones stored; past a program loaded after reset memory
still reads as at reset, which is 0 from the font's end on. -/
theorem loadCopiesTheProgramOrRejectsIt : Obligations.LoadCopiesTheProgramOrRejectsIt := by
  refine ⟨fun bytes s => load_of_gt s, fun bytes s hlen hwf => ?_, fun bytes a t h hlo _ => ?_⟩
  · have hfits : Config.progBase + bytes.length ≤ Config.memSize := Nat.add_le_add_left hlen 0x200
    have hload := load_of_le s hlen
    exact ⟨_, hload, fun i hi => storeBytes_read_inside hwf hfits hi, load_bytesExcept hload,
      setMem_frame s _⟩
  · calc t.mem.read a = resetByte a :=
          load_bytesExcept h a fun hin => Nat.not_lt.mpr hlo hin.2
      _ = 0 := resetByte_past_font (by omega)

end Sys2Proof.Machine
end

section
/-! PROOFS. Encoder and decoder against each other (30_encoding R69 to R81), the words the decoder leaves
without an instruction, and RND, whose word is one of them (41_alu R104). -/

namespace Sys2Proof

/-! ### The two families not stated above (R78) -/

theorem decode_of_opC {w : Word} (hop : fieldOp w = 0xC#4) :
    decode w = .instr (.rnd (fieldX w) (fieldNN w)) := by
  unfold decode; rw [hop]; rfl

theorem decode_of_opD {w : Word} (hop : fieldOp w = 0xD#4) :
    decode w = .instr (.drw (fieldX w) (fieldY w) (fieldN w).toNat) := by
  unfold decode; rw [hop]; rfl

/-! ### Decoding an encoded instruction -/

theorem ofNat_rowCount_toNat {x y : RegId} {rows : Nat}
    (h : (Instr.drw x y rows).wellFormed = true) :
    (BitVec.ofNat 4 rows).toNat = rows := by
  have hlt : rows < 16 := of_decide_eq_true h
  rw [BitVec.toNat_ofNat]
  omega

/-- Each case names the lemma that decodes a word with these selecting fields; the fields of the word
built are the operands by the `simp` laws of the three forms. -/
theorem decode_encode {i : Instr} (h : i.wellFormed = true) : decode (encode i) = .instr i := by
  cases i with
  | cls | ret => rfl
  | jp nnn => simp [encode, decode_of_op1]
  | call nnn => simp [encode, decode_of_op2]
  | seImm x nn => simp [encode, decode_of_op3]
  | sneImm x nn => simp [encode, decode_of_op4]
  | seReg x y => simp [encode, decode_of_op5, decodeFamily5_of_n_zero]
  | ldImm x nn => simp [encode, decode_of_op6]
  | addImm x nn => simp [encode, decode_of_op7]
  | ldReg x y => simp [encode, decode_ldReg]
  | orReg x y => simp [encode, decode_orReg]
  | andReg x y => simp [encode, decode_andReg]
  | xorReg x y => simp [encode, decode_xorReg]
  | addReg x y => simp [encode, decode_addReg]
  | subReg x y => simp [encode, decode_subReg]
  | shr x y => simp [encode, decode_shr]
  | subnReg x y => simp [encode, decode_subnReg]
  | shl x y => simp [encode, decode_shl]
  | sneReg x y => simp [encode, decode_of_op9, decodeFamily9_of_n_zero]
  | ldI nnn => simp [encode, decode_of_opA]
  | jpV0 nnn => simp [encode, decode_of_opB]
  | rnd x nn => simp [encode, decode_of_opC]
  | drw x y rows =>
    rw [encode, decode_of_opD (fieldOp_formXYN ..), fieldX_formXYN, fieldY_formXYN, fieldN_formXYN,
      ofNat_rowCount_toNat h]
  | skp x => simp [encode, decode_skp]
  | sknp x => simp [encode, decode_sknp]
  | ldVxDt x => simp [encode, decode_ldVxDt]
  | ldVxK x => simp [encode, decode_ldVxK]
  | ldDtVx x => simp [encode, decode_ldDtVx]
  | ldStVx x => simp [encode, decode_ldStVx]
  | addI x => simp [encode, decode_addI]
  | ldF x => simp [encode, decode_ldF]
  | ldB x => simp [encode, decode_ldB]
  | storeRegs x => simp [encode, decode_storeRegs]
  | loadRegs x => simp [encode, decode_loadRegs]

/-- Settles O7: the decoder selects on fields that the encoder fixed, and reads back the rest. -/
theorem decodeOfEncodeIsTheInstruction : Obligations.DecodeOfEncodeIsTheInstruction :=
  fun _ h => decode_encode h

/-! ### Encoding a decoded instruction -/

/-- A decoded row count is a 4-bit field. -/
theorem rows_lt_of_decode {w : Word} {x y : RegId} {rows : Nat}
    (h : decode w = .instr (.drw x y rows)) : rows < 16 := by
  have hop : fieldOp w = 0xD#4 := by
    rw [← encode_of_decode h]
    exact fieldOp_formXYN ..
  cases (decode_of_opD hop).symm.trans h
  exact (fieldN w).isLt

theorem wellFormed_of_decode {w : Word} {i : Instr} (h : decode w = .instr i) :
    i.wellFormed = true := by
  cases i
  case drw x y rows => exact decide_eq_true (rows_lt_of_decode h)
  all_goals rfl

/-- Settles O8: the encoding is `encode_of_decode`; only a row count could be too large. -/
theorem encodeOfDecodeIsTheWord : Obligations.EncodeOfDecodeIsTheWord :=
  fun _ _ h => ⟨encode_of_decode h, wellFormed_of_decode h⟩

/-! ### The words without an instruction (R80) -/

theorem decodeFamily0_unknown_iff (w : Word) :
    decodeFamily0 w = .unknown w ↔ w ≠ 0x00E0#16 ∧ w ≠ 0x00EE#16 := by
  by_cases hcls : w = 0x00E0#16
  · simp [decodeFamily0, hcls]
  · by_cases hret : w = 0x00EE#16
    · simp [decodeFamily0, hret]
    · simp [decodeFamily0, hcls, hret]

theorem decodeFamily5_unknown_iff (w : Word) : decodeFamily5 w = .unknown w ↔ fieldN w ≠ 0#4 := by
  by_cases hn : fieldN w = 0#4
  · simp [decodeFamily5_of_n_zero hn, hn]
  · simp [decodeFamily5_of_n_ne_zero hn, hn]

theorem decodeFamily9_unknown_iff (w : Word) : decodeFamily9 w = .unknown w ↔ fieldN w ≠ 0#4 := by
  by_cases hn : fieldN w = 0#4
  · simp [decodeFamily9_of_n_zero hn, hn]
  · simp [decodeFamily9_of_n_ne_zero hn, hn]

theorem decodeFamily8_unknown_iff (w : Word) :
    decodeFamily8 w = .unknown w ↔
      fieldN w ∈ [0x8#4, 0x9#4, 0xA#4, 0xB#4, 0xC#4, 0xD#4, 0xF#4] := by
  have h := (fieldN w).isLt
  unfold decodeFamily8
  simp only [List.mem_cons, List.not_mem_nil, or_false, ← BitVec.toNat_inj, BitVec.toNat_ofNat]
  split <;> simp_all
  omega

theorem decodeFamilyE_unknown_iff (w : Word) :
    decodeFamilyE w = .unknown w ↔ fieldNN w ∉ [0x9E#8, 0xA1#8] := by
  unfold decodeFamilyE
  simp only [List.mem_cons, List.not_mem_nil, or_false, ← BitVec.toNat_inj, BitVec.toNat_ofNat]
  split <;> simp_all

theorem decodeFamilyF_unknown_iff (w : Word) :
    decodeFamilyF w = .unknown w ↔
      fieldNN w ∉ [0x07#8, 0x0A#8, 0x15#8, 0x18#8, 0x1E#8, 0x29#8, 0x33#8, 0x55#8, 0x65#8] := by
  unfold decodeFamilyF
  simp only [List.mem_cons, List.not_mem_nil, or_false, ← BitVec.toNat_inj, BitVec.toNat_ofNat]
  split <;> simp_all

/-- Settles O10: by the family, as `encode_of_decode`; the families that are not in the table decode
every word. -/
theorem unknownWordsAreThoseOfTheTable : Obligations.UnknownWordsAreThoseOfTheTable := by
  intro w
  have hfamily (k : Nibble) (hop : (fieldOp w).toNat = k.toNat) : fieldOp w = k :=
    BitVec.eq_of_toNat_eq hop
  unfold decode
  split
  case h_1 hop => simp [hfamily 0x0#4 hop, decodeFamily0_unknown_iff]
  case h_6 hop => simp [hfamily 0x5#4 hop, decodeFamily5_unknown_iff]
  case h_9 hop => simp [hfamily 0x8#4 hop, decodeFamily8_unknown_iff]
  case h_10 hop => simp [hfamily 0x9#4 hop, decodeFamily9_unknown_iff]
  case h_15 hop => simp [hfamily 0xE#4 hop, decodeFamilyE_unknown_iff]
  case h_16 =>
    have hlt := (fieldOp w).isLt
    simp only [imp_false] at *
    simp [hfamily 0xF#4 (by simp; omega), decodeFamilyF_unknown_iff]
  all_goals next hop => simp [← BitVec.toNat_inj, hop]

/-- Settles O6: a computation for each of the eight words. -/
theorem writtenOutWordsDecode : Obligations.WrittenOutWordsDecode := by
  unfold Obligations.WrittenOutWordsDecode
  decide

end Sys2Proof

namespace Sys2Proof.Machine

/-! ### RND (41_alu R104) -/

theorem and_allOnes_byte (b : Byte) : b &&& 0xFF = b := BitVec.and_allOnes

/-- Settles O24: the byte is the one `State.randomByte` gives, and the queue loses its head. -/
theorem rndMasksTheRandomByte : Obligations.RndMasksTheRandomByte := by
  refine ⟨fun _ => decode_of_opC, fun x nn s => ⟨_, s.randomByte, rfl, fun b rest h => ?_,
    fun h => ?_, fun j _ => ?_, fun hnn => ?_, RegsExcept_setReg s x _,
    (setReg_frame s x _).trans (countDraw_frame _ _)⟩⟩
  · exact ⟨by rw [State.randomByte, h]; rfl, congrArg List.tail h⟩
  · exact congrArg List.tail h
  · rw [State.countDraw_reg, State.setReg_reg_self, BitVec.getLsbD_and]
  · rw [State.countDraw_reg, State.setReg_reg_self, hnn, and_allOnes_byte]

end Sys2Proof.Machine
end

section
/-! PROOFS. What an instruction can change (10_state R23, R37): one component of the state at a time,
from the table `partsChanged`; the registers it writes, and its flag (R22). -/

namespace Sys2Proof.Machine

/-! ### The parts -/

/-- An instruction changes its own parts and, by a fatal condition, the status. -/
theorem exec_frame {i : Instr} {s t : State} (h : exec i s = .next t) :
    Frame (.status :: partsChanged i) s t := by
  obtain ⟨k, e⟩ | ⟨t', e, hframe⟩ := exec_cases i s
  · obtain ⟨t', e', _, hframe⟩ := raise_haltedBy i k s
    cases (e.trans e').symm.trans h
    exact hframe.mono (by simp)
  · cases e.symm.trans h
    exact hframe.mono fun p hp => List.mem_cons_of_mem _ hp

theorem exec_same {i : Instr} {s t : State} {p : Part} (h : exec i s = .next t)
    (hp : p ∉ .status :: partsChanged i) : p.Same s t :=
  exec_frame h p hp

theorem exec_keys {i : Instr} {s t : State} (h : exec i s = .next t) : t.keys = s.keys :=
  exec_same (p := .keys) h (by cases i <;> simp [partsChanged])

theorem exec_history {i : Instr} {s t : State} (h : exec i s = .next t) : t.history = s.history :=
  exec_same (p := .history) h (by cases i <;> simp [partsChanged])

theorem exec_schedule {i : Instr} {s t : State} (h : exec i s = .next t) :
    t.schedule = s.schedule :=
  exec_same (p := .schedule) h (by cases i <;> simp [partsChanged])

/-- A component that comes out different is among the instruction's parts. -/
theorem mem_partsChanged_of_ne {i : Instr} {s t : State} {p : Part} (h : exec i s = .next t)
    (hp : p ≠ .status) (hne : ¬ p.Same s t) : p ∈ partsChanged i := by
  by_contra hnot
  exact hne (exec_same h (by simp [hp, hnot]))

/-- Settles O48: `exec_next` and `step_next`. -/
theorem everyInstructionAnswersANextState : Obligations.EveryInstructionAnswersANextState :=
  ⟨exec_next, step_next⟩

/-! ### Registers written (10_state R23, R22) -/

theorem raise_regsExcept {i : Instr} {k : FatalKind} {s t : State} (l : List RegId)
    (h : raise i k s = .next t) : RegsExcept l s t := by
  cases h
  exact fun _ _ => rfl

theorem execDrw_regsExcept {x y : RegId} {rows : Nat} {s t : State}
    (h : execDrw x y rows s = .next t) : RegsExcept [vF] s t := by
  obtain ⟨k, e⟩ | ⟨d, f, e⟩ := execDrw_cases x y rows s
  · exact raise_regsExcept _ (e.symm.trans h)
  · cases e.symm.trans h
    exact RegsExcept_setReg (s.setDisplay d) vF (flagByte f)

theorem execLdVxK_regsExcept {x : RegId} {s t : State} (h : execLdVxK x s = .next t) :
    RegsExcept [x] s t := by
  obtain ⟨_, e⟩ | ⟨k, _, e⟩ := execLdVxK_cases x s
  · cases e.symm.trans h
    exact fun _ _ => rfl
  · cases e.symm.trans h
    exact RegsExcept_setReg s x _

theorem mem_registersUpTo {x j : RegId} :
    j ∈ (List.finRange 16).filter (fun i => i ≤ x) ↔ j ≤ x := by
  simp

/-- The bytes read are x + 1, so a register past Vx has none. -/
theorem execLoadRegs_regsExcept {x : RegId} {s t : State} (h : execLoadRegs x s = .next t) :
    RegsExcept (regsWritten (.loadRegs x)) s t := by
  intro j hj
  have hlt : x < j := not_le.mp fun hle => hj (mem_registersUpTo.mpr hle)
  rcases Nat.lt_or_ge (s.index.toNat + x.val) 4096 with hin | hout
  · obtain ⟨bs, e, _, hkept⟩ := loadRegsWith_spec Policy.loadStoreIncrementsI hin
    cases e.symm.trans h
    exact hkept j hlt
  · obtain ⟨u, e, _, hframe⟩ := orRaise_error_haltedBy (.loadRegs x) s
      (fun bs => .next ((s.loadRegsFrom bs).advanceIndex Policy.loadStoreIncrementsI x))
      (readBlock_error s.mem (s.indexAddr 0) (x.val + 1) (Nat.succ_ne_zero _)
        (Nat.lt_succ_of_le hout))
    cases e.symm.trans h
    exact hframe .v (by simp) j

theorem exec_regsExcept {i : Instr} {s t : State} (h : exec i s = .next t) :
    RegsExcept (regsWritten i) s t := by
  cases i with
  | ldImm x nn | addImm x nn | ldReg x y | orReg x y | andReg x y | xorReg x y | rnd x nn
  | ldVxDt x =>
    cases h
    exact RegsExcept_setReg s x _
  | addReg x y | subReg x y | subnReg x y | shr x y | shl x y =>
    cases h
    exact RegsExcept_setReg_setFlag s x _ _
  | addI x =>
    cases h
    exact setIndexFlag_regsExcept _ _ _
  | drw x y rows => exact execDrw_regsExcept h
  | ldVxK x => exact execLdVxK_regsExcept h
  | loadRegs x => exact execLoadRegs_regsExcept h
  | cls | ret | jp nnn | call nnn | seImm x nn | sneImm x nn | seReg x y | sneReg x y | ldI nnn
  | jpV0 nnn | skp x | sknp x | ldDtVx x | ldStVx x | ldF x | ldB x | storeRegs x =>
    exact fun j _ => exec_same (p := .v) h (by simp [partsChanged]) j

theorem not_running_of_raise {i : Instr} {k : FatalKind} {s t : State}
    (h : raise i k s = .next t) : t.status ≠ .running := by
  cases h
  exact nofun

/-- A flag writer that does not halt ends with the write of its flag. -/
theorem exec_writesFlag {i : Instr} {s t : State} (hi : writesFlag i = true)
    (h : exec i s = .next t) (hrun : t.status = .running) : ∃ f, t.reg vF = flagByte f := by
  cases i with
  | addReg x y | subReg x y | shr x y | subnReg x y | shl x y =>
    cases h
    exact ⟨_, State.setFlag_reg_vF _ _⟩
  | addI x =>
    cases h
    dsimp only [Policy.noOverflowFlag]
    cases indexOverflow s.index (s.reg x) <;> exact ⟨_, State.setFlag_reg_vF _ _⟩
  | drw x y rows =>
    obtain ⟨k, e⟩ | ⟨d, f, e⟩ := execDrw_cases x y rows s
    · exact absurd hrun (not_running_of_raise (e.symm.trans h))
    · cases e.symm.trans h
      exact ⟨f, State.setFlag_reg_vF _ f⟩
  | _ => cases hi

/-- Settles O50: what each instruction writes, and the flag as the last write. -/
theorem registersWrittenByEveryInstruction : Obligations.RegistersWrittenByEveryInstruction := by
  refine ⟨fun _ _ _ h => exec_regsExcept h, fun i s t hi h hrun => ?_⟩
  obtain ⟨f, hf⟩ := exec_writesFlag hi h hrun
  exact (congrArg BitVec.toNat hf).trans_le (flagByte_le_one f)

/-! ### The writers of each component (10_state R37) -/

theorem regsWritten_ne_nil_of_v_ne {i : Instr} {s t : State} (h : exec i s = .next t)
    (hne : t.v ≠ s.v) : regsWritten i ≠ [] := by
  intro hnil
  refine hne (State.v_ext fun j => exec_regsExcept h j ?_)
  rw [hnil]
  exact List.not_mem_nil

theorem exec_mem_writers {i : Instr} {s t : State} (h : exec i s = .next t) (hne : t.mem ≠ s.mem) :
    (∃ x, i = .ldB x) ∨ ∃ x, i = .storeRegs x := by
  obtain hsame | ⟨hwriter, _⟩ := exec_memory_cases h
  · exact absurd hsame hne
  · exact hwriter

/-- Only an instruction that can raise a condition of 60_exceptions R124 changes the status. -/
theorem exec_status_writers {i : Instr} {s t : State} (h : exec i s = .next t)
    (hne : t.status ≠ s.status) :
    i = .ret ∨ (∃ nnn, i = .call nnn) ∨ (∃ x y n, i = .drw x y n) ∨ (∃ x, i = .skp x) ∨
      (∃ x, i = .sknp x) ∨ (∃ x, i = .ldB x) ∨ (∃ x, i = .storeRegs x) ∨ ∃ x, i = .loadRegs x := by
  cases i with
  | ret | call nnn | drw x y n | skp x | sknp x | ldB x | storeRegs x | loadRegs x => simp
  | seImm x nn | sneImm x nn | seReg x y | sneReg x y =>
    cases h
    exact absurd (skipIf_frame _ s .status (by simp)) hne
  | addI x =>
    cases h
    exact absurd (setIndexFlag_frame _ _ _ .status (by simp)) hne
  | ldVxK x =>
    obtain ⟨_, e⟩ | ⟨_, _, e⟩ := execLdVxK_cases x s <;>
    · cases e.symm.trans h
      exact absurd rfl hne
  | cls | jp nnn | jpV0 nnn | ldI nnn | ldImm x nn | addImm x nn | rnd x nn | ldReg x y | orReg x y
  | andReg x y | xorReg x y | addReg x y | subReg x y | shr x y | subnReg x y | shl x y | ldVxDt x
  | ldDtVx x | ldStVx x | ldF x =>
    cases h
    exact absurd rfl hne

theorem execLdVxK_randomIn {x : RegId} {s t : State} (h : execLdVxK x s = .next t) :
    t.randomIn = s.randomIn := by
  obtain ⟨_, e⟩ | ⟨_, _, e⟩ := execLdVxK_cases x s <;>
  · cases e.symm.trans h
    rfl

theorem random_writers {i : Instr} (h : Part.random ∈ partsChanged i) :
    (∃ x nn, i = .rnd x nn) ∨ ∃ x, i = .ldVxK x := by
  cases i <;> simp_all [partsChanged]

theorem exec_randomIn_writers {i : Instr} {s t : State} (h : exec i s = .next t)
    (hne : t.randomIn ≠ s.randomIn) : ∃ x nn, i = .rnd x nn := by
  obtain hrnd | ⟨x, rfl⟩ :=
    random_writers (mem_partsChanged_of_ne h (by simp) fun hsame => hne hsame.1)
  · exact hrnd
  · exact absurd (execLdVxK_randomIn h) hne

/-- Settles O52: most components are a part of their own, whose writers the table `partsChanged` lists;
the registers, the status, memory as a list and the queue of random bytes have the lemmas above. -/
theorem eachComponentHasItsWriters : Obligations.EachComponentHasItsWriters := by
  intro i s t h
  have hpart (p : Part) (hp : p ≠ .status) (hne : ¬ p.Same s t) : p ∈ partsChanged i :=
    mem_partsChanged_of_ne h hp hne
  refine ⟨regsWritten_ne_nil_of_v_ne h, ?_ ∘ hpart .pc nofun, exec_status_writers h,
    ?_ ∘ hpart .display nofun, ?_ ∘ hpart .index nofun, ?_ ∘ hpart .stack nofun,
    ?_ ∘ hpart .delay nofun, ?_ ∘ hpart .sound nofun, exec_mem_writers h, exec_randomIn_writers h,
    fun hne => random_writers (hpart .random nofun fun hsame => hne hsame.2), exec_keys h,
    exec_history h, exec_schedule h⟩
  all_goals cases i <;> simp [partsChanged]

end Sys2Proof.Machine
end

section
/-! PROOFS. The registers an instruction reads (10_state R23, column "reads"): two runs, from states that
differ only in registers it does not read, one building block of the meanings at a time. -/

namespace Sys2Proof.Machine

/-! ### Outcomes that differ in registers only -/

/-- `o` and `o'` are next states of runs from `s` and from `s` with the registers `regs`: the same but for
the registers, each of which comes out the same or is written in neither. -/
def SameButUnread (s : State) (regs : Vector Byte 16) (o o' : Result) : Prop :=
  ∃ t regs', o = .next t ∧ o' = .next (t.setRegs regs') ∧
    ∀ r : RegId, (t.setRegs regs').reg r = t.reg r ∨
      (t.reg r = s.reg r ∧ (t.setRegs regs').reg r = (s.setRegs regs).reg r)

section
variable {s t t' : State} {regs : Vector Byte 16}

/-- No register is written. -/
theorem SameButUnread.kept (h : t.v = s.v) :
    SameButUnread s regs (.next t) (.next (t.setRegs regs)) :=
  ⟨t, regs, rfl, rfl, fun r => .inr ⟨congrArg (·[r]) h, rfl⟩⟩

/-- One byte is written to Vx in both runs. -/
theorem SameButUnread.setReg (h : SameButUnread s regs (.next t) (.next t')) (x : RegId)
    (b : Byte) :
    SameButUnread s regs (.next (t.setReg x b)) (.next (t'.setReg x b)) := by
  obtain ⟨u, regs', ⟨⟩, ⟨⟩, hregs⟩ := h
  refine ⟨_, regs'.set x b, rfl, rfl, fun r => ?_⟩
  rw [show (t.setReg x b).setRegs (regs'.set x b) = (t.setRegs regs').setReg x b from rfl,
    State.setReg_reg, State.setReg_reg]
  by_cases hr : r = x
  · exact .inl (by rw [if_pos hr, if_pos hr])
  · rw [if_neg hr, if_neg hr]
    exact hregs r

/-- One flag is written in both runs. -/
theorem SameButUnread.setFlag (h : SameButUnread s regs (.next t) (.next t')) (f : Bool) :
    SameButUnread s regs (.next (t.setFlag f)) (.next (t'.setFlag f)) :=
  h.setReg vF (flagByte f)

theorem SameButUnread.skipIf (c : Bool) :
    SameButUnread s regs (.next (skipIf c s)) (.next (skipIf c (s.setRegs regs))) := by
  cases c
  · exact .kept (t := s) rfl
  · exact .kept (t := s.setPc (s.pc + 2)) rfl

/-- One list of bytes is loaded in both runs: a register past its end is written in neither. -/
theorem SameButUnread.loadRegsFrom (bs : List Byte) :
    SameButUnread s regs (.next (s.loadRegsFrom bs))
      (.next ((s.setRegs regs).loadRegsFrom bs)) := by
  refine ⟨_, ((s.setRegs regs).loadRegsFrom bs).v, rfl, rfl, fun r => ?_⟩
  rw [show (s.loadRegsFrom bs).setRegs ((s.setRegs regs).loadRegsFrom bs).v =
    (s.setRegs regs).loadRegsFrom bs from rfl, State.loadRegsFrom_reg, State.loadRegsFrom_reg]
  rcases Nat.lt_or_ge r.val bs.length with hin | hout
  · exact .inl (by rw [List.getD_eq_getElem _ _ hin, List.getD_eq_getElem _ _ hin])
  · exact .inr ⟨List.getD_eq_default _ _ hout, List.getD_eq_default _ _ hout⟩

/-- One operation is answered in both runs; a condition it raises leaves the registers. -/
theorem SameButUnread.orRaise {α : Type} {i : Instr} (r : Except FatalKind α) {f f' : α → Result}
    (h : ∀ a, SameButUnread s regs (f a) (f' a)) :
    SameButUnread s regs (orRaise i s r f) (orRaise i (s.setRegs regs) r f') := by
  cases r with
  | error k => exact .kept (t := s.halt k (some (encode i)) s.fetchAddress) rfl
  | ok a => exact h a

end

/-! ### The meanings -/

theorem setIndexFlag_clear (s : State) (f : Bool) : s.setIndexFlag .clear f = s.setFlag f := by
  cases f <;> rfl

theorem regsUpTo_setRegs {s : State} {regs : Vector Byte 16} {x : RegId}
    (h : ∀ r ≤ x, (s.setRegs regs).reg r = s.reg r) :
    (s.setRegs regs).regsUpTo x = s.regsUpTo x := by
  refine List.ext_getElem (by rw [regsUpTo_length, regsUpTo_length]) fun j hj _ => ?_
  have hle : j ≤ x.val := Nat.le_of_lt_succ (by rwa [regsUpTo_length] at hj)
  have hreg := h ⟨j, by omega⟩ hle
  simpa [State.regsUpTo, State.reg] using hreg

theorem execLdVxK_sameButUnread (x : RegId) (s : State) (regs : Vector Byte 16) :
    SameButUnread s regs (execLdVxK x s) (execLdVxK x (s.setRegs regs)) := by
  unfold execLdVxK
  rw [show (s.setRegs regs).pressedKeys = s.pressedKeys from rfl]
  cases s.pressedKeys with
  | nil => exact .kept (t := s.setPc (s.pc - 2)) rfl
  | cons k ks => exact .setReg (.kept (t := s.countDraw s.randomIn) rfl) x _

/-- The operands that are registers are the same by `hreads`; then each meaning is built of the blocks
above. -/
theorem exec_sameButUnread {i : Instr} {s : State} {regs : Vector Byte 16}
    (hreads : ∀ r ∈ regsRead i, (s.setRegs regs).reg r = s.reg r) :
    SameButUnread s regs (exec i s) (exec i (s.setRegs regs)) := by
  cases i with
  | cls => exact .kept (t := s.setDisplay _) rfl
  | ret => exact .orRaise (pop s.stack) fun a => .kept (t := (s.setStack a.2).setPc a.1) rfl
  | jp nnn => exact .kept (t := s.setPc _) rfl
  | call nnn =>
    exact .orRaise (push Policy.stackDepth s.pc s.stack) fun st =>
      .kept (t := (s.setStack st).setPc _) rfl
  | seImm x nn | sneImm x nn =>
    simp only [exec, execSeImm, execSneImm, hreads x (by simp [regsRead])]
    exact .skipIf _
  | seReg x y | sneReg x y =>
    simp only [exec, execSeReg, execSneReg, hreads x (by simp [regsRead]),
      hreads y (by simp [regsRead])]
    exact .skipIf _
  | ldImm x nn => exact .setReg (.kept rfl) x nn
  | addImm x nn =>
    simp only [exec, execAddImm, hreads x (by simp [regsRead])]
    exact .setReg (.kept rfl) x _
  | ldReg x y =>
    simp only [exec, execLdReg, hreads y (by simp [regsRead])]
    exact .setReg (.kept rfl) x _
  | orReg x y | andReg x y | xorReg x y =>
    simp only [exec, execOrReg, execAndReg, execXorReg, hreads x (by simp [regsRead]),
      hreads y (by simp [regsRead])]
    exact .setReg (.kept rfl) x _
  | addReg x y | subReg x y | subnReg x y =>
    simp only [exec, execAddReg, execSubReg, execSubnReg, hreads x (by simp [regsRead]),
      hreads y (by simp [regsRead])]
    exact .setFlag (.setReg (.kept rfl) x _) _
  | shr x y | shl x y =>
    simp only [exec, execShr, execShl, shrWith, shlWith, shiftOperand, Policy.shiftSource,
      hreads x (by simp [regsRead])]
    exact .setFlag (.setReg (.kept rfl) x _) _
  | ldI nnn => exact .kept (t := s.setIndex _) rfl
  | jpV0 nnn =>
    simp only [exec, execJpV0, hreads 0 (by simp [regsRead])]
    exact .kept (t := s.setPc _) rfl
  | rnd x nn => exact .setReg (.kept (t := s.countDraw s.randomIn.tail) rfl) x _
  | drw x y rows =>
    simp only [exec, execDrw, hreads x (by simp [regsRead]), hreads y (by simp [regsRead])]
    exact .orRaise (readBlock s.mem (s.indexAddr 0) rows) fun _ =>
      .setFlag (.kept (t := s.setDisplay _) rfl) _
  | skp x =>
    simp only [exec, execSkp, hreads x (by simp [regsRead])]
    exact .orRaise _ fun k => .skipIf (s.key k)
  | sknp x =>
    simp only [exec, execSknp, hreads x (by simp [regsRead])]
    exact .orRaise _ fun k => .skipIf (!s.key k)
  | ldVxDt x => exact .setReg (.kept rfl) x s.delay
  | ldVxK x => exact execLdVxK_sameButUnread x s regs
  | ldDtVx x =>
    simp only [exec, execLdDtVx, hreads x (by simp [regsRead])]
    exact .kept (t := s.setDelay _) rfl
  | ldStVx x =>
    simp only [exec, execLdStVx, hreads x (by simp [regsRead])]
    exact .kept (t := s.setSound _) rfl
  | addI x =>
    simp only [exec, execAddI, addIWith, Policy.noOverflowFlag, setIndexFlag_clear,
      hreads x (by simp [regsRead])]
    exact .setFlag (.kept (t := s.setIndex _) rfl) _
  | ldF x =>
    simp only [exec, execLdF, hreads x (by simp [regsRead])]
    exact .kept (t := s.setIndex _) rfl
  | ldB x =>
    simp only [exec, execLdB, ldBWith, hreads x (by simp [regsRead])]
    exact .orRaise (writeBlock Policy.reservedWrite s.mem (s.indexAddr 0) _) fun m =>
      .kept (t := s.setMem m) rfl
  | storeRegs x =>
    simp only [exec, execStoreRegs, storeRegsWith,
      regsUpTo_setRegs fun r hr => hreads r (mem_registersUpTo.mpr hr)]
    exact .orRaise (writeBlock Policy.reservedWrite s.mem (s.indexAddr 0) _) fun m =>
      .kept (t := s.setMem m) rfl
  | loadRegs x =>
    exact .orRaise (readBlock s.mem (s.indexAddr 0) (x.val + 1)) fun bs => .loadRegsFrom bs

theorem setRegs_frame (s : State) (regs : Vector Byte 16) : Frame [.v] s (s.setRegs regs) := by
  intro p hp
  cases p <;> simp_all [Part.Same]

/-- Settles O51: the two runs differ in `setRegs` alone. -/
theorem instructionsReadOnlyTheirRegisters : Obligations.InstructionsReadOnlyTheirRegisters := by
  intro i s t regs hreads h
  obtain ⟨u, regs', e, e', hregs⟩ := exec_sameButUnread hreads
  cases e.symm.trans h
  exact ⟨_, e', setRegs_frame t regs', hregs⟩

end Sys2Proof.Machine
end

section
/-! PROOFS. The step: the moves it makes (60_exceptions R137, 70_reset R159), and what every step keeps: the
event history (R143), the reserved range (20_memory R51), the canonical form of memory and the bounds of
`pc`, `I` and the stack (10_state R26 to R28). -/

namespace Sys2Proof.Machine

/-! ### The move taken off the schedule -/

/-- A step of a running machine, its next move being no instruction step: what it leaves, memory as data
and every other part. -/
theorem step_other {s : State} (hrun : s.status = .running) (hm : nextMove s ≠ .instr) :
    ∃ t, step s = .next t ∧ t.mem = s.mem ∧
      Frame [.delay, .sound, .keys, .history, .schedule] s t := by
  obtain ⟨t, e, hmem, hframe⟩ := perform_other s.takeMove hm
  exact ⟨t, (step_running hrun).trans e, hmem, ((takeMove_frame s).trans hframe).mono (by simp)⟩

theorem step_instr {s : State} (hrun : s.status = .running) (hm : nextMove s = .instr) :
    step s = instrStep s.takeMove := by
  rw [step_running hrun, hm]
  rfl

/-- Everything a step can do: nothing from a halted state; a move of another agent; an instruction
step. -/
theorem step_cases {s t : State} (h : step s = .next t) :
    t = s ∨
      (nextMove s ≠ .instr ∧ s.status = .running ∧ t.mem = s.mem ∧
        Frame [.delay, .sound, .keys, .history, .schedule] s t) ∨
      (nextMove s = .instr ∧ s.status = .running ∧ instrStep s.takeMove = .next t) := by
  rcases status_cases s with hrun | ⟨f, hf⟩
  · by_cases hm : nextMove s = .instr
    · exact .inr (.inr ⟨hm, hrun, (step_instr hrun hm).symm.trans h⟩)
    · obtain ⟨t', e, hother⟩ := step_other hrun hm
      cases e.symm.trans h
      exact .inr (.inl ⟨hm, hrun, hother⟩)
  · cases (step_halted hf).symm.trans h
    exact .inl rfl

/-- Settles O3: the step is an instruction step from the state with the move taken, which fetches the
same word. -/
theorem stepExecutesTheDecodedInstruction : Obligations.StepExecutesTheDecodedInstruction := by
  rintro s i ⟨hrun, hm⟩ hpc hd
  have hfetch := fetch_of_lt (m := s.takeMove.mem) (a := s.takeMove.pc.toNat) hpc
  refine ⟨?_, rfl, takeMove_frame s⟩
  exact (step_instr hrun hm).trans ((instrStep_ok hfetch).trans (runWord_instr _ hd))

/-! ### The other agents (60_exceptions R137, R139, R148) -/

/-- An instruction step leaves the keypad as it is. -/
theorem instrStep_keys {s t : State} (h : instrStep s = .next t) : t.keys = s.keys := by
  obtain ⟨_, e⟩ | ⟨_, _, _, ⟨i, _, e⟩ | ⟨_, _, e⟩⟩ := instrStep_cases s
  · cases e.symm.trans h
    rfl
  · exact exec_keys (s := s.setPc (s.pc + 2)) (e.symm.trans h)
  · cases e.symm.trans h
    rfl

theorem perform_keys {m : Move} {s t : State} (h : perform m s = .next t) :
    t.keys = s.keys ∨ ∃ k, m = .keyDown k ∨ m = .keyUp k := by
  cases m with
  | instr => exact .inl (instrStep_keys h)
  | tick =>
    cases h
    exact .inl (tick_frame s .keys (by simp))
  | keyDown k => exact .inr ⟨k, .inl rfl⟩
  | keyUp k => exact .inr ⟨k, .inr rfl⟩
  | publish =>
    cases h
    exact .inl rfl

theorem step_keys {s t : State} (h : step s = .next t) :
    t.keys = s.keys ∨ ∃ k, nextMove s = .keyDown k ∨ nextMove s = .keyUp k := by
  rcases status_cases s with hrun | ⟨f, hf⟩
  · exact perform_keys (s := s.takeMove) ((step_running hrun).symm.trans h)
  · cases (step_halted hf).symm.trans h
    exact .inl rfl

/-- Settles O42: a step performs its next move, and only a key event is one that changes the keypad. -/
theorem otherAgentsTouchOnlyTheirOwn : Obligations.OtherAgentsTouchOnlyTheirOwn := by
  refine ⟨fun s hrun => ?_, fun s t hrun hm h => ?_, fun s t h hne =>
    (step_keys h).resolve_left hne⟩
  · have hstep {m : Move} (hm : nextMove s = m) : step s = perform m s.takeMove := by
      rw [step_running hrun, hm]
    exact ⟨hstep, fun _ => hstep, fun _ => hstep, hstep⟩
  · obtain ⟨t', e, _, hframe⟩ := step_other hrun hm
    cases e.symm.trans h
    exact hframe

/-! ### The event history (60_exceptions R143) -/

/-- The history of `s`, with at most one record appended. -/
def HistoryGrows (s t : State) : Prop := t.history = s.history ∨ ∃ e, t.history = s.history ++ [e]

theorem instrStep_historyGrows {s t : State} (h : instrStep s = .next t) : HistoryGrows s t := by
  obtain ⟨_, e⟩ | ⟨_, _, _, ⟨i, _, e⟩ | ⟨u, _, e⟩⟩ := instrStep_cases s
  · cases e.symm.trans h
    exact .inl rfl
  · exact .inl (exec_history (s := s.setPc (s.pc + 2)) (e.symm.trans h))
  · cases e.symm.trans h
    exact .inr ⟨_, rfl⟩

theorem tick_historyGrows (s : State) : HistoryGrows s (tick s) := by
  have h := tick_history s
  split at h
  · exact .inl h
  · exact .inr ⟨_, h⟩

theorem perform_historyGrows {m : Move} {s t : State} (h : perform m s = .next t) :
    HistoryGrows s t := by
  cases m with
  | instr => exact instrStep_historyGrows h
  | tick =>
    cases h
    exact tick_historyGrows s
  | keyDown k | keyUp k | publish =>
    cases h
    exact .inl rfl

/-- Settles O55: by the move a step makes; only a report and a beep are records. -/
theorem eventHistoryOnlyGrows : Obligations.EventHistoryOnlyGrows := by
  intro s t h
  rcases status_cases s with hrun | ⟨f, hf⟩
  · exact perform_historyGrows (s := s.takeMove) ((step_running hrun).symm.trans h)
  · cases (step_halted hf).symm.trans h
    exact .inl rfl

/-! ### The reserved range (20_memory R51) -/

theorem step_read_reserved {s t : State} (h : step s = .next t) {a : Nat} (ha : a < 0x200) :
    t.mem.read a = s.mem.read a := by
  obtain hsame | ⟨lo, b, bs, hwrite⟩ := step_memory_cases h
  · rw [hsame]
  · have hlo : 0x200 ≤ lo := writeBlock_start hwrite
    exact writeBlock_read_outside hwrite (by omega)

/-- Settles O47: no step writes below 0x200, so no run does. -/
theorem reservedRangeIsNeverModified : Obligations.ReservedRangeIsNeverModified :=
  fun k s t h a ha => run_induction (fun s t => t.mem.read a = s.mem.read a) (fun _ => rfl)
    (fun _ _ _ hstep hrest => hrest.trans (step_read_reserved hstep ha)) k s t h

/-! ### Halted machines (10_state R33) -/

theorem run_halted {s : State} {f : FaultRecord} (hf : s.status = .halted f) (k : Nat) :
    core.run k s = .next s := by
  induction k with
  | zero => exact run_zero s
  | succ k ih => exact (run_succ (step_halted hf)).trans ih

theorem runMoves_halted {s : State} {f : FaultRecord} (hf : s.status = .halted f) (l : List Move) :
    runMoves s l = s := by
  induction l with
  | nil => rfl
  | cons m l ih => rw [runMoves_cons, act_halted hf, ih]

/-- Settles O54: neither a step nor a move changes a halted state. -/
theorem haltedMachineNeverMovesAgain : Obligations.HaltedMachineNeverMovesAgain :=
  fun _ _ hf => ⟨run_halted hf, runMoves_halted hf⟩

/-! ### The canonical form of memory (20_memory R45) -/

theorem Memory.wfFrom_cons {lo k : Nat} {b : Byte} {rest : Memory} :
    Memory.wfFrom lo ((k, b) :: rest) = true ↔
      lo ≤ k ∧ k < Config.memSize ∧ b ≠ resetByte k ∧ Memory.wfFrom (k + 1) rest = true := by
  simp only [Memory.wfFrom, Bool.and_eq_true, decide_eq_true_eq, and_assoc]

/-- A listed address does not read as its reset contents, so memory that lists only higher ones reads
differently there. -/
theorem Memory.read_ne_of_listed_lt {lo lo' k : Nat} {b : Byte} {rest m : Memory}
    (h : Memory.wfFrom lo ((k, b) :: rest) = true) (hm : Memory.wfFrom lo' m = true)
    (hk : k < lo') : Memory.read ((k, b) :: rest) k ≠ m.read k := by
  obtain ⟨_, _, hb, _⟩ := Memory.wfFrom_cons.mp h
  rw [Memory.read_of_lt hm hk]
  simpa [Memory.read] using hb

/-- Past its first listed address memory reads as its rest; at that address the rest reads as reset. -/
theorem Memory.rest_read_eq {lo lo' k : Nat} {b b' : Byte} {rest rest' : Memory}
    (h : Memory.wfFrom lo ((k, b) :: rest) = true)
    (h' : Memory.wfFrom lo' ((k, b') :: rest') = true)
    (hread : ∀ a, Memory.read ((k, b) :: rest) a = Memory.read ((k, b') :: rest') a) (a : Nat) :
    rest.read a = rest'.read a := by
  obtain ⟨_, _, _, hrest⟩ := Memory.wfFrom_cons.mp h
  obtain ⟨_, _, _, hrest'⟩ := Memory.wfFrom_cons.mp h'
  by_cases ha : k = a
  · subst ha
    rw [Memory.read_of_lt hrest (Nat.lt_succ_self k), Memory.read_of_lt hrest' (Nat.lt_succ_self k)]
  · simpa [Memory.read, ha] using hread a

/-- By induction on both lists: the first addresses are the same, for neither list can be without the
other's; so the first bytes are the same, and the rests read the same. -/
theorem Memory.eq_of_read_eq {m m' : Memory} {lo lo' : Nat} (hm : Memory.wfFrom lo m = true)
    (hm' : Memory.wfFrom lo' m' = true) (h : ∀ a, m.read a = m'.read a) : m = m' := by
  induction m generalizing m' lo lo' with
  | nil =>
    match m' with
    | [] => rfl
    | (k', b') :: rest' =>
      exact absurd (h k').symm
        (Memory.read_ne_of_listed_lt (m := []) (lo' := k' + 1) hm' rfl (Nat.lt_succ_self k'))
  | cons c rest ih =>
    obtain ⟨k, b⟩ := c
    match m' with
    | [] =>
      exact absurd (h k)
        (Memory.read_ne_of_listed_lt (m := []) (lo' := k + 1) hm rfl (Nat.lt_succ_self k))
    | (k', b') :: rest' =>
      obtain ⟨_, hk, hb, hrest⟩ := Memory.wfFrom_cons.mp hm
      obtain ⟨_, hk', hb', hrest'⟩ := Memory.wfFrom_cons.mp hm'
      obtain hlt | rfl | hlt := Nat.lt_trichotomy k k'
      · exact absurd (h k) (Memory.read_ne_of_listed_lt hm
          (Memory.wfFrom_cons.mpr ⟨Nat.le_refl k', hk', hb', hrest'⟩) hlt)
      · have hbyte : b = b' := by simpa [Memory.read] using h k
        rw [hbyte, ih hrest hrest' (Memory.rest_read_eq hm hm' h)]
      · exact absurd (h k').symm (Memory.read_ne_of_listed_lt hm'
          (Memory.wfFrom_cons.mpr ⟨Nat.le_refl k, hk, hb, hrest⟩) hlt)

/-- Settles O46: the canonical form is a list of rising addresses, compared pair by pair. -/
theorem canonicalMemoriesAreEqualWhenTheyReadTheSame :
    Obligations.CanonicalMemoriesAreEqualWhenTheyReadTheSame :=
  fun _ _ hm hm' h => Memory.eq_of_read_eq hm hm' h

/-! ### The invariant (10_state R26 to R28): an instruction, `pc` being a + 2 -/

theorem exec_wf {i : Instr} {s t : State} (h : exec i s = .next t) (hm : s.mem.wf = true) :
    t.mem.wf = true := by
  obtain hsame | ⟨_, b, bs, hwrite⟩ := exec_memory_cases h
  · rwa [hsame]
  · exact writeBlock_wf hwrite hm

theorem toNat_addr12_le (nnn : Addr12) : (nnn.setWidth 16 : Word).toNat ≤ 0xFFF := by
  rw [toNat_setWidth_addr12]
  exact Nat.le_of_lt_succ nnn.isLt

theorem exec_index_le {i : Instr} {s t : State} (h : exec i s = .next t)
    (hs : s.index.toNat ≤ 0xFFF) : t.index.toNat ≤ 0xFFF := by
  by_cases hi : Part.index ∈ partsChanged i
  · cases i with
    | ldI nnn =>
      cases h
      exact toNat_addr12_le nnn
    | ldF x =>
      cases h
      have hglyph := glyphAddress_toNat (s.reg x)
      rw [State.setIndex_index]
      omega
    | addI x =>
      obtain ⟨t', e, hindex, _⟩ := addIWith_spec Policy.noOverflowFlag x s
      cases e.symm.trans h
      omega
    | _ => simp [partsChanged] at hi
  · have hsame : t.index = s.index := exec_same (p := .index) h (by simp [hi])
    rwa [hsame]

/-- What an instruction does to the stack: nothing, a pop, or a push of a + 2 on one not full. -/
theorem exec_stack_cases {i : Instr} {s t : State} (h : exec i s = .next t) :
    t.stack = s.stack ∨ (∃ a, s.stack = t.stack ++ [a]) ∨
      (s.stack.length < 16 ∧ t.stack = s.stack ++ [s.pc]) := by
  by_cases hi : Part.stack ∈ partsChanged i
  · cases i with
    | ret =>
      obtain e | ⟨rest, a, hstack, e⟩ := execRet_cases s
      · cases e.symm.trans h
        exact .inl rfl
      · cases e.symm.trans h
        exact .inr (.inl ⟨a, hstack⟩)
    | call nnn =>
      obtain ⟨_, e⟩ | ⟨hroom, e⟩ := callWith_cases Policy.stackDepth nnn s
      · cases e.symm.trans h
        exact .inl rfl
      · cases e.symm.trans h
        exact .inr (.inr ⟨hroom, rfl⟩)
    | _ => simp [partsChanged] at hi
  · exact .inl (exec_same (p := .stack) h (by simp [hi]))

theorem exec_stack_inv {i : Instr} {s t : State} (h : exec i s = .next t)
    (hpc : s.pc.toNat ≤ 0x1000) (hdepth : s.stack.length ≤ 16)
    (hentries : ∀ a ∈ s.stack, a.toNat ≤ 0x1000) :
    t.stack.length ≤ 16 ∧ ∀ a ∈ t.stack, a.toNat ≤ 0x1000 := by
  obtain e | ⟨b, e⟩ | ⟨hroom, e⟩ := exec_stack_cases h
  · rw [e]
    exact ⟨hdepth, hentries⟩
  · rw [e, List.length_append] at hdepth
    exact ⟨by omega, fun a ha => hentries a (e ▸ List.mem_append_left [b] ha)⟩
  · rw [e]
    refine ⟨by simpa using hroom, fun a ha => ?_⟩
    obtain ha | ha := List.mem_append.mp ha
    · exact hentries a ha
    · rw [List.mem_singleton.mp ha]
      exact hpc

theorem pcAfterSkip_le {c : Prop} {s : State} {a : Word} (h : PcAfterSkip c s a)
    (hpc : s.pc.toNat ≤ 0x1000) : a.toNat ≤ 0x10FE := by
  obtain ⟨_, rfl⟩ | ⟨_, rfl⟩ := h <;> bv_omega

/-- The bound is that of Bnnn; every other target is at most 0x1002. -/
theorem pcAfter_le {i : Instr} {s : State} {a : Word} (h : PcAfter i s a) (hlo : 2 ≤ s.pc.toNat)
    (hhi : s.pc.toNat ≤ 0x1000) (hentries : ∀ b ∈ s.stack, b.toNat ≤ 0x1000) :
    a.toNat ≤ 0x10FE := by
  cases i with
  | seImm x nn | sneImm x nn | seReg x y | sneReg x y | skp x | sknp x => exact pcAfterSkip_le h hhi
  | jp nnn =>
    have hnnn := nnn.isLt
    have ha : a.toNat = nnn.toNat := h
    omega
  | jpV0 nnn =>
    have hnnn := nnn.isLt
    have hv0 := (s.reg 0).isLt
    have ha : a.toNat = nnn.toNat + (s.reg 0).toNat := h
    omega
  | call nnn =>
    have hnnn := nnn.isLt
    obtain ⟨_, ha⟩ | ⟨_, ha⟩ := h
    · omega
    · rw [ha]; omega
  | ret =>
    obtain ⟨rest, hstack⟩ | ⟨_, ha⟩ := h
    · have hlast := hentries a (by simp [hstack])
      omega
    · rw [ha]; omega
  | ldVxK x =>
    obtain ⟨_, rfl⟩ | ⟨_, rfl⟩ := h <;> bv_omega
  | cls | ldImm x nn | addImm x nn | ldReg x y | orReg x y | andReg x y | xorReg x y | addReg x y
  | subReg x y | shr x y | subnReg x y | shl x y | ldI nnn | rnd x nn | drw x y rows | ldVxDt x
  | ldDtVx x | ldStVx x | addI x | ldF x | ldB x | storeRegs x | loadRegs x =>
    have ha : a = s.pc := h
    rw [ha]; omega

theorem exec_inv {i : Instr} {s t : State} (h : exec i s = .next t) (hs : s.Inv)
    (hlo : 2 ≤ s.pc.toNat) (hhi : s.pc.toNat ≤ 0x1000) : t.Inv := by
  obtain ⟨hdepth, hentries⟩ := exec_stack_inv h hhi hs.depth hs.entries
  exact ⟨exec_wf h hs.memory, exec_index_le h hs.index, hdepth, hentries,
    pcAfter_le (exec_pcAfter h) hlo hhi hs.entries⟩

/-! ### The invariant: every step -/

/-- A move that leaves what the invariant speaks of keeps it. -/
theorem State.Inv.of_frame {changed : List Part} {s t : State} (hs : s.Inv) (hmem : t.mem = s.mem)
    (h : Frame changed s t) (hc : ∀ p ∈ [Part.pc, .index, .stack], p ∉ changed) : t.Inv := by
  have hpc : t.pc = s.pc := h .pc (hc _ (by simp))
  have hindex : t.index = s.index := h .index (hc _ (by simp))
  have hstack : t.stack = s.stack := h .stack (hc _ (by simp))
  exact ⟨hmem ▸ hs.memory, hindex ▸ hs.index, hstack ▸ hs.depth, hstack ▸ hs.entries,
    hpc ▸ hs.pc⟩

theorem State.Inv.takeMove {s : State} (hs : s.Inv) : s.takeMove.Inv :=
  hs.of_frame rfl (takeMove_frame s) (by simp)

theorem State.Inv.setPc {s : State} (hs : s.Inv) {a : Word} (ha : a.toNat ≤ 0x10FE) :
    (s.setPc a).Inv :=
  ⟨hs.memory, hs.index, hs.depth, hs.entries, ha⟩

/-- A fetch succeeds only at a ≤ 0xFFE, so an instruction runs with 2 ≤ `pc` ≤ 0x1000. -/
theorem instrStep_inv {s t : State} (h : instrStep s = .next t) (hs : s.Inv) : t.Inv := by
  obtain ⟨_, e⟩ | ⟨hpc, _, _, hcases⟩ := instrStep_cases s
  · cases e.symm.trans h
    exact hs.of_frame rfl (halt_frame s _ _ _) (by simp)
  · have hnext : (s.pc + 2).toNat = s.pc.toNat + 2 := by bv_omega
    have hs' : (s.setPc (s.pc + 2)).Inv := hs.setPc (by omega)
    obtain ⟨i, _, e⟩ | ⟨u, _, e⟩ := hcases
    · exact exec_inv (e.symm.trans h) hs' (by rw [State.setPc_pc]; omega)
        (by rw [State.setPc_pc]; omega)
    · cases e.symm.trans h
      exact hs'.of_frame rfl (emit_frame _ _) (by simp)

/-- Settles O56: an instruction step keeps the invariant, and the other moves leave all it speaks of. -/
theorem stepKeepsTheInvariant : Obligations.StepKeepsTheInvariant := by
  intro s t hs h
  obtain rfl | ⟨_, _, hmem, hframe⟩ | ⟨_, _, e⟩ := step_cases h
  · exact hs
  · exact hs.of_frame hmem hframe (by simp)
  · exact instrStep_inv e hs.takeMove

/-! ### Reset and launch (70_reset R151, R156) -/

/-- Settles O2: memory and the stack list nothing at reset. -/
theorem resetMeetsTheInvariant : Obligations.ResetMeetsTheInvariant :=
  ⟨rfl, Nat.zero_le _, Nat.zero_le _, by simp [State.reset], by decide⟩

theorem launch_of_le {bytes : List Byte} (h : bytes.length ≤ 3584) :
    launch bytes = .ok (State.reset.setMem (storeBytes [] 0x200 bytes)) :=
  load_of_le State.reset h

/-- Settles O44: the launch state is the reset state with the bytes stored from 0x200 on; an address
they do not fill reads as at reset, which past the font is 0. -/
theorem launchIsResetThenLoad : Obligations.LaunchIsResetThenLoad := by
  refine ⟨fun bytes => load_of_gt State.reset, fun bytes hlen => ?_⟩
  have hfits : 0x200 + bytes.length ≤ Config.memSize := Nat.add_le_add_left hlen 0x200
  have houtside {a : Nat} (ha : ¬ (0x200 ≤ a ∧ a < 0x200 + bytes.length)) :
      (storeBytes [] 0x200 bytes).read a = resetByte a := storeBytes_read_outside [] 0x200 bytes ha
  obtain ⟨_, hindex, hdepth, hentries, hpc⟩ := resetMeetsTheInvariant
  refine ⟨_, launch_of_le hlen,
    ⟨storeBytes_wf (m := []) rfl hfits, hindex, hdepth, hentries, hpc⟩, rfl, rfl,
    fun i hi => storeBytes_read_inside (m := []) rfl hfits hi, fun a hlo _ => ?_, fun a ha => ?_,
    setMem_frame State.reset _⟩
  · exact (houtside (by omega)).trans (resetByte_past_font (by omega))
  · exact houtside (by omega)

end Sys2Proof.Machine
end

section
/-! PROOFS. What Fx55 stores is fetched (20_memory R61); DRW, from the loops of the drawing laws to the
pixels a sprite in memory covers, and two draws in a row (43_display R115). -/

namespace Sys2Proof.Machine

/-! ### Fx55, then a fetch (20_memory R61) -/

/-- Settles O31: memory holds Vj and Vj+1 at two neighbouring addresses, and a fetch joins them. -/
theorem storedBytesAreFetched : Obligations.StoredBytesAreFetched := by
  intro x j k s hm hlo hhi hk hkj
  obtain ⟨m, e, hread, _⟩ :=
    storeRegsWith_spec (p := Policy.reservedWrite) Policy.loadStoreIncrementsI hm (.inr hlo) hhi
  have hkx : k.val ≤ x.val := hk
  have hj : m.read (s.indexAddr j.val) = s.reg j := hread j (Fin.le_def.mpr (by omega))
  have hnext : m.read (s.indexAddr j.val + 1) = s.reg k := by
    rw [← hread k hk, hkj]
    rfl
  refine ⟨s.setMem m, e, ?_⟩
  rw [State.setMem_mem, fetch_of_lt (by simp only [State.indexAddr]; omega), hj, hnext]

/-! ### The pixels a sprite covers (43_display R115) -/

/-- A 1 bit of one sprite byte falls on column `c'`, as a bit number. -/
theorem columnOn_iff {x0 : Nat} {b : Byte} {c' : Nat} :
    ColumnOn x0 b [0, 1, 2, 3, 4, 5, 6, 7] c' ↔
      ∃ j, j < 8 ∧ x0 + j = c' ∧ b.getLsbD (7 - j) = true := by
  have hmem (j : Nat) : j ∈ [0, 1, 2, 3, 4, 5, 6, 7] ↔ j < 8 := List.mem_range (n := 8)
  simp only [ColumnOn, hmem, spriteBit]

/-- The sprite that DRW reads from memory. -/
theorem spriteOn_iff_covers {m : Memory} {a n x0 y0 : Nat} {r : Fin 32} {c : Fin 64} :
    SpriteOn x0 y0 ((List.range n).map fun k => m.read (a + k)) r c ↔
      SpriteCovers m a n x0 y0 r c := by
  simp only [SpriteOn, columnOn_iff, SpriteCovers]
  constructor
  · rintro ⟨k, hk, hrow, j, hj, hcol, hbit⟩
    exact ⟨k, j, by simpa using hk, hj, hrow, hcol, by simpa using hbit⟩
  · rintro ⟨k, j, hk, hj, hrow, hcol, hbit⟩
    exact ⟨k, by simpa using hk, hrow, j, hj, hcol, by simpa using hbit⟩

/-- The pixels the sprite of Dxyn covers in the state `s`. -/
def DrwCovers (x y : RegId) (n : Nat) (s : State) : Fin 32 → Fin 64 → Prop :=
  SpriteCovers s.mem s.index.toNat n ((s.reg x).toNat % 64) ((s.reg y).toNat % 32)

/-- What drawing the sprite read from memory leaves: the display and the collision flag. -/
def drwResult (x y : RegId) (n : Nat) (s : State) : Display × Bool :=
  drawRows (originColumn (s.reg x)) (originRow (s.reg y))
    ((List.range n).map fun k => s.mem.read (s.indexAddr 0 + k)) (s.display, false)

theorem execDrw_of_inside (x y : RegId) {n : Nat} {s : State}
    (h : n = 0 ∨ s.index.toNat + n ≤ 4096) :
    execDrw x y n s =
      .next ((s.setDisplay (drwResult x y n s).1).setFlag (drwResult x y n s).2) := by
  rw [execDrw, readBlock_ok s.mem (s.indexAddr 0) n h]
  rfl

theorem drwResult_pixel (x y : RegId) (n : Nat) (s : State) (r : Fin 32) (c : Fin 64) :
    (drwResult x y n s).1.pixel r c = true ↔
      (s.display.pixel r c = true ↔ ¬ DrwCovers x y n s r c) := by
  rw [drwResult, drawRows_pixel, spriteOn_iff_covers]
  rfl

theorem drwResult_pixel_of_covers {x y : RegId} {n : Nat} {s : State} {r : Fin 32} {c : Fin 64}
    (h : DrwCovers x y n s r c) :
    (drwResult x y n s).1.pixel r c = !s.display.pixel r c := by
  rw [Bool.eq_iff_iff, drwResult_pixel]
  simp [h]

theorem drwResult_pixel_of_not_covers {x y : RegId} {n : Nat} {s : State} {r : Fin 32} {c : Fin 64}
    (h : ¬ DrwCovers x y n s r c) : (drwResult x y n s).1.pixel r c = s.display.pixel r c := by
  rw [Bool.eq_iff_iff, drwResult_pixel]
  simp [h]

theorem drwResult_flag (x y : RegId) (n : Nat) (s : State) :
    (drwResult x y n s).2 = true ↔
      ∃ r c, DrwCovers x y n s r c ∧ s.display.pixel r c = true := by
  rw [drwResult, drawRows_flag]
  simp only [Bool.false_eq_true, false_or, spriteOn_iff_covers]
  rfl

theorem flagByte_toNat_eq_one_iff {f : Bool} : (flagByte f).toNat = 1 ↔ f = true := by
  cases f <;> decide

theorem flagByte_toNat_eq_zero_iff {f : Bool} : (flagByte f).toNat = 0 ↔ ¬ f = true := by
  cases f <;> decide

/-- Dxyn with every sprite byte inside the address space: the pixels and VF. -/
theorem execDrw_spec (x y : RegId) {n : Nat} {s : State} (h : n = 0 ∨ s.index.toNat + n ≤ 4096) :
    ∃ t, execDrw x y n s = .next t ∧
      (∀ r c, DrwCovers x y n s r c → t.display.pixel r c = !s.display.pixel r c) ∧
      (∀ r c, ¬ DrwCovers x y n s r c → t.display.pixel r c = s.display.pixel r c) ∧
      t.reg 15 = flagByte (drwResult x y n s).2 ∧ RegsExcept [15] s t ∧ Frame [.v, .display] s t :=
  ⟨_, execDrw_of_inside x y h, fun _ _ => drwResult_pixel_of_covers,
    fun _ _ => drwResult_pixel_of_not_covers, State.setFlag_reg_vF _ _,
    RegsExcept_setReg (s.setDisplay _) vF _,
    ((setDisplay_frame s _).trans (setReg_frame _ vF _)).mono (by simp)⟩

/-- Settles O33: the loops flip what the sprite covers, and the block read of the sprite raises at the
first address past the end. -/
theorem drwFlipsTheSpritePixels : Obligations.DrwFlipsTheSpritePixels := by
  refine ⟨fun _ => decode_of_opD, fun x y n s h => ?_, fun x y n s hn h => ?_⟩
  · obtain ⟨t, e, hon, hoff, hflag, hregs, hframe⟩ := execDrw_spec x y h
    refine ⟨t, e, hon, hoff, fun hcol => ?_, fun hno => ?_, hregs, hframe⟩
    · rw [hflag, flagByte_toNat_eq_one_iff, drwResult_flag]
      exact hcol
    · rw [hflag, flagByte_toNat_eq_zero_iff, drwResult_flag]
      exact hno
  · exact orRaise_error_haltedBy _ s _ (readBlock_error s.mem (s.indexAddr 0) n hn h)

/-! ### Two draws in a row -/

/-- A draw with x and y other than VF leaves all that the pixels covered depend on. -/
theorem drwCovers_congr {x y : RegId} {n : Nat} {s t : State} (hx : t.reg x = s.reg x)
    (hy : t.reg y = s.reg y) (hframe : Frame [.v, .display] s t) (r : Fin 32) (c : Fin 64) :
    DrwCovers x y n t r c ↔ DrwCovers x y n s r c := by
  have hindex : t.index = s.index := hframe .index (by simp)
  have hread : ∀ a, t.mem.read a = s.mem.read a := hframe .memory (by simp)
  simp only [DrwCovers, SpriteCovers, hx, hy, hindex, hread]

/-- Settles O34: the second draw flips the same pixels back, so it meets a pixel that is on where the
first met one that was off. -/
theorem drawingTwiceRestoresTheDisplay : Obligations.DrawingTwiceRestoresTheDisplay := by
  intro x y n s hx hy h
  obtain ⟨t, e, hon, hoff, _, hregs, hframe⟩ := execDrw_spec x y h
  have hcovers := drwCovers_congr (n := n) (hregs x (by simpa using hx))
    (hregs y (by simpa using hy)) hframe
  have hindex : t.index = s.index := hframe .index (by simp)
  obtain ⟨u, e', hon', hoff', hflag', _⟩ := execDrw_spec x y (n := n) (s := t) (by rwa [hindex])
  refine ⟨t, u, e, e', Display.ext_pixel fun r c => ?_, ?_⟩
  · by_cases hc : DrwCovers x y n s r c
    · rw [hon' r c ((hcovers r c).mpr hc), hon r c hc, Bool.not_not]
    · rw [hoff' r c (mt (hcovers r c).mp hc), hoff r c hc]
  · rw [hflag', flagByte_toNat_eq_one_iff, drwResult_flag]
    refine exists_congr fun r => exists_congr fun c => ?_
    rw [hcovers]
    refine and_congr_right fun hc => ?_
    rw [hon r c hc, Bool.not_eq_true']

end Sys2Proof.Machine
end

section
/-! PROOFS. Runs along a schedule (70_reset R159): a run whose schedule is a list of moves, and an iteration
of the reference schedule. -/

namespace Sys2Proof.Machine

/-! ### The host's run along the schedule -/

/-- The step takes the first move of the schedule and does what the move does. -/
theorem step_setSchedule_cons {s : State} (hrun : s.status = .running) (m : Move) (l : List Move) :
    step (s.setSchedule (m :: l)) = .next ((act s m).setSchedule l) := by
  obtain ⟨t, e, e'⟩ := perform_setSchedule m s l
  rw [act_running hrun, e]
  exact (step_running (s := s.setSchedule (m :: l)) hrun).trans e'

theorem run_add {j : Nat} (k : Nat) {s t : State} (h : core.run j s = .next t) :
    core.run (j + k) s = core.run k t := by
  induction j generalizing s with
  | zero =>
    cases (run_zero s).symm.trans h
    rw [Nat.zero_add]
  | succ j ih =>
    obtain ⟨u, hu⟩ := step_next s
    rw [run_succ hu] at h
    rw [Nat.succ_add, run_succ hu, ih h]

/-- As many steps as there are moves give the state the moves give, the schedule apart: when the machine
halts midway, the moves left stay on the schedule. -/
theorem run_setSchedule (s : State) (l : List Move) :
    ∃ rest, core.run l.length (s.setSchedule l) = .next ((runMoves s l).setSchedule rest) := by
  induction l generalizing s with
  | nil => exact ⟨[], run_zero _⟩
  | cons m l ih =>
    rcases status_cases s with hrun | ⟨f, hf⟩
    · rw [List.length_cons, run_succ (step_setSchedule_cons hrun m l), runMoves_cons]
      exact ih (act s m)
    · exact ⟨m :: l, by rw [run_halted (s := s.setSchedule (m :: l)) hf, runMoves_halted hf]⟩

/-- Settles O57: `run_setSchedule` from the state with an empty schedule. -/
theorem everyFreeScheduleIsARun : Obligations.EveryFreeScheduleIsARun := by
  intro s l
  obtain ⟨rest, e⟩ := run_setSchedule (s.setSchedule []) l
  exact ⟨_, e, rfl⟩

/-! ### An iteration of the reference schedule -/

theorem act_keyEvent_frame {s : State} (hrun : s.status = .running) (e : KeyEvent) :
    Frame [.keys] s (act s e.move) := by
  obtain ⟨t, ht, hframe⟩ := perform_keyEvent e s
  rw [act_running hrun, ht]
  exact hframe

theorem runMoves_keyEvents_frame {s : State} (hrun : s.status = .running) (events : List KeyEvent) :
    Frame [.keys] s (runMoves s (events.map KeyEvent.move)) := by
  induction events generalizing s with
  | nil => exact Frame.refl _ s
  | cons e events ih =>
    have hfirst := act_keyEvent_frame hrun e
    have hrun' : (act s e.move).status = .running := (hfirst .status (by simp)).trans hrun
    exact (hfirst.trans (ih hrun')).mono (by simp)

/-- Key events halt no machine, so as many steps make them all. -/
theorem run_keyEvents {s : State} (hrun : s.status = .running) (events : List KeyEvent)
    (rest : List Move) :
    core.run events.length (s.setSchedule (events.map KeyEvent.move ++ rest)) =
      .next ((runMoves s (events.map KeyEvent.move)).setSchedule rest) := by
  induction events generalizing s with
  | nil => exact run_zero _
  | cons e events ih =>
    have hrun' : (act s e.move).status = .running :=
      (act_keyEvent_frame hrun e .status (by simp)).trans hrun
    rw [List.length_cons, List.map_cons, List.cons_append,
      run_succ (step_setSchedule_cons hrun e.move _), ih hrun', runMoves_cons]

/-- The instruction step, tick and publication of an iteration, when the instruction does not halt. -/
theorem run_iteration_running {s u : State} (hrun : s.status = .running)
    (hu : instrStep s = .next u) (hurun : u.status = .running) (rest : List Move) :
    core.run 3 (s.setSchedule (.instr :: .tick :: .publish :: rest)) =
      .next ((tick u).setSchedule rest) := by
  have hact : act s .instr = u := (act_running hrun .instr).trans (congrArg (resultState s) hu)
  have htrun : (tick u).status = .running := (tick_frame u .status (by simp)).trans hurun
  have hpublish : act (tick u) .publish = tick u := act_running htrun .publish
  rw [run_succ (step_setSchedule_cons hrun _ _), hact, run_succ (step_setSchedule_cons hurun _ _),
    act_tick hurun, run_succ (step_setSchedule_cons htrun _ _), hpublish, run_zero]

/-- When the instruction halts the machine, the tick and the publication stay on the schedule. -/
theorem run_iteration_halted {s u : State} {f : FaultRecord} (hrun : s.status = .running)
    (hu : instrStep s = .next u) (hf : u.status = .halted f) (rest : List Move) :
    core.run 3 (s.setSchedule (.instr :: rest)) = .next (u.setSchedule rest) := by
  have hact : act s .instr = u := (act_running hrun .instr).trans (congrArg (resultState s) hu)
  rw [run_succ (step_setSchedule_cons hrun _ _), hact]
  exact run_halted (s := u.setSchedule rest) hf 2

/-! ### Fairness of the reference schedule (R160) -/

theorem referenceSchedule_length_ge (l : List (List KeyEvent)) :
    l.length ≤ (referenceSchedule l).length := by
  induction l with
  | nil => exact Nat.le_refl 0
  | cons events rest ih =>
    simp only [referenceSchedule_cons, List.length_append, List.length_cons]
    omega

/-- A move that stands in a beginning of a schedule is the schedule's at that place. -/
theorem sched_of_firstMoves {sched : Nat → Move} {n : Nat} {m : Move} {before after : List Move}
    (h : firstMoves sched n = before ++ m :: after) : sched before.length = m := by
  have hn : n = before.length + (after.length + 1) := by
    simpa [firstMoves] using congrArg List.length h
  have hget : (firstMoves sched n)[before.length]? = some m := by simp [h]
  simpa [firstMoves, hn] using hget

/-- The tick of the last iteration has the publication alone after it. -/
theorem referenceSchedule_range_succ (events : Nat → List KeyEvent) (n : Nat) :
    referenceSchedule ((List.range (n + 1)).map events) =
      (referenceSchedule ((List.range n).map events) ++
        ((events n).map KeyEvent.move ++ [.instr])) ++ .tick :: [.publish] := by
  simp [List.range_succ, referenceSchedule_append]

/-- The tick of iteration n stands at place n or later. -/
theorem fairTicks_of_referenceSchedule {sched : Nat → Move} (h : ReferenceSchedule sched) :
    FairTicks sched := by
  obtain ⟨events, hevents⟩ := h
  intro n
  have hsplit := (hevents (n + 1)).trans (referenceSchedule_range_succ events n)
  refine ⟨_, ?_, sched_of_firstMoves hsplit⟩
  have hlen := referenceSchedule_length_ge ((List.range n).map events)
  rw [List.length_map, List.length_range] at hlen
  rw [List.length_append]
  exact Nat.le_add_right_of_le hlen

/-- Settles O58: the key events leave the machine running, so the instruction step is made, and the two
moves after it unless it halts. -/
theorem referenceIterationIsStepTickPublish : Obligations.ReferenceIterationIsStepTickPublish := by
  refine ⟨fun s events rest hrun hsched => ?_, fun _ => fairTicks_of_referenceSchedule⟩
  intro keyed
  have hframe : Frame [.keys] (s.setSchedule []) keyed :=
    runMoves_keyEvents_frame (s := s.setSchedule []) hrun events
  have hkrun : keyed.status = .running := (hframe .status (by simp)).trans hrun
  have hkeys := run_keyEvents (s := s.setSchedule []) hrun events
    (.instr :: .tick :: .publish :: referenceSchedule rest)
  rw [← referenceSchedule_cons, ← hsched] at hkeys
  have hrest := run_add 3 (s := s) hkeys
  obtain ⟨u, hu⟩ := perform_next .instr keyed
  refine ⟨hframe, u, hu, fun hurun => ?_, fun hhalt => ?_⟩
  · rw [hrest]
    exact run_iteration_running hkrun hu hurun _
  · obtain ⟨f, hf⟩ := (status_cases u).resolve_left hhalt
    rw [hrest]
    exact run_iteration_halted hkrun hu hf _

end Sys2Proof.Machine
end

section
/-! PROOFS. The end of a run (70_reset R160, R161): a parked machine stays parked, and ticks that keep coming
run its timers down. -/

namespace Sys2Proof.Machine

/-! ### Parked machines (R161) -/

theorem State.Parked.running {s : State} (h : s.Parked) : s.status = .running := h.1

/-- The self-jump puts `pc` back where the fetch found it. -/
theorem instrStep_parked {s : State} (h : s.Parked) : instrStep s = .next s := by
  obtain ⟨_, nnn, hpc, hfetch⟩ := h
  have hexec : exec (.jp nnn) (s.setPc (s.pc + 2)) = .next (s.setPc (nnn.setWidth 16)) := rfl
  rw [instrStep_ok hfetch, runWord_instr s (decode_encode (i := .jp nnn) rfl), hexec, hpc]
  rfl

/-- Being parked rests on the status, `pc` and memory alone. -/
theorem State.Parked.of_frame {changed : List Part} {s t : State} (h : s.Parked)
    (hmem : t.mem = s.mem) (hframe : Frame changed s t)
    (hc : ∀ p ∈ [Part.status, .pc], p ∉ changed) : t.Parked := by
  obtain ⟨hrun, nnn, hpc, hfetch⟩ := h
  have hpc' : t.pc = s.pc := hframe .pc (hc _ (by simp))
  refine ⟨(hframe .status (hc _ (by simp))).trans hrun, nnn, hpc.trans hpc'.symm, ?_⟩
  rw [hmem, hpc']
  exact hfetch

theorem act_instr_parked {s : State} (h : s.Parked) : act s .instr = s :=
  (act_running h.running .instr).trans (congrArg (resultState s) (instrStep_parked h))

/-- One move of a parked machine. -/
theorem act_parked {s : State} (h : s.Parked) (m : Move) :
    (act s m).Parked ∧ Frame [.delay, .sound, .keys, .history] s (act s m) := by
  by_cases hm : m = .instr
  · rw [hm, act_instr_parked h]
    exact ⟨h, Frame.refl _ s⟩
  · obtain ⟨t, e, hmem, hframe⟩ := perform_other s hm
    rw [act_running h.running, e]
    exact ⟨h.of_frame hmem hframe (by simp), hframe⟩

theorem runMoves_parked {s : State} (h : s.Parked) (l : List Move) :
    (runMoves s l).Parked ∧ Frame [.delay, .sound, .keys, .history] s (runMoves s l) := by
  induction l generalizing s with
  | nil => exact ⟨h, Frame.refl _ s⟩
  | cons m l ih =>
    obtain ⟨hparked, hframe⟩ := act_parked h m
    obtain ⟨hparked', hframe'⟩ := ih hparked
    exact ⟨hparked', (hframe.trans hframe').mono (by simp)⟩

/-- Settles O59: the self-jump changes nothing, and the other moves leave what parks the machine. -/
theorem parkedMachineStaysParked : Obligations.ParkedMachineStaysParked := by
  refine ⟨fun s h hm => ?_, fun s l h => runMoves_parked h l⟩
  have hparked : s.takeMove.Parked := h.of_frame rfl (takeMove_frame s) (by simp)
  exact (step_instr h.running hm).trans (instrStep_parked hparked)

/-! ### The timers of a parked machine (R160) -/

/-- Only a tick changes the timers of a parked machine. -/
theorem act_parked_timers {s : State} (h : s.Parked) {m : Move} (hm : m ≠ .tick) :
    (act s m).delay = s.delay ∧ (act s m).sound = s.sound := by
  cases m with
  | instr => rw [act_instr_parked h]; exact ⟨rfl, rfl⟩
  | tick => exact absurd rfl hm
  | keyDown k => rw [act_keyDown h.running]; exact ⟨rfl, rfl⟩
  | keyUp k => rw [act_keyUp h.running]; exact ⟨rfl, rfl⟩
  | publish => rw [act_running h.running]; exact ⟨rfl, rfl⟩

theorem act_tick_timers {s : State} (h : s.Parked) :
    (act s .tick).delay.toNat = s.delay.toNat - 1 ∧ (act s .tick).sound.toNat = 0 := by
  rw [act_tick h.running]
  exact ⟨tick_delay s, congrArg BitVec.toNat (tick_sound s)⟩

/-- No move of a parked machine makes a timer larger. -/
theorem act_parked_timers_le {s : State} (h : s.Parked) (m : Move) :
    (act s m).delay.toNat ≤ s.delay.toNat ∧ (act s m).sound.toNat ≤ s.sound.toNat := by
  by_cases hm : m = .tick
  · obtain ⟨hdelay, hsound⟩ := act_tick_timers h
    rw [hm, hdelay, hsound]
    exact ⟨Nat.sub_le _ 1, Nat.zero_le _⟩
  · obtain ⟨hdelay, hsound⟩ := act_parked_timers h hm
    rw [hdelay, hsound]
    exact ⟨Nat.le_refl _, Nat.le_refl _⟩

/-- The state after the first n moves of an infinite schedule. -/
def stateAt (s : State) (sched : Nat → Move) (n : Nat) : State := runMoves s (firstMoves sched n)

theorem stateAt_succ (s : State) (sched : Nat → Move) (n : Nat) :
    stateAt s sched (n + 1) = act (stateAt s sched n) (sched n) := by
  rw [stateAt, firstMoves_succ, runMoves_append]
  rfl

section
variable {s : State} {sched : Nat → Move} (h : s.Parked)
include h

theorem stateAt_parked (n : Nat) : (stateAt s sched n).Parked := (runMoves_parked h _).1

theorem delay_antitone : Antitone fun n => (stateAt s sched n).delay.toNat :=
  antitone_nat_of_succ_le fun n => by
    rw [stateAt_succ]
    exact (act_parked_timers_le (stateAt_parked h n) (sched n)).1

theorem sound_antitone : Antitone fun n => (stateAt s sched n).sound.toNat :=
  antitone_nat_of_succ_le fun n => by
    rw [stateAt_succ]
    exact (act_parked_timers_le (stateAt_parked h n) (sched n)).2

theorem stateAt_tick {n : Nat} (hn : sched n = .tick) :
    (stateAt s sched (n + 1)).delay.toNat = (stateAt s sched n).delay.toNat - 1 ∧
      (stateAt s sched (n + 1)).sound.toNat = 0 := by
  rw [stateAt_succ, hn]
  exact act_tick_timers (stateAt_parked h n)

/-- Every further tick takes DT one lower, as far as 0. -/
theorem exists_delay_le (hfair : FairTicks sched) (d : Nat) :
    ∃ n, (stateAt s sched n).delay.toNat ≤ s.delay.toNat - d := by
  induction d with
  | zero => exact ⟨0, Nat.le_refl _⟩
  | succ d ih =>
    obtain ⟨n, hn⟩ := ih
    obtain ⟨m, hnm, hm⟩ := hfair n
    have hle : (stateAt s sched m).delay.toNat ≤ (stateAt s sched n).delay.toNat :=
      delay_antitone h hnm
    have htick := (stateAt_tick h hm).1
    exact ⟨m + 1, by omega⟩

theorem exists_sound_zero (hfair : FairTicks sched) :
    ∃ n, (stateAt s sched n).sound.toNat = 0 := by
  obtain ⟨m, _, hm⟩ := hfair 0
  exact ⟨m + 1, (stateAt_tick h hm).2⟩

end

theorem byte_eq_zero_of_le {a b : Byte} (h : a.toNat ≤ b.toNat) (hb : b.toNat = 0) : a = 0 :=
  BitVec.eq_of_toNat_eq (Nat.le_zero.mp (hb ▸ h))

/-- Settles O60: DT is 0 after as many ticks as it holds, ST after the first; neither grows again. -/
theorem fairTicksRunTheTimersDown : Obligations.FairTicksRunTheTimersDown := by
  intro s sched h hfair
  obtain ⟨n, hn⟩ := exists_delay_le h hfair s.delay.toNat
  obtain ⟨n', hn'⟩ := exists_sound_zero h hfair
  refine ⟨max n n', fun m hm => ⟨?_, ?_⟩⟩
  · exact byte_eq_zero_of_le (delay_antitone h (le_of_max_le_left hm)) (by omega)
  · exact byte_eq_zero_of_le (sound_antitone h (le_of_max_le_right hm)) hn'

end Sys2Proof.Machine
end
